-- ==== Sys2Proof/Word.lean ====
section
/-! DEFINITION. Word.lean: the words of SUB323 (spec/00_scope.md R7, R10) and their plainest arithmetic. -/

namespace Sys2Proof

/-- One byte of memory, of the data bus, or of a sprite or tile record (`u8`, R10). -/
abbrev Byte := BitVec 8

/-- The `u4` of R10: the sound register, a rotary dial position, a rotary output code. -/
abbrev Nibble := BitVec 4

/-- The 16-bit ADDR field of format T and OFFSET field of format R (R46, R50). -/
abbrev Addr := BitVec 16

/-- The 4-bit REGION field of format R: a region id, a first port index or a device number (R50). -/
abbrev RegionId := BitVec 4

end Sys2Proof
end

