-- ==== Sys2Proof/Config.lean ====
section
/-! DEFINITION. Config.lean: the record `Profile` of spec/00_scope.md R8, which the spec calls fixed for a run and
takes as the model's argument, and the values that come from outside the block under no law (R11 `Draw`). -/

namespace Sys2Proof

/-- The three CPU lanes (R6, glossary): main lanes A and B, and the audio lane S. -/
inductive Lane where
  | a | b | s
deriving DecidableEq, Repr

/-- The two main lanes, the only ones that own a doorbell (R15). -/
inductive Main where
  | a | b
deriving DecidableEq, Repr

/-- The peer of a main lane: peer(A) = B and peer(B) = A (40_doorbell.md). -/
def Main.peer : Main → Main
  | .a => .b
  | .b => .a

/-- A main lane as a lane. -/
def Main.lane : Main → Lane
  | .a => .a
  | .b => .b

/-- The main lane that a lane is; lane S is none (R15: "Lane S has no doorbell state"). -/
def Lane.main? : Lane → Option Main
  | .a => some .a
  | .b => some .b
  | .s => none

/-- The two players of the rotary decoder (R21). -/
inductive Player where
  | p0 | p1
deriving DecidableEq, Repr

/-- ROM or RAM, the kinds of a backing region (R8 `REGIONS`, R19). -/
inductive RegionKind where
  | rom | ram
deriving DecidableEq, Repr

/-- The handler kinds of R50 and R79, codes 0 to 10. The codes 11 to 15 are no kind, so no map entry can hold one
(the second half of check 3 of R87 holds by the type). -/
inductive Kind where
  | rom | ram | shared | dflt | hardflag | dbSelf | dbPeer | sndMbox | sndReg | inport | ext
deriving DecidableEq, Repr

/-- One backing region of `REGIONS` (R8): id, length in bytes, kind and the lanes it is visible to. -/
structure Region where
  id        : RegionId
  len       : Nat
  kind      : RegionKind
  visibleTo : List Lane
deriving DecidableEq, Repr

/-- One router table entry `(start, end, kind, region)` of R75; both ends are inclusive. -/
structure MapEntry where
  start  : Nat
  stop   : Nat
  kind   : Kind
  region : RegionId
deriving DecidableEq, Repr

/-- What rotary decode applies to an input port (R8 `ROTARY_MODE`). -/
inductive RotaryMode where
  | none
  | way8
  | way12 (player : Player)
deriving DecidableEq, Repr

/-- `spritePlacementMode` of R113, which has no effect in any rule. -/
inductive PlacementMode where
  | a | b | c
deriving DecidableEq, Repr

/-- A decoded bitmap table `tile → (py, px) → pen` as plain data: for each tile its rows of pens.
A pixel that the table does not list is pen 0 (notes/assumptions/6.md). -/
abbrev BitmapTable := List (List (List Nat))

/-- The sprite layer record of R102, with its `SPR_BITMAP` (R8). -/
structure SpriteLayer where
  tableBase : Nat
  count     : Nat
  size      : Nat
  xhiBit    : Fin 8
  yhiBit    : Fin 8
  banks     : List (Fin 8 × Nat)
  colorBits : Nat
  xOff      : Int
  yOff      : Int
  sprTiles  : Nat
  sprPens   : Nat
  cbase     : Nat
  bitmap    : BitmapTable
deriving DecidableEq, Repr

/-- The per-title parameter record of R8. `image` holds INIT_MEM for every RAM region and default region, and the
ROM image for every ROM region, as cells keyed by `Bank.cellAddr` (Machine/Operands.lean). -/
structure Profile where
  addrW        : Nat
  regions      : List Region
  mapA         : List MapEntry
  mapB         : List MapEntry
  mapS         : List MapEntry
  hardFlagsEn  : Bool
  soundBusyBit : Byte
  busyPort     : Fin 12
  inputPortMap : Vector Nat 12
  rotaryMode   : Vector RotaryMode 12
  rot8Table    : Vector Nibble 8
  rot12Table   : Vector Nibble 12
  vram         : RegionId
  tilemapBase  : Nat
  attrBase     : Nat
  gridW        : Nat
  gridH        : Nat
  cell         : Nat
  tileCount    : Nat
  tilePens     : Nat
  tbShift      : Nat
  tbMask       : Nat
  tbStride     : Nat
  tcShift      : Nat
  colorXor     : Nat
  scrollxOff   : Nat
  scrollyOff   : Nat
  scrollxExt   : Option (Nat × Fin 8)
  scrollyExt   : Option (Nat × Fin 8)
  visW         : Nat
  visH         : Nat
  layers       : List SpriteLayer
  transPen     : Nat
  shadowPen    : Nat
  shadowInit   : Bool
  layerOrder   : Nat × Fin 8
  placement    : PlacementMode
  tileBitmap   : BitmapTable
  image        : List Host.Cell
deriving DecidableEq, Repr

/-- `MAP[l]`, the router table of a lane (R75). -/
def Profile.map (p : Profile) : Lane → List MapEntry
  | .a => p.mapA
  | .b => p.mapB
  | .s => p.mapS

/-- What a drawn byte is asked for: `Draw(input(slot))` of R115 and `Draw(ext_read(dev, off))` of R86, which ask the
outside world; and two bytes that the spec gives no value for, of reads that only a routed access built outside the
address decoder can make (notes/assumptions/8.md): of a place of a bank where it has no byte, by its `Bank.cellAddr`, and
of an input port beyond the 12. -/
inductive DrawSource where
  | input (slot : Nat)
  | extRead (dev : RegionId) (off : Addr)
  | absentByte (addr : Nat)
  | absentPort (port : Nat)
deriving DecidableEq, Repr

/-- The byte of the n-th draw where the state lists no answer: a free value, under no law (R11,
93_implementation_defined.md U3 and U4; notes/assumptions/4.md). -/
opaque Config.freeDraw : DrawSource → Nat → Byte

end Sys2Proof
end

