-- ==== Sys2Proof/Syntax.lean ====
section
/-! DEFINITION. Syntax.lean: the transactions and routed accesses of spec/30_encoding.md as terms, one constructor of
`Instr` per row of spec/opcode_table.json. -/

namespace Sys2Proof

/-- Read or write: the OP field of a format-R word (R50). -/
inductive RW where
  | rd | wr
deriving DecidableEq, Repr

/-- The operations of SUB323. The first five are the transactions of format T (R47); the others are the routed
accesses of format R, one for each (OP, KIND) (R50). `off` is the OFFSET field, `region` the REGION field. Kinds whose
REGION field is 0 (R50) carry no region. -/
inductive Instr where
  -- format T
  | busRd (lane : Lane) (addr : Addr)
  | busWr (lane : Lane) (addr : Addr) (data : Byte)
  | chipDone (chip : BitVec 1)
  | frame
  | reset
  -- format R, memory-like kinds
  | romRd (lane : Lane) (region : RegionId) (off : Addr)
  | romWr (lane : Lane) (region : RegionId) (off : Addr) (data : Byte)
  | ramRd (lane : Lane) (region : RegionId) (off : Addr)
  | ramWr (lane : Lane) (region : RegionId) (off : Addr) (data : Byte)
  | shrRd (lane : Lane) (region : RegionId) (off : Addr)
  | shrWr (lane : Lane) (region : RegionId) (off : Addr) (data : Byte)
  | dfltRd (lane : Lane) (off : Addr)
  | dfltWr (lane : Lane) (off : Addr) (data : Byte)
  | hflagRd (lane : Lane) (off : Addr)
  | hflagWr (lane : Lane) (off : Addr) (data : Byte)
  -- format R, doorbell kinds
  | dbSelfRd (lane : Lane) (off : Addr)
  | dbSelfWr (lane : Lane) (off : Addr) (data : Byte)
  | dbPeerRd (lane : Lane) (off : Addr)
  | dbPeerWr (lane : Lane) (off : Addr) (data : Byte)
  -- format R, sound kinds
  | sndMboxRd (lane : Lane) (off : Addr)
  | sndMboxWr (lane : Lane) (off : Addr) (data : Byte)
  | sndRegRd (lane : Lane) (off : Addr)
  | sndRegWr (lane : Lane) (off : Addr) (data : Byte)
  -- format R, input and audio-chip kinds
  | inpRd (lane : Lane) (firstPort : RegionId) (off : Addr)
  | inpWr (lane : Lane) (firstPort : RegionId) (off : Addr) (data : Byte)
  | chipRd (lane : Lane) (dev : RegionId) (off : Addr)
  | chipWr (lane : Lane) (dev : RegionId) (off : Addr) (data : Byte)
deriving DecidableEq, Repr

/-- The fields of a format-R word (R50), less RSV. -/
structure Routed where
  op     : RW
  lane   : Lane
  kind   : Kind
  region : RegionId
  offset : Addr
  data   : Byte
deriving DecidableEq, Repr

/-- One word presented to the block: a format-T transaction word, or a format-R word built outside the address decoder
(R52 speaks of "a model that builds format-R words directly"). -/
inductive Packet where
  | t (w : BitVec 32)
  | r (w : BitVec 40)
deriving DecidableEq, Repr

/-- The pseudo-instructions of the transaction script (R55). -/
inductive Pseudo where
  | arm (lane : Lane)
  | notify (lane : Lane)
  | post (lane : Lane) (data : Byte)
  | ack
  | sclr (lane : Lane) (mask : Nibble)
  | sstat (lane : Lane)
  | poll (lane : Lane) (port : Fin 12)
deriving DecidableEq, Repr

/-- The reason codes RF1 to RF7 of R126. -/
inductive Reason where
  /-- RF1: format-T OP in 0x5..0xF. -/
  | reservedOp
  /-- RF2: LANE = 3 on BUS_RD or BUS_WR. -/
  | reservedLane
  /-- RF3: RSV is not 0. -/
  | reservedField
  /-- RF4: a field that must be 0 is not. -/
  | fieldNotZero
  /-- RF5: ADDR outside ADDR_W bits. -/
  | addressTooWide
  /-- RF6: ill-formed profile, raised at power-on. -/
  | illFormedProfile
  /-- RF7: a format-R word with KIND 11 or more, built outside the address decoder. -/
  | reservedKind
deriving DecidableEq, Repr

/-- Why the decoder gives no operation for a packet. -/
inductive Undecoded where
  /-- A refusal of R126, for its reason. -/
  | refused (r : Reason)
  /-- A 40-bit packet with a KIND that R50 names, but with other fields that no word of format R has: it is no transaction
  and no routed access, and R126 names no case for it (notes/assumptions/8.md). -/
  | notRouted
deriving DecidableEq, Repr

end Sys2Proof
end

