-- ==== Sys2Proof/WellFormed.lean ====
section
/-! DEFINITION. WellFormed.lean: which terms of `Instr` are operations of SUB323 with an `addrW`-bit address: the
operand condition of spec/30_encoding.md R51 item 8. Every other operand takes every value of its field. -/

namespace Sys2Proof

/-- ADDR has no bit at or above ADDR_W (R51 item 8). -/
def Instr.wellFormed (addrW : Nat) : Instr → Bool
  | .busRd _ addr => addr.toNat < 2 ^ addrW
  | .busWr _ addr _ => addr.toNat < 2 ^ addrW
  | .chipDone _ => true
  | .frame => true
  | .reset => true
  | .romRd _ _ _ => true
  | .romWr _ _ _ _ => true
  | .ramRd _ _ _ => true
  | .ramWr _ _ _ _ => true
  | .shrRd _ _ _ => true
  | .shrWr _ _ _ _ => true
  | .dfltRd _ _ => true
  | .dfltWr _ _ _ => true
  | .hflagRd _ _ => true
  | .hflagWr _ _ _ => true
  | .dbSelfRd _ _ => true
  | .dbSelfWr _ _ _ => true
  | .dbPeerRd _ _ => true
  | .dbPeerWr _ _ _ => true
  | .sndMboxRd _ _ => true
  | .sndMboxWr _ _ _ => true
  | .sndRegRd _ _ => true
  | .sndRegWr _ _ _ => true
  | .inpRd _ _ _ => true
  | .inpWr _ _ _ _ => true
  | .chipRd _ _ _ => true
  | .chipWr _ _ _ _ => true

end Sys2Proof
end

