-- ==== Sys2Proof/Decode.lean ====
section
/-! DEFINITION. Decode.lean: the decoder of format-T and format-R words (spec/30_encoding.md R46 to R53), total on any
bits and rejecting by name, and after it the encoder (R46, R50, R54). -/

namespace Sys2Proof

/-! ### Fields -/

/-- The lane of a two-bit LANE field: 0 = A, 1 = B, 2 = S, 3 reserved (R46). -/
def laneOfBits (v : BitVec 2) : Option Lane :=
  if v = 0 then some .a else if v = 1 then some .b else if v = 2 then some .s else none

/-- The LANE field of a lane (R46). -/
def Lane.bits : Lane → BitVec 2
  | .a => 0
  | .b => 1
  | .s => 2

/-- The handler kind of a KIND field; the codes 11 to 15 are reserved (R50, R52). -/
def kindOfBits (v : BitVec 4) : Option Kind :=
  match v.toNat with
  | 0 => some .rom
  | 1 => some .ram
  | 2 => some .shared
  | 3 => some .dflt
  | 4 => some .hardflag
  | 5 => some .dbSelf
  | 6 => some .dbPeer
  | 7 => some .sndMbox
  | 8 => some .sndReg
  | 9 => some .inport
  | 10 => some .ext
  | _ => none

/-- The KIND code of a handler kind (R50). -/
def Kind.bits : Kind → BitVec 4
  | .rom => 0
  | .ram => 1
  | .shared => 2
  | .dflt => 3
  | .hardflag => 4
  | .dbSelf => 5
  | .dbPeer => 6
  | .sndMbox => 7
  | .sndReg => 8
  | .inport => 9
  | .ext => 10

/-- The OP field of a format-R word: 0 = read, 1 = write (R50). -/
def RW.bits : RW → BitVec 4
  | .rd => 0
  | .wr => 1

/-- The five fields of a format-T word (R46). -/
def opT (w : BitVec 32) : BitVec 4 := w.extractLsb' 28 4
def laneT (w : BitVec 32) : BitVec 2 := w.extractLsb' 26 2
def rsvT (w : BitVec 32) : BitVec 2 := w.extractLsb' 24 2
def addrT (w : BitVec 32) : Addr := w.extractLsb' 8 16
def dataT (w : BitVec 32) : Byte := w.extractLsb' 0 8

/-- The seven fields of a format-R word (R50). -/
def opR (w : BitVec 40) : BitVec 4 := w.extractLsb' 36 4
def laneR (w : BitVec 40) : BitVec 2 := w.extractLsb' 34 2
def kindR (w : BitVec 40) : BitVec 4 := w.extractLsb' 30 4
def regionR (w : BitVec 40) : RegionId := w.extractLsb' 26 4
def rsvR (w : BitVec 40) : BitVec 2 := w.extractLsb' 24 2
def offsetR (w : BitVec 40) : Addr := w.extractLsb' 8 16
def dataR (w : BitVec 40) : Byte := w.extractLsb' 0 8

/-! ### Format T -/

/-- Items 4 to 7 of R51: a field that R48 requires to be 0 is not. -/
def mustBeZeroT (w : BitVec 32) : Bool :=
  match (opT w).toNat with
  | 0 => dataT w ≠ 0
  | 1 => false
  | 2 => laneT w ≠ 0 || addrT w ≠ 0 || (dataT w).extractLsb' 1 7 ≠ 0
  | _ => laneT w ≠ 0 || addrT w ≠ 0 || dataT w ≠ 0

/-- The transaction of a format-T word, and the reason for which it is refused (R47, R51). The checks run in the order
of R51's items, so the first that fails gives the reason (notes/assumptions/9.md). -/
def decodeT (addrW : Nat) (w : BitVec 32) : Except Reason Instr :=
  if 5 ≤ (opT w).toNat then .error .reservedOp
  else if (opT w).toNat ≤ 1 ∧ laneT w = 3 then .error .reservedLane
  else if rsvT w ≠ 0 then .error .reservedField
  else if mustBeZeroT w then .error .fieldNotZero
  else if 2 ^ addrW ≤ (addrT w).toNat then .error .addressTooWide
  else match (opT w).toNat, laneOfBits (laneT w) with
    | 0, some l => .ok (.busRd l (addrT w))
    | 1, some l => .ok (.busWr l (addrT w) (dataT w))
    | 2, _ => .ok (.chipDone ((dataT w).extractLsb' 0 1))
    | 3, _ => .ok .frame
    | 4, _ => .ok .reset
    | _, _ => .error .reservedOp

/-! ### Format R -/

/-- Whether a kind uses the REGION field; for the others the field is 0 (R50, R77). -/
def Kind.usesRegion : Kind → Bool
  | .rom => true
  | .ram => true
  | .shared => true
  | .inport => true
  | .ext => true
  | .dflt => false
  | .hardflag => false
  | .dbSelf => false
  | .dbPeer => false
  | .sndMbox => false
  | .sndReg => false

/-- The zeros that R50 puts into the fields of a format-R word: REGION is 0 where the kind does not use it, and DATA is 0
on a read. -/
def Routed.wellFormed (r : Routed) : Bool :=
  (r.kind.usesRegion || r.region == 0) && (r.op == .wr || r.data == 0)

/-- The operation that R79 gives a routed access: one constructor for each (OP, KIND). -/
def Routed.toInstr (r : Routed) : Instr :=
  match r.kind, r.op with
  | .rom, .rd => .romRd r.lane r.region r.offset
  | .rom, .wr => .romWr r.lane r.region r.offset r.data
  | .ram, .rd => .ramRd r.lane r.region r.offset
  | .ram, .wr => .ramWr r.lane r.region r.offset r.data
  | .shared, .rd => .shrRd r.lane r.region r.offset
  | .shared, .wr => .shrWr r.lane r.region r.offset r.data
  | .dflt, .rd => .dfltRd r.lane r.offset
  | .dflt, .wr => .dfltWr r.lane r.offset r.data
  | .hardflag, .rd => .hflagRd r.lane r.offset
  | .hardflag, .wr => .hflagWr r.lane r.offset r.data
  | .dbSelf, .rd => .dbSelfRd r.lane r.offset
  | .dbSelf, .wr => .dbSelfWr r.lane r.offset r.data
  | .dbPeer, .rd => .dbPeerRd r.lane r.offset
  | .dbPeer, .wr => .dbPeerWr r.lane r.offset r.data
  | .sndMbox, .rd => .sndMboxRd r.lane r.offset
  | .sndMbox, .wr => .sndMboxWr r.lane r.offset r.data
  | .sndReg, .rd => .sndRegRd r.lane r.offset
  | .sndReg, .wr => .sndRegWr r.lane r.offset r.data
  | .inport, .rd => .inpRd r.lane r.region r.offset
  | .inport, .wr => .inpWr r.lane r.region r.offset r.data
  | .ext, .rd => .chipRd r.lane r.region r.offset
  | .ext, .wr => .chipWr r.lane r.region r.offset r.data

/-- The fields of a format-R word, where it has an OP, a LANE and a KIND that R50 names, and RSV is 0. -/
def fieldsR (w : BitVec 40) : Option Routed :=
  match laneOfBits (laneR w), kindOfBits (kindR w) with
  | some l, some k =>
    if rsvR w ≠ 0 then none
    else if opR w = 0 then some ⟨.rd, l, k, regionR w, offsetR w, dataR w⟩
    else if opR w = 1 then some ⟨.wr, l, k, regionR w, offsetR w, dataR w⟩
    else none
  | _, _ => none

/-- The operation of a format-R word. KIND 11 or more is refused with RF7 (R52, R126), whatever the other fields are; any
other 40-bit word that is no word of format R is none of R126's cases and is rejected as such (R50). Both are the model's
choices (notes/assumptions/8.md). -/
def decodeR (w : BitVec 40) : Except Undecoded Instr :=
  if 11 ≤ (kindR w).toNat then .error (.refused .reservedKind)
  else match fieldsR w with
    | some r => if r.wellFormed then .ok r.toInstr else .error .notRouted
    | none => .error .notRouted

/-- The decoder of the word presented to the block. -/
def decode (addrW : Nat) : Packet → Except Undecoded Instr
  | .t w =>
    match decodeT addrW w with
    | .ok i => .ok i
    | .error r => .error (.refused r)
  | .r w => decodeR w

/-- The instruction that the decoder reads from a row's word, with the default 16-bit address (R8 `ADDR_W`): format T
up to 32 bits, format R above. -/
def decodeTableWord (nbits w : Nat) : Option Instr :=
  let packet : Packet := if nbits ≤ 32 then .t (BitVec.ofNat 32 w) else .r (BitVec.ofNat 40 w)
  match decode 16 packet with
  | .ok i => some i
  | .error _ => none

/-! ### The encoder -/

/-- `OP<<28 | LANE<<26 | RSV<<24 | ADDR<<8 | DATA` with RSV = 0 (R46, R54). -/
def wordT (op : BitVec 4) (lane : BitVec 2) (addr : Addr) (data : Byte) : BitVec 32 :=
  op ++ lane ++ 0#2 ++ addr ++ data

/-- The format-R word of a routed access (R50). -/
def wordR (r : Routed) : BitVec 40 :=
  r.op.bits ++ r.lane.bits ++ r.kind.bits ++ r.region ++ 0#2 ++ r.offset ++ r.data

/-- The word of an operation: format T for the transactions, format R for the routed accesses (R47, R48, R50). -/
def encode : Instr → Packet
  | .busRd l addr => .t (wordT 0 l.bits addr 0)
  | .busWr l addr d => .t (wordT 1 l.bits addr d)
  | .chipDone c => .t (wordT 2 0 0 (c.setWidth 8))
  | .frame => .t (wordT 3 0 0 0)
  | .reset => .t (wordT 4 0 0 0)
  | .romRd l r off => .r (wordR ⟨.rd, l, .rom, r, off, 0⟩)
  | .romWr l r off d => .r (wordR ⟨.wr, l, .rom, r, off, d⟩)
  | .ramRd l r off => .r (wordR ⟨.rd, l, .ram, r, off, 0⟩)
  | .ramWr l r off d => .r (wordR ⟨.wr, l, .ram, r, off, d⟩)
  | .shrRd l r off => .r (wordR ⟨.rd, l, .shared, r, off, 0⟩)
  | .shrWr l r off d => .r (wordR ⟨.wr, l, .shared, r, off, d⟩)
  | .dfltRd l off => .r (wordR ⟨.rd, l, .dflt, 0, off, 0⟩)
  | .dfltWr l off d => .r (wordR ⟨.wr, l, .dflt, 0, off, d⟩)
  | .hflagRd l off => .r (wordR ⟨.rd, l, .hardflag, 0, off, 0⟩)
  | .hflagWr l off d => .r (wordR ⟨.wr, l, .hardflag, 0, off, d⟩)
  | .dbSelfRd l off => .r (wordR ⟨.rd, l, .dbSelf, 0, off, 0⟩)
  | .dbSelfWr l off d => .r (wordR ⟨.wr, l, .dbSelf, 0, off, d⟩)
  | .dbPeerRd l off => .r (wordR ⟨.rd, l, .dbPeer, 0, off, 0⟩)
  | .dbPeerWr l off d => .r (wordR ⟨.wr, l, .dbPeer, 0, off, d⟩)
  | .sndMboxRd l off => .r (wordR ⟨.rd, l, .sndMbox, 0, off, 0⟩)
  | .sndMboxWr l off d => .r (wordR ⟨.wr, l, .sndMbox, 0, off, d⟩)
  | .sndRegRd l off => .r (wordR ⟨.rd, l, .sndReg, 0, off, 0⟩)
  | .sndRegWr l off d => .r (wordR ⟨.wr, l, .sndReg, 0, off, d⟩)
  | .inpRd l p0 off => .r (wordR ⟨.rd, l, .inport, p0, off, 0⟩)
  | .inpWr l p0 off d => .r (wordR ⟨.wr, l, .inport, p0, off, d⟩)
  | .chipRd l dev off => .r (wordR ⟨.rd, l, .ext, dev, off, 0⟩)
  | .chipWr l dev off d => .r (wordR ⟨.wr, l, .ext, dev, off, d⟩)

end Sys2Proof
end

