-- ==== Sys2Proof/Machine/Operands.lean ====
section
/-! DEFINITION. Machine/Operands.lean: what a transaction's operands name under a profile: bits and pens, the banks of
bytes that exist (spec/10_state.md R19, R20), and the address decoder, from an address to a routed access
(spec/42_router.md R76, R77, R78). -/

namespace Sys2Proof.Machine

/-- Bit `b` of a byte as a number, 0 or 1 (`v[i]`, R10). -/
def bitOf (v : Byte) (b : Fin 8) : Nat := (v.getLsbD b.val).toNat

/-- The pen of pixel (py, px) of bitmap `t` (`TILE_BITMAP`, `SPR_BITMAP[L]`, R8). -/
def penAt (table : BitmapTable) (t py px : Nat) : Nat := ((table.getD t []).getD py []).getD px 0

/-! ### Banks: the byte arrays of the machine -/

/-- A byte array of the machine: a backing region `MEM[r]` (R19) or a lane's default region `DEF[l]` (R20). -/
inductive Bank where
  | region (id : RegionId)
  | dflt (lane : Lane)
deriving DecidableEq, Repr

/-- The number of a bank, below 32: region ids first, then the three default regions. -/
def Bank.code : Bank → Nat
  | .region id => id.toNat
  | .dflt .a => 16
  | .dflt .b => 17
  | .dflt .s => 18

/-- The address in the model's one memory of offset `off` of a bank: the offsets of the banks interleaved, so that
every (bank, offset) has an address of its own whatever the lengths (notes/assumptions/5.md). -/
def Bank.cellAddr (bank : Bank) (off : Nat) : Nat := bank.code + 32 * off

/-- The byte listed at an address of a cell list, if one is. -/
def lookupCell : List Host.Cell → Nat → Option Byte
  | [], _ => none
  | (a, v) :: rest, k => if a = k then some v else lookupCell rest k

/-- WHAT AN UNLISTED ADDRESS READS AS: the profile's INIT_MEM, or ROM image, at that address (R29, R40, R139); a byte
the profile's image does not list is 0x00 (notes/assumptions/5.md). -/
def initByte (p : Profile) (addr : Nat) : Byte := (lookupCell p.image addr).getD 0

/-- The region record of an id (`REGIONS`, R8). -/
def findRegion (p : Profile) (id : RegionId) : Option Region := p.regions.find? (fun r => r.id == id)

/-- `len(r)`; 0 for an id that names no region. -/
def regionLen (p : Profile) (id : RegionId) : Nat :=
  match findRegion p id with
  | some r => r.len
  | none => 0

/-- Whether a bank has a byte at an offset: `MEM[r]` has `len(r)` bytes (R19) and `DEF[l]` has 2^ADDR_W (R20). -/
def hasByte (p : Profile) (bank : Bank) (off : Nat) : Bool :=
  match bank with
  | .region id => off < regionLen p id
  | .dflt _ => off < 2 ^ p.addrW

/-- Whether a bank stores what is written to it: a RAM region or a default region does; `RegionWrite` is a no-op on a
ROM region (R11, R19, R81). -/
def writable (p : Profile) (bank : Bank) : Bool :=
  match bank with
  | .region id =>
    match findRegion p id with
    | some r => r.kind == .ram
    | none => false
  | .dflt _ => true

/-! ### The address decoder -/

/-- Whether a map entry claims an address: inclusive at both ends, and a HARDFLAG entry only while the bank is present
(R76). -/
def claims (p : Profile) (e : MapEntry) (addr : Nat) : Bool :=
  (e.kind != .hardflag || p.hardFlagsEn) && (e.start ≤ addr && addr ≤ e.stop)

/-- `Offset(e, addr)` of R77: modulo the region's length for ROM, RAM and SHARED, the distance from the start for the
other kinds. -/
def entryOffset (p : Profile) (e : MapEntry) (addr : Nat) : Nat :=
  match e.kind with
  | .rom => (addr - e.start) % regionLen p e.region
  | .ram => (addr - e.start) % regionLen p e.region
  | .shared => (addr - e.start) % regionLen p e.region
  | _ => addr - e.start

/-- `Route(l, addr)` of R76: kind, region and offset of the first entry in list order that claims the address, and
DEFAULT at the address itself where none does. -/
def route (p : Profile) (l : Lane) (addr : Addr) : Kind × RegionId × Addr :=
  match (p.map l).find? (fun e => claims p e addr.toNat) with
  | some e => (e.kind, e.region, BitVec.ofNat 16 (entryOffset p e addr.toNat))
  | none => (.dflt, 0, addr)

/-- The routed access that the address decoder builds for a BUS_RD or BUS_WR (R50, R78). -/
def routeAccess (p : Profile) (op : RW) (l : Lane) (addr : Addr) (data : Byte) : Routed :=
  let dest := route p l addr
  { op := op, lane := l, kind := dest.1, region := dest.2.1, offset := dest.2.2, data := if op = .wr then data else 0 }

/-- The input port of an INPORT access: `P0 + OFFSET` (R77, R115); none where it is not one of the 12. -/
def portOf (firstPort : RegionId) (off : Addr) : Option (Fin 12) :=
  if h : firstPort.toNat + off.toNat < 12 then some ⟨firstPort.toNat + off.toNat, h⟩ else none

end Sys2Proof.Machine
end

