-- ==== Sys2Proof/Machine/ExampleProfile.lean ====
section
/-! DEFINITION. Machine/ExampleProfile.lean: the example profile EX of spec/95_test_vectors.md section 0, the only
profile whose values the spec gives. -/

namespace Sys2Proof.Machine

/-- The regions of EX. -/
def exRegions : List Region :=
  [ ⟨0, 0x8000, .rom, [.a]⟩,
    ⟨1, 0x0800, .ram, [.a, .b]⟩,
    ⟨2, 0x1000, .ram, [.a, .b]⟩,
    ⟨3, 0x4000, .rom, [.b]⟩,
    ⟨4, 0x0800, .ram, [.s]⟩,
    ⟨5, 0x2000, .rom, [.s]⟩ ]

/-- Lane A's map of EX, entries a1 to a9. -/
def exMapA : List MapEntry :=
  [ ⟨0x6000, 0x6000, .sndMbox, 0⟩,
    ⟨0x6001, 0x6001, .sndReg, 0⟩,
    ⟨0x0000, 0x7FFF, .rom, 0⟩,
    ⟨0x8000, 0x87FF, .shared, 1⟩,
    ⟨0x9000, 0x9FFF, .shared, 2⟩,
    ⟨0xD000, 0xD003, .inport, 0⟩,
    ⟨0xE000, 0xE000, .hardflag, 0⟩,
    ⟨0xF000, 0xF000, .dbSelf, 0⟩,
    ⟨0xF001, 0xF001, .dbPeer, 0⟩ ]

/-- Lane B's map of EX, entries b1 to b6. -/
def exMapB : List MapEntry :=
  [ ⟨0x0000, 0x3FFF, .rom, 3⟩,
    ⟨0x7000, 0x7000, .dbSelf, 0⟩,
    ⟨0x7001, 0x7001, .dbPeer, 0⟩,
    ⟨0xC000, 0xC7FF, .shared, 1⟩,
    ⟨0xD000, 0xDFFF, .shared, 1⟩,
    ⟨0x6000, 0x6000, .sndMbox, 0⟩ ]

/-- Lane S's map of EX, entries s1 to s6. -/
def exMapS : List MapEntry :=
  [ ⟨0x0000, 0x1FFF, .rom, 5⟩,
    ⟨0x4000, 0x47FF, .ram, 4⟩,
    ⟨0x6000, 0x6000, .sndMbox, 0⟩,
    ⟨0x6001, 0x6001, .sndReg, 0⟩,
    ⟨0xA000, 0xA001, .ext, 0⟩,
    ⟨0xD000, 0xD001, .inport, 0⟩ ]

/-- A bitmap of `size` by `size` pixels that is solid in one pen. -/
def solidBitmap (size pen : Nat) : List (List Nat) := List.replicate size (List.replicate size pen)

/-- Sprite tile 3 of EX: pen 3 where px + py is odd, pen 0 where it is even. -/
def exChecker : List (List Nat) :=
  (List.range 16).map fun py => (List.range 16).map fun px => if (px + py) % 2 = 1 then 3 else 0

/-- The one sprite layer L0 of EX. -/
def exLayer : SpriteLayer :=
  { tableBase := 0x100, count := 2, size := 16, xhiBit := 7, yhiBit := 6, banks := [(5, 2)], colorBits := 3,
    xOff := 0, yOff := 0, sprTiles := 4, sprPens := 4, cbase := 64,
    bitmap := [solidBitmap 16 0, solidBitmap 16 1, solidBitmap 16 2, exChecker] }

/-- The example profile EX. Its INIT_MEM is all 0x00, and its one ROM byte that is not 0x00 is byte 0 of region 0.

DESIGN CHOICE (notes/assumptions/13.md): section 0 gives EX no LAYER_ORDER. The model takes (0x030, bit 0), the value that
section 2.6 gives EX's two-layer variant. With EX's one layer the bit is never read (R111). -/
def exProfile : Profile :=
  { addrW := 16
    regions := exRegions
    mapA := exMapA
    mapB := exMapB
    mapS := exMapS
    hardFlagsEn := true
    soundBusyBit := 0x80
    busyPort := 1
    inputPortMap := #v[0, 1, 2, 3, 4, 5, 6, 7, 8, 9, 10, 11]
    rotaryMode := #v[.none, .none, .way8, .way12 .p0, .none, .none, .none, .none, .none, .none, .none, .none]
    rot8Table := #v[0, 1, 2, 3, 4, 5, 6, 7]
    rot12Table := #v[0, 1, 2, 3, 4, 5, 6, 7, 8, 9, 10, 11]
    vram := 2
    tilemapBase := 0x000
    attrBase := 0x010
    gridW := 4
    gridH := 2
    cell := 8
    tileCount := 4
    tilePens := 4
    tbShift := 4
    tbMask := 1
    tbStride := 2
    tcShift := 0
    colorXor := 0
    scrollxOff := 0x020
    scrollyOff := 0x021
    scrollxExt := some (0x022, 0)
    scrollyExt := none
    visW := 16
    visH := 16
    layers := [exLayer]
    transPen := 0
    shadowPen := 1
    shadowInit := false
    layerOrder := (0x030, 0)
    placement := .a
    tileBitmap := [solidBitmap 8 0, solidBitmap 8 1, solidBitmap 8 2, solidBitmap 8 3]
    image := [((Bank.region 0).cellAddr 0, 0x3E)] }

end Sys2Proof.Machine
end

