-- ==== Sys2Proof/Machine/ProfileWf.lean ====
section
/-! DEFINITION. Machine/ProfileWf.lean: well-formedness of a profile: spec/42_router.md R87 with the render checks of
spec/43_tile.md R101 and spec/44_sprite.md R114, and the ranges that R8 and R102 give as a parameter's type. -/

namespace Sys2Proof.Machine

/-- The number of lanes in a `visibleTo` set. -/
def laneCount (v : List Lane) : Nat := (if v.contains .a then 1 else 0) + (if v.contains .b then 1 else 0) + (if v.contains .s then 1 else 0)

/-- The ranges that R8 and R102 give as types (`nat ≥ 1`), where the checks of R87 do not repeat them
(notes/assumptions/7.md). -/
def wfRanges (p : Profile) : Bool :=
  1 ≤ p.gridW && 1 ≤ p.gridH && 1 ≤ p.visW && 1 ≤ p.visH &&
  p.layers.all (fun L => 1 ≤ L.count && 1 ≤ L.sprTiles && 1 ≤ L.sprPens)

/-- R87 check 1. -/
def wfRegions (p : Profile) : Bool :=
  decide (p.regions.map (fun r => r.id)).Nodup && p.regions.all (fun r => 1 ≤ r.len && r.len ≤ 2 ^ p.addrW)

/-- R87 checks 2 to 8 for one entry of `MAP[l]`. -/
def wfEntry (p : Profile) (l : Lane) (e : MapEntry) : Bool :=
  (e.start ≤ e.stop && e.stop < 2 ^ p.addrW) &&
  match e.kind with
  | .dflt => false
  | .rom =>
    match findRegion p e.region with
    | some r => r.kind == .rom && r.visibleTo.contains l
    | none => false
  | .ram =>
    match findRegion p e.region with
    | some r => r.kind == .ram && r.visibleTo.contains l
    | none => false
  | .shared =>
    match findRegion p e.region with
    | some r => r.kind == .ram && r.visibleTo.contains l && 2 ≤ laneCount r.visibleTo
    | none => false
  | .hardflag => e.region == 0
  | .dbSelf => e.region == 0 && l ≠ .s
  | .dbPeer => e.region == 0 && l ≠ .s
  | .sndMbox => e.region == 0
  | .sndReg => e.region == 0
  | .inport => e.region.toNat + (e.stop - e.start) ≤ 11
  | .ext => true

/-- R87 checks 2 to 8 for every map. -/
def wfMaps (p : Profile) : Bool :=
  p.mapA.all (wfEntry p .a) && p.mapB.all (wfEntry p .b) && p.mapS.all (wfEntry p .s)

/-- Every pen that a bitmap table gives for tiles below `count`, of `size` by `size` pixels, is below `pens`. -/
def pensBelow (table : BitmapTable) (count size pens : Nat) : Bool :=
  (List.range count).all fun t =>
    (List.range size).all fun py => (List.range size).all fun px => penAt table t py px < pens

/-- An offset lies in VRAM. -/
def inVram (p : Profile) (off : Nat) : Bool := off < regionLen p p.vram

/-- The render checks of the tile part (R101). -/
def wfTiles (p : Profile) : Bool :=
  writable p (.region p.vram) &&
  (p.tilemapBase + p.gridW * p.gridH ≤ regionLen p p.vram && p.attrBase + p.gridW * p.gridH ≤ regionLen p p.vram) &&
  (inVram p p.scrollxOff && inVram p p.scrollyOff &&
    p.scrollxExt.all (fun e => inVram p e.1) && p.scrollyExt.all (fun e => inVram p e.1)) &&
  ((p.cell == 8 || p.cell == 16) && p.tcShift ≤ 4 && p.colorXor < 16) &&
  (1 ≤ p.tileCount && 1 ≤ p.tilePens) &&
  pensBelow p.tileBitmap p.tileCount p.cell p.tilePens

/-- R114 checks 2 and 3 for one layer. -/
def wfLayer (p : Profile) (L : SpriteLayer) : Bool :=
  (L.tableBase + 4 * L.count ≤ regionLen p p.vram && (L.size == 16 || L.size == 32) &&
    (L.colorBits == 3 || L.colorBits == 4)) &&
  pensBelow L.bitmap L.sprTiles L.size L.sprPens

/-- The render checks of the sprite part (R114). -/
def wfSprites (p : Profile) : Bool :=
  (p.layers.length == 1 || p.layers.length == 2) &&
  p.layers.all (wfLayer p) &&
  (p.layers.length == 1 || inVram p p.layerOrder.1) &&
  (p.shadowPen == p.transPen + 1 || p.transPen == p.shadowPen + 1)

/-- A profile is well-formed when every check of R87 holds. -/
def wfProfile (p : Profile) : Bool :=
  wfRanges p && wfRegions p && wfMaps p && wfTiles p && wfSprites p

/-- The refusal of a profile at power-on: RF6 where it is ill-formed, none where it is well-formed (R87, R126). -/
def profileRefusal (p : Profile) : Option Reason := if wfProfile p then none else some .illFormedProfile

end Sys2Proof.Machine
end

