-- ==== Sys2Proof/Machine/Surface.lean ====
section
/-! DEFINITION. Machine/Surface.lean: surfaces of indexed colours, the form of SCRATCH and FRAME (spec/10_state.md R23,
R24, spec/00_scope.md R9). -/

namespace Sys2Proof.Machine

/-- A surface of indexed colours: its rows from top to bottom, each its pixels from left to right. -/
abbrev Surface := List (List Nat)

/-- A surface of `h` rows of `w` pixels, every pixel 0 (R29). -/
def blankSurface (h w : Nat) : Surface := List.replicate h (List.replicate w 0)

/-- The pixel of a surface at row `y`, column `x`. -/
def pixelAt (f : Surface) (y x : Nat) : Nat := (f.getD y []).getD x 0

/-- `f[y][x] <- v`; a place outside the surface is left alone. -/
def putPixel (f : Surface) (y x v : Nat) : Surface := f.set y ((f.getD y []).set x v)

/-- The `h` rows of `w` pixels whose pixel at (y, x) is `g y x`. -/
def makeSurface (h w : Nat) (g : Nat → Nat → Nat) : Surface :=
  (List.range h).map fun y => (List.range w).map fun x => g y x

/-- For every py in [0, h) and px in [0, w), in row order: replace the surface by `draw py px` of it. -/
def forPixels (h w : Nat) (draw : Nat → Nat → Surface → Surface) (f : Surface) : Surface :=
  (List.range h).foldl (fun f py => (List.range w).foldl (fun f px => draw py px f) f) f

end Sys2Proof.Machine
end

