-- ==== Sys2Proof/Machine/State.lean ====
section
/-! DEFINITION. Machine/State.lean: the record `St` of spec/10_state.md R13 to R29 as plain data, with the profile it is
taken under and the model's own input and output fields; the reasons a step can stop; power-on and reset (R139). -/

namespace Sys2Proof.Machine

/-- The output events of a transaction (R49). -/
inductive Event where
  /-- Deliver one interrupt to a main lane's CPU (R56). -/
  | irq (lane : Main)
  /-- A read forwarded to the external audio chip (R86). -/
  | extRd (dev : RegionId) (off : Addr)
  /-- A write forwarded to the external audio chip (R86). -/
  | extWr (dev : RegionId) (off : Addr) (data : Byte)
  /-- The frame is complete in FRAME (R121). -/
  | frameOut
deriving DecidableEq, Repr

/-- The response `Out = (rdata, events)` of a transaction (R49). -/
structure Response where
  rdata  : Option Byte
  events : List Event
deriving DecidableEq, Repr

/-- The two doorbell bits of a main lane (R15). -/
structure Doorbell where
  enable  : Bool
  pending : Bool
deriving DecidableEq, Repr

/-- The 12-way rotary decoder of a player: ROT_PREV and ROT_CNT (R21). -/
structure Rotary where
  prev : Nibble
  cnt  : Fin 12
deriving DecidableEq, Repr

/-- The last-rendered raw cell of a DIRTY slot, `none` for INVALID (R22). -/
abbrev DirtySlot := Option (Byte × Byte)

/-- The state of SUB323. `profile` is the model's argument (R8), which no step changes; `inbox`, `answers`, `nDraws` and
`out` are the model's own: the transactions still to come in their one total order (R40, R41), what the outside world
will answer to draws (R11), the count of draws made, and the response of the latest transaction (R49). All other fields
are the elements of R29. -/
structure State where
  profile : Profile
  doorA   : Doorbell
  doorB   : Doorbell
  srs     : Nibble
  mailbox : Byte
  mem     : List Host.Cell
  rot0    : Rotary
  rot1    : Rotary
  dirty   : List DirtySlot
  scratch : Surface
  frame   : Surface
  shadow  : Bool
  refused : Bool
  inbox   : List Packet
  answers : List (DrawSource × Byte)
  nDraws  : Nat
  out     : Option Response
deriving DecidableEq, Repr

/-- Why a step stops with a fault. There is no constructor: "SUB323 raises no exception and has no cause codes. No
transaction traps, faults or aborts" (R125), so no meaning raises one. -/
inductive Fault where
deriving DecidableEq, Repr

/-- Why a step gives no meaning. A refusal in the SPEC's sense (R126) is not one of these: it sets the REFUSED mark and
is a next state. No instruction raises one. -/
inductive Refusal where
  /-- Raised by an arm of `exec` whose instruction has no meaning yet; safe: no step follows. No arm raises it. -/
  | notModelled (mnemonic : String)
  /-- Raised by `step` alone, where the next packet is a 40-bit word of no format: no transaction, no routed access, and no
  case of R126; safe: no step follows (notes/assumptions/8.md). -/
  | notRoutedWord
deriving DecidableEq, Repr

/-- What a meaning answers. -/
abbrev Result := Host.Outcome State Fault Refusal

/-- The power-on state under a profile (R29, R139): REFUSED is set at once where the profile is refused (R87, RF6). No
transaction has arrived and no response is out. -/
def State.powerOn (p : Profile) : State :=
  { profile := p
    doorA := ⟨false, false⟩
    doorB := ⟨false, false⟩
    srs := 0
    mailbox := 0
    mem := []
    rot0 := ⟨0, 0⟩
    rot1 := ⟨0, 0⟩
    dirty := List.replicate (p.gridW * p.gridH) none
    scratch := blankSurface (p.gridH * p.cell) (p.gridW * p.cell)
    frame := blankSurface p.visH p.visW
    shadow := p.shadowInit
    refused := (profileRefusal p).isSome
    inbox := []
    answers := []
    nDraws := 0
    out := none }

/-- The machine at power-on under the spec's example profile EX: the start state S0 of 95_test_vectors.md
(notes/assumptions/1.md). -/
def State.reset : State := State.powerOn exProfile

end Sys2Proof.Machine
end

