-- ==== Sys2Proof/Machine/Flags.lean ====
section
/-! DEFINITION. Machine/Flags.lean: every flag and status computation of the spec: SoundRegisterState
(spec/41_sound.md R66 to R70, R74), the doorbell bits (spec/40_doorbell.md R57, R58, R63) and the input transforms
(spec/45_input.md R117, R118, R119). -/

namespace Sys2Proof.Machine

/-! ### SoundRegisterState -/

/-- SRS after a command is posted: BUSY and CMD_PENDING are set (R66). -/
def srsPosted (srs : Nibble) : Nibble := srs ||| 0b1100

/-- SRS after a mask write: ANDed with the upper nibble of the data byte (R68). -/
def srsMasked (srs : Nibble) (d : Byte) : Nibble := srs &&& d.extractLsb' 4 4

/-- SRS after completion of chip `c`: bit c is set (R70). -/
def srsChipDone (srs : Nibble) (c : BitVec 1) : Nibble := srs ||| (1 <<< c.toNat)

/-- The byte that a read of SRS returns: zero-extended (R69). -/
def srsByte (srs : Nibble) : Byte := srs.setWidth 8

/-- Bit 2 of SRS, "sound CPU busy" (R17). -/
def srsBusy (srs : Nibble) : Bool := srs.getLsbD 2

/-! ### Doorbell bits -/

/-- A lane's doorbell bits after it writes its own doorbell offset, and whether an interrupt is delivered to it (R57). -/
def doorSelfWrite (d : Doorbell) : Doorbell × Bool :=
  if d.pending then ({ d with pending := false }, true) else ({ d with enable := true }, false)

/-- The target's doorbell bits after its peer reads the peer-notify offset, and whether an interrupt is delivered to the
target (R58). -/
def doorNotified (d : Doorbell) : Doorbell × Bool :=
  if d.enable then ({ d with enable := false }, true) else ({ d with pending := true }, false)

/-! ### Input transforms -/

/-- The input byte with the bits of SOUND_BUSY_BIT cleared (R117). -/
def clearBusy (p : Profile) (v : Byte) : Byte := v &&& ~~~p.soundBusyBit

/-- A rotary output code in the upper nibble, over the raw low nibble (R118, R119). -/
def withCode (code : Nibble) (raw : Byte) : Byte := code ++ raw.extractLsb' 0 4

/-- The raw dial position: the upper nibble of the raw byte (R118, R119). -/
def dial (raw : Byte) : Nibble := raw.extractLsb' 4 4

/-- `Rot8(raw)` (R118). -/
def rot8 (p : Profile) (raw : Byte) : Byte :=
  withCode (p.rot8Table.get ⟨(dial raw).toNat / 2, by have := (dial raw).isLt; omega⟩) raw

/-- The step between two dial positions, brought into [-8, 8) (R119). -/
def dialDelta (cur prev : Nibble) : Int :=
  let delta : Int := (cur.toNat : Int) - prev.toNat
  if delta ≥ 8 then delta - 16 else if delta < -8 then delta + 16 else delta

/-- The rotary decoder after a poll that reads dial position `cur` (R119). -/
def rotaryStep (r : Rotary) (cur : Nibble) : Rotary :=
  { prev := cur, cnt := Fin.ofNat 12 (((r.cnt.val : Int) + dialDelta cur r.prev) % 12).toNat }

/-- The byte that `Rot12` returns, from the decoder after the poll (R119). -/
def rot12Byte (p : Profile) (r : Rotary) (raw : Byte) : Byte := withCode (p.rot12Table.get r.cnt) raw

end Sys2Proof.Machine
end

