-- ==== Sys2Proof/Machine/Ops.lean ====
section
/-! DEFINITION. Machine/Ops.lean: the named operations over State that the meanings share: memory as one canonical cell
list, the doorbell and rotary accessors, responses, interrupt delivery (spec/40_doorbell.md R56), refusal
(spec/60_exceptions.md R126), draws (spec/00_scope.md R11), and the fetch of a transaction. -/

namespace Sys2Proof.Machine

/-! ### Memory -/

/-- A cell list less any cell at an address. -/
def eraseCell : List Host.Cell → Nat → List Host.Cell
  | [], _ => []
  | (a, v) :: rest, k => if a = k then rest else (a, v) :: eraseCell rest k

/-- A sorted cell list with a cell added, or replaced, at its place. -/
def insertCell : List Host.Cell → Nat → Byte → List Host.Cell
  | [], k, d => [(k, d)]
  | (a, v) :: rest, k, d =>
    if k < a then (k, d) :: (a, v) :: rest
    else if a = k then (k, d) :: rest
    else (a, v) :: insertCell rest k d

/-- A memory after a byte is written: the cell goes where the byte is what the unlisted address reads as. -/
def writeCell (init : Nat → Byte) (m : List Host.Cell) (k : Nat) (d : Byte) : List Host.Cell :=
  if d = init k then eraseCell m k else insertCell m k d

/-- The byte a memory holds at an address. -/
def readCell (init : Nat → Byte) (m : List Host.Cell) (k : Nat) : Byte := (lookupCell m k).getD (init k)

/-- Addresses rise strictly from cell to cell. -/
def risingFrom : List Host.Cell → Bool
  | [] => true
  | (a, _) :: rest => rest.all (fun c => a < c.1) && risingFrom rest

/-- The canonical form of a memory: addresses strictly rising, and no cell equal to what the unlisted address reads as. -/
def Memory.wf (init : Nat → Byte) (m : List Host.Cell) : Bool :=
  risingFrom m && m.all (fun c => c.2 ≠ init c.1)

/-- `RegionRead(r, off)` (R11) and a read of `DEF[l]` (R84): the byte at an offset of a bank. -/
def readBank (s : State) (bank : Bank) (off : Nat) : Byte :=
  readCell (initByte s.profile) s.mem (bank.cellAddr off)

/-- `RegionWrite(r, off, v)` (R11) and a write of `DEF[l]` (R84): a no-op where the bank is a ROM region. -/
def writeBank (s : State) (bank : Bank) (off : Nat) (d : Byte) : State :=
  if writable s.profile bank then
    { s with mem := writeCell (initByte s.profile) s.mem (bank.cellAddr off) d }
  else s

/-! ### Doorbell and rotary accessors -/

/-- The doorbell bits of a main lane (R15). -/
def door (s : State) : Main → Doorbell
  | .a => s.doorA
  | .b => s.doorB

/-- The state with the doorbell bits of a main lane replaced. -/
def setDoor (s : State) (m : Main) (d : Doorbell) : State :=
  match m with
  | .a => { s with doorA := d }
  | .b => { s with doorB := d }

/-- The rotary decoder of a player (R21). -/
def rotary (s : State) : Player → Rotary
  | .p0 => s.rot0
  | .p1 => s.rot1

/-- The state with the rotary decoder of a player replaced. -/
def setRotary (s : State) (q : Player) (r : Rotary) : State :=
  match q with
  | .p0 => { s with rot0 := r }
  | .p1 => { s with rot1 := r }

/-! ### Responses, interrupt delivery, refusal -/

/-- The response of a read: `rdata` and the events emitted (R49). -/
def answerRead (s : State) (v : Byte) (events : List Event) : State := { s with out := some ⟨some v, events⟩ }

/-- The response of any other operation: no `rdata`, and the events emitted (R49). -/
def answerDone (s : State) (events : List Event) : State := { s with out := some ⟨none, events⟩ }

/-- To deliver an interrupt to a main lane is to emit `Irq` of it once in the response (R56). SUB323 saves nothing,
changes no mode and selects no vector: trap entry is the external CPU's (R130). -/
def deliver (m : Main) : List Event := [.irq m]

/-- `Refuse(reason)` (R11, R126): the sticky REFUSED mark is set, nothing else changes, and there is no response. -/
def refuse (s : State) : State := { s with refused := true, out := none }

/-! ### Draws -/

/-- The first listed answer to a draw from a source, and the answers left when it is taken. -/
def takeAnswer (src : DrawSource) : List (DrawSource × Byte) → Option (Byte × List (DrawSource × Byte))
  | [] => none
  | (x, v) :: rest =>
    if x = src then some (v, rest)
    else
      match takeAnswer src rest with
      | some (u, left) => some (u, (x, v) :: left)
      | none => none

/-- The byte that `Draw(src)` gives: the first listed answer of the source, else a free value (R11;
notes/assumptions/4.md). -/
def drawByte (s : State) (src : DrawSource) : Byte :=
  match takeAnswer src s.answers with
  | some (v, _) => v
  | none => Config.freeDraw src s.nDraws

/-- The state after `Draw(src)`: the answer is used up and the draw counted. -/
def afterDraw (s : State) (src : DrawSource) : State :=
  { s with
    answers := (match takeAnswer src s.answers with
      | some (_, left) => left
      | none => s.answers)
    nDraws := s.nDraws + 1 }

/-- A read whose byte is drawn: the byte of the source, and no event. -/
def answerDrawn (s : State) (src : DrawSource) : State := answerRead (afterDraw s src) (drawByte s src) []

/-! ### Arrival of a transaction -/

/-- The state once the next packet has left the inbox: the response of the transaction before is gone. -/
def takePacket (s : State) (rest : List Packet) : State := { s with inbox := rest, out := none }

/-- The state when no transaction has arrived: "SUB323 itself takes no step of its own between transactions" (R6), so
only the earlier response is gone (notes/assumptions/3.md). -/
def idle (s : State) : State := { s with out := none }

/-- The packet that presents a table row's word: format T up to 32 bits, format R above. -/
def packetOfTableWord (nbits w : Nat) : Packet :=
  if nbits ≤ 32 then .t (BitVec.ofNat 32 w) else .r (BitVec.ofNat 40 w)

end Sys2Proof.Machine
end

