-- ==== Sys2Proof/Machine/DoorbellOps.lean ====
section
/-! DEFINITION. Machine/DoorbellOps.lean: the inter-CPU doorbell of spec/40_doorbell.md (R57 to R60). A doorbell access
by lane S is one that the address decoder never builds (R57, R87 item 6). It changes no doorbell bit (R63), and a read
returns the sentinel that R58 and R59 give every doorbell read (notes/assumptions/8.md). -/

namespace Sys2Proof.Machine

/-- The events of a doorbell change of a lane: the interrupt delivered to it, if one is (R56). -/
def doorEvents (m : Main) (fires : Bool) : List Event := if fires then deliver m else []

/-- DB_SELF_RD (R59): `rdata <- 0xFF`, no state changes. -/
def execDbSelfRd (_lane : Lane) (_off : Addr) (s : State) : Result := .next (answerRead s 0xFF [])

/-- DB_SELF_WR (R57): take the queued interrupt of the lane, or arm the lane; lane S has neither bit (R15). -/
def execDbSelfWr (lane : Lane) (_off : Addr) (_d : Byte) (s : State) : Result :=
  match lane.main? with
  | some m =>
    let wrote := doorSelfWrite (door s m)
    .next (answerDone (setDoor s m wrote.1) (doorEvents m wrote.2))
  | none => .next (answerDone s [])

/-- DB_PEER_RD (R58): interrupt the armed peer, or queue the request; `rdata <- 0xFF` in both branches. Lane S has no
peer. -/
def execDbPeerRd (lane : Lane) (_off : Addr) (s : State) : Result :=
  match lane.main? with
  | some m =>
    let notified := doorNotified (door s m.peer)
    .next (answerRead (setDoor s m.peer notified.1) 0xFF (doorEvents m.peer notified.2))
  | none => .next (answerRead s 0xFF [])

/-- DB_PEER_WR (R60): no state changes, and no event is emitted. -/
def execDbPeerWr (_lane : Lane) (_off : Addr) (_d : Byte) (s : State) : Result := .next (answerDone s [])

end Sys2Proof.Machine
end

