-- ==== Sys2Proof/Machine/Input.lean ====
section
/-! DEFINITION. Machine/Input.lean: the input-port data path of spec/45_input.md (R115 to R119). An access to a port
beyond the 12 is one that the address decoder never builds (R87 item 7): the byte of such a read is free
(notes/assumptions/8.md). -/

namespace Sys2Proof.Machine

/-- The rotary transform of port `p` on a raw byte: the byte, and the state with the decoder of a WAY12 port moved
(R115, R118, R119). -/
def rotaryTransform (port : Fin 12) (raw : Byte) (s : State) : Byte × State :=
  match s.profile.rotaryMode.get port with
  | .none => (raw, s)
  | .way8 => (rot8 s.profile raw, s)
  | .way12 q =>
    let r := rotaryStep (rotary s q) (dial raw)
    (rot12Byte s.profile r raw, setRotary s q r)

/-- The sound-busy injection: on a main-lane read of BUSY_PORT while SRS bit 2 is 0, the bits of SOUND_BUSY_BIT are
cleared; otherwise the byte passes (R115, R117). -/
def injectBusy (lane : Lane) (port : Fin 12) (v : Byte) (s : State) : Byte :=
  if port = s.profile.busyPort ∧ lane.main?.isSome ∧ srsBusy s.srs = false then clearBusy s.profile v else v

/-- INP_RD (R115): draw the raw byte of the port's logical input, apply the rotary transform, then the busy
injection. -/
def execInpRd (lane : Lane) (firstPort : RegionId) (off : Addr) (s : State) : Result :=
  match portOf firstPort off with
  | some port =>
    let src := DrawSource.input (s.profile.inputPortMap.get port)
    let decoded := rotaryTransform port (drawByte s src) (afterDraw s src)
    .next (answerRead decoded.2 (injectBusy lane port decoded.1 s) [])
  | none => .next (answerDrawn s (.absentPort (firstPort.toNat + off.toNat)))

/-- INP_WR (R116): no state changes, and no event is emitted. -/
def execInpWr (_lane : Lane) (_firstPort : RegionId) (_off : Addr) (_d : Byte) (s : State) : Result :=
  .next (answerDone s [])

end Sys2Proof.Machine
end

