-- ==== Sys2Proof/Machine/Memory.lean ====
section
/-! DEFINITION. Machine/Memory.lean: the memory-like handlers of spec/42_router.md: ROM, RAM, SHARED, DEFAULT, the
hard-wired flag bank and the audio chip (R80 to R86). -/

namespace Sys2Proof.Machine

/-- A read of a bank: `rdata <- RegionRead(r, off)`. Where the bank has no byte at the offset, which no access that the
address decoder builds names (R87, R88), the spec gives the byte no value: it is free (notes/assumptions/8.md). -/
def bankRead (bank : Bank) (off : Addr) (s : State) : Result :=
  if hasByte s.profile bank off.toNat then .next (answerRead s (readBank s bank off.toNat) [])
  else .next (answerDrawn s (.absentByte (bank.cellAddr off.toNat)))

/-- A write of a bank: `RegionWrite(r, off, d)`. Where the bank has no byte at the offset there is nothing to store to
(notes/assumptions/8.md). -/
def bankWrite (bank : Bank) (off : Addr) (d : Byte) (s : State) : Result :=
  if hasByte s.profile bank off.toNat then .next (answerDone (writeBank s bank off.toNat d) [])
  else .next (answerDone s [])

/-- ROM_RD (R80): the byte of the ROM image. -/
def execRomRd (_lane : Lane) (r : RegionId) (off : Addr) (s : State) : Result := bankRead (.region r) off s

/-- ROM_WR (R81): no state changes, and no event is emitted. -/
def execRomWr (_lane : Lane) (_r : RegionId) (_off : Addr) (_d : Byte) (s : State) : Result :=
  .next (answerDone s [])

/-- RAM_RD (R82). -/
def execRamRd (_lane : Lane) (r : RegionId) (off : Addr) (s : State) : Result := bankRead (.region r) off s

/-- RAM_WR (R83). -/
def execRamWr (_lane : Lane) (r : RegionId) (off : Addr) (d : Byte) (s : State) : Result :=
  bankWrite (.region r) off d s

/-- SHR_RD (R82): "RAM and SHARED behave alike". -/
def execShrRd (_lane : Lane) (r : RegionId) (off : Addr) (s : State) : Result := bankRead (.region r) off s

/-- SHR_WR (R83). -/
def execShrWr (_lane : Lane) (r : RegionId) (off : Addr) (d : Byte) (s : State) : Result :=
  bankWrite (.region r) off d s

/-- DFLT_RD (R84): `rdata <- DEF[l][a]`, each lane its own default store. -/
def execDfltRd (lane : Lane) (off : Addr) (s : State) : Result := bankRead (.dflt lane) off s

/-- DFLT_WR (R84): `DEF[l][a] <- d`. -/
def execDfltWr (lane : Lane) (off : Addr) (d : Byte) (s : State) : Result := bankWrite (.dflt lane) off d s

/-- HFLAG_RD (R85): `rdata <- 0xFF`. -/
def execHflagRd (_lane : Lane) (_off : Addr) (s : State) : Result := .next (answerRead s 0xFF [])

/-- HFLAG_WR (R85): a write changes no state. -/
def execHflagWr (_lane : Lane) (_off : Addr) (_d : Byte) (s : State) : Result := .next (answerDone s [])

/-- CHIP_RD (R86): the access is forwarded, and the byte is the external chip's, under no law. -/
def execChipRd (_lane : Lane) (dev : RegionId) (off : Addr) (s : State) : Result :=
  .next (answerRead (afterDraw s (.extRead dev off)) (drawByte s (.extRead dev off)) [.extRd dev off])

/-- CHIP_WR (R86): the access is forwarded. -/
def execChipWr (_lane : Lane) (dev : RegionId) (off : Addr) (d : Byte) (s : State) : Result :=
  .next (answerDone s [.extWr dev off d])

end Sys2Proof.Machine
end

