-- ==== Sys2Proof/Machine/Sound.lean ====
section
/-! DEFINITION. Machine/Sound.lean: the sound-command register and mailbox of spec/41_sound.md (R66 to R70). -/

namespace Sys2Proof.Machine

/-- SND_MBOX_WR (R66): post a command. -/
def execSndMboxWr (_lane : Lane) (_off : Addr) (d : Byte) (s : State) : Result :=
  .next (answerDone { s with mailbox := d, srs := srsPosted s.srs } [])

/-- SND_MBOX_RD (R67): the mailbox from before the clear; MAILBOX and all of SRS are cleared. -/
def execSndMboxRd (_lane : Lane) (_off : Addr) (s : State) : Result :=
  .next (answerRead { s with mailbox := 0, srs := 0 } s.mailbox [])

/-- SND_REG_WR (R68): `SRS <- SRS & d[7:4]`. -/
def execSndRegWr (_lane : Lane) (_off : Addr) (d : Byte) (s : State) : Result :=
  .next (answerDone { s with srs := srsMasked s.srs d } [])

/-- SND_REG_RD (R69): `rdata <- zext_8(SRS)`, no state changes. -/
def execSndRegRd (_lane : Lane) (_off : Addr) (s : State) : Result := .next (answerRead s (srsByte s.srs) [])

/-- CHIP_DONE (R70): `SRS <- SRS | (1 << c)`; no rdata and no events. -/
def execChipDone (c : BitVec 1) (s : State) : Result :=
  .next (answerDone { s with srs := srsChipDone s.srs c } [])

end Sys2Proof.Machine
end

