-- ==== Sys2Proof/Machine/Bus.lean ====
section
/-! DEFINITION. Machine/Bus.lean: the I/O multiplexer and the two CPU transactions of spec/42_router.md (R78, R79). -/

namespace Sys2Proof.Machine

/-- The I/O multiplexer: for each (OP, KIND) of a routed access, exactly one rule (R79). -/
def multiplex (r : Routed) (s : State) : Result :=
  match r.kind, r.op with
  | .rom, .rd => execRomRd r.lane r.region r.offset s
  | .rom, .wr => execRomWr r.lane r.region r.offset r.data s
  | .ram, .rd => execRamRd r.lane r.region r.offset s
  | .ram, .wr => execRamWr r.lane r.region r.offset r.data s
  | .shared, .rd => execShrRd r.lane r.region r.offset s
  | .shared, .wr => execShrWr r.lane r.region r.offset r.data s
  | .dflt, .rd => execDfltRd r.lane r.offset s
  | .dflt, .wr => execDfltWr r.lane r.offset r.data s
  | .hardflag, .rd => execHflagRd r.lane r.offset s
  | .hardflag, .wr => execHflagWr r.lane r.offset r.data s
  | .dbSelf, .rd => execDbSelfRd r.lane r.offset s
  | .dbSelf, .wr => execDbSelfWr r.lane r.offset r.data s
  | .dbPeer, .rd => execDbPeerRd r.lane r.offset s
  | .dbPeer, .wr => execDbPeerWr r.lane r.offset r.data s
  | .sndMbox, .rd => execSndMboxRd r.lane r.offset s
  | .sndMbox, .wr => execSndMboxWr r.lane r.offset r.data s
  | .sndReg, .rd => execSndRegRd r.lane r.offset s
  | .sndReg, .wr => execSndRegWr r.lane r.offset r.data s
  | .inport, .rd => execInpRd r.lane r.region r.offset s
  | .inport, .wr => execInpWr r.lane r.region r.offset r.data s
  | .ext, .rd => execChipRd r.lane r.region r.offset s
  | .ext, .wr => execChipWr r.lane r.region r.offset r.data s

/-- BUS_RD (R78): route the address, then perform the rule of the routed read. -/
def execBusRd (lane : Lane) (addr : Addr) (s : State) : Result :=
  multiplex (routeAccess s.profile .rd lane addr 0) s

/-- BUS_WR (R78): route the address, then perform the rule of the routed write. -/
def execBusWr (lane : Lane) (addr : Addr) (d : Byte) (s : State) : Result :=
  multiplex (routeAccess s.profile .wr lane addr d) s

end Sys2Proof.Machine
end

