-- ==== Sys2Proof/Machine/Tile.lean ====
section
/-! DEFINITION. Machine/Tile.lean: the tile compositor of spec/43_tile.md (R89 to R98): the walk with its dirty cache,
the pixel LUT, and the scrolled copy. -/

namespace Sys2Proof.Machine

/-- `RegionRead(VRAM, off)`: the render side reads the region directly, never through a lane's map (R89). -/
def vramByte (s : State) (off : Nat) : Byte := readBank s (.region s.profile.vram) off

/-- The raw contents `(code(i), attr(i))` of cell i (R90). -/
def cellAt (p : Profile) (vram : Nat → Byte) (i : Nat) : Byte × Byte :=
  (vram (p.tilemapBase + i), vram (p.attrBase + i))

/-- The number of cells of the grid (R90). -/
def cellCount (p : Profile) : Nat := p.gridW * p.gridH

/-- The decoded tile index of a raw cell: the bank bits add a multiple of the stride, and the sum wraps into the bitmap
table (R92). -/
def tileIndex (p : Profile) (c : Byte × Byte) : Nat :=
  (c.1.toNat + ((c.2.toNat >>> p.tbShift) &&& p.tbMask) * p.tbStride) % p.tileCount

/-- The colour selector of a raw cell (R92). -/
def tileColour (p : Profile) (c : Byte × Byte) : Nat := ((c.2.toNat >>> p.tcShift) &&& 0xF) ^^^ p.colorXor

/-- The indexed colour of pixel (py, px) of a raw cell (R93). -/
def tilePixel (p : Profile) (c : Byte × Byte) (py px : Nat) : Nat :=
  tileColour p c * p.tilePens + penAt p.tileBitmap (tileIndex p c) py px

/-- The blit of cell i into the scratch surface, opaque and at the cell's fixed place (R93). -/
def blitCell (p : Profile) (i : Nat) (c : Byte × Byte) (scratch : Surface) : Surface :=
  forPixels p.cell p.cell
    (fun py px f => putPixel f (i / p.gridW * p.cell + py) (i % p.gridW * p.cell + px) (tilePixel p c py px))
    scratch

/-- One cell of the walk: a hit leaves the cell's slot and pixels, a miss draws it and records it (R91, R93, R94). -/
def tileCell (p : Profile) (vram : Nat → Byte) (st : List DirtySlot × Surface) (i : Nat) :
    List DirtySlot × Surface :=
  if st.1.getD i none = some (cellAt p vram i) then st
  else (st.1.set i (some (cellAt p vram i)), blitCell p i (cellAt p vram i) st.2)

/-- The per-cell phase: every cell of the grid once (R95, R98). -/
def tileWalk (p : Profile) (vram : Nat → Byte) (st : List DirtySlot × Surface) : List DirtySlot × Surface :=
  (List.range (cellCount p)).foldl (tileCell p vram) st

/-- A scroll value: the low byte and, where the profile has one, the extension bit above it (R96). -/
def scrollValue (vram : Nat → Byte) (off : Nat) (ext : Option (Nat × Fin 8)) : Nat :=
  (vram off).toNat ||| (match ext with
    | some (o, b) => bitOf (vram o) b <<< 8
    | none => 0)

/-- The scrolled wrap-around copy of the scratch surface, a torus, onto the frame (R97). -/
def scrolledCopy (p : Profile) (vram : Nat → Byte) (scratch : Surface) : Surface :=
  makeSurface p.visH p.visW fun y x =>
    pixelAt scratch ((y + scrollValue vram p.scrollyOff p.scrollyExt) % (p.gridH * p.cell))
      ((x + scrollValue vram p.scrollxOff p.scrollxExt) % (p.gridW * p.cell))

/-- TILE_PASS (R98): the walk, then the copy. -/
def tilePass (s : State) : State :=
  let walked := tileWalk s.profile (vramByte s) (s.dirty, s.scratch)
  { s with dirty := walked.1, scratch := walked.2, frame := scrolledCopy s.profile (vramByte s) walked.2 }

end Sys2Proof.Machine
end

