-- ==== Sys2Proof/Machine/Sprite.lean ====
section
/-! DEFINITION. Machine/Sprite.lean: the sprite compositor of spec/44_sprite.md (R102 to R111): the entry unpacker, the
pixel blender and the draw order. -/

namespace Sys2Proof.Machine

/-- The four bytes of a sprite entry (R103). -/
structure SpriteEntry where
  y8 : Byte
  t8 : Byte
  x8 : Byte
  at8 : Byte
deriving DecidableEq, Repr

/-- Entry j of a layer's table (R103). -/
def spriteEntry (vram : Nat → Byte) (L : SpriteLayer) (j : Nat) : SpriteEntry :=
  let e := L.tableBase + 4 * j
  ⟨vram (e + 0), vram (e + 1), vram (e + 2), vram (e + 3)⟩

/-- The 9-bit coordinate of an axis: the byte with its high bit from the attribute (R104). -/
def coord9 (v8 at8 : Byte) (hi : Fin 8) : Nat := v8.toNat ||| (bitOf at8 hi <<< 8)

/-- The layout offset, kept in 9 bits, and then the edge wrap: `wrap` of R104 and R110. -/
def wrapCoord (size : Nat) (off : Int) (v9 : Nat) : Int :=
  let vo := ((v9 : Int) + off) % 512
  if vo ≥ 512 - (size : Int) then vo - 512 else vo

/-- X of an entry (R104). -/
def spriteX (L : SpriteLayer) (e : SpriteEntry) : Int := wrapCoord L.size L.xOff (coord9 e.x8 e.at8 L.xhiBit)

/-- Y of an entry (R104). -/
def spriteY (L : SpriteLayer) (e : SpriteEntry) : Int := wrapCoord L.size L.yOff (coord9 e.y8 e.at8 L.yhiBit)

/-- The tile of an entry: each bank bit adds its own stride, and the sum wraps into the bitmap table (R105). -/
def spriteTile (L : SpriteLayer) (e : SpriteEntry) : Nat :=
  (e.t8.toNat + (L.banks.map fun b => bitOf e.at8 b.1 * b.2).sum) % L.sprTiles

/-- The colour of an entry: the low COLOR_BITS bits of the attribute (R106). -/
def spriteColour (L : SpriteLayer) (e : SpriteEntry) : Nat := e.at8.toNat &&& ((1 <<< L.colorBits) - 1)

/-- The transparent pens of a frame: mode A for SHADOW true, mode B for false (R107). -/
def transparentPens (p : Profile) (shadow : Bool) : List Nat :=
  if shadow then [p.transPen] else [p.transPen, p.shadowPen]

/-- The indexed colour of an entry's pen (R108). -/
def spriteValue (L : SpriteLayer) (e : SpriteEntry) (pen : Nat) : Nat :=
  L.cbase + spriteColour L e * L.sprPens + pen

/-- The pixel blender for pixel (py, px) of an entry: a transparent pen or a place outside the visible frame draws
nothing, any other pen overwrites (R108). -/
def blendPixel (p : Profile) (pens : List Nat) (L : SpriteLayer) (e : SpriteEntry) (py px : Nat) (f : Surface) :
    Surface :=
  let pen := penAt L.bitmap (spriteTile L e) py px
  let fx := spriteX L e + (px : Int)
  let fy := spriteY L e + (py : Int)
  if pen ∈ pens then f
  else if 0 ≤ fx ∧ fx < p.visW ∧ 0 ≤ fy ∧ fy < p.visH then
    putPixel f fy.toNat fx.toNat (spriteValue L e pen)
  else f

/-- An entry drawn over the frame (R108). -/
def drawEntry (p : Profile) (pens : List Nat) (L : SpriteLayer) (e : SpriteEntry) (f : Surface) : Surface :=
  forPixels L.size L.size (blendPixel p pens L e) f

/-- SPRITE_PASS(L): every entry in table order, each over what is there (R109, R110). -/
def spritePass (p : Profile) (vram : Nat → Byte) (pens : List Nat) (L : SpriteLayer) (f : Surface) : Surface :=
  (List.range L.count).foldl (fun f j => drawEntry p pens L (spriteEntry vram L j) f) f

/-- The layers in the order of their passes: the layer-order bit, read once a frame, picks which of two is drawn first;
with one layer it is not read (R111). -/
def drawOrder (p : Profile) (vram : Nat → Byte) : List SpriteLayer :=
  match p.layers with
  | [small, big] =>
    if bitOf (vram p.layerOrder.1) p.layerOrder.2 = 0 then [big, small] else [small, big]
  | layers => layers

/-- All sprite passes of a frame (R111, R121). -/
def spritePasses (p : Profile) (vram : Nat → Byte) (pens : List Nat) (f : Surface) : Surface :=
  (drawOrder p vram).foldl (fun f L => spritePass p vram pens L f) f

end Sys2Proof.Machine
end

