-- ==== Sys2Proof/Machine/Frame.lean ====
section
/-! DEFINITION. Machine/Frame.lean: the frame sequence of spec/46_frame.md (R121). -/

namespace Sys2Proof.Machine

/-- The sprite passes over the frame that the tile pass left, in the transparency mode of SHADOW (R107, R121). -/
def spriteFrame (s : State) : State :=
  { s with frame := spritePasses s.profile (vramByte s) (transparentPens s.profile s.shadow) s.frame }

/-- FRAME (R121): flip SHADOW, tile pass, sprite passes, then `FrameOut`. -/
def execFrame (s : State) : Result :=
  .next (answerDone (spriteFrame (tilePass { s with shadow := !s.shadow })) [.frameOut])

end Sys2Proof.Machine
end

