-- ==== Sys2Proof/Machine/Reset.lean ====
section
/-! DEFINITION. Machine/Reset.lean: the machine reset of spec/70_reset_and_hazards.md (R140). -/

namespace Sys2Proof.Machine

/-- RESET (R140): the doorbell bits, SRS and MAILBOX are cleared; every other element, REFUSED too, is unchanged, and no
event is emitted. -/
def execReset (s : State) : Result :=
  .next (answerDone { s with doorA := ⟨false, false⟩, doorB := ⟨false, false⟩, srs := 0, mailbox := 0 } [])

end Sys2Proof.Machine
end

