-- ==== Sys2Proof/Machine/Dispatch.lean ====
section
/-! DEFINITION. Machine/Dispatch.lean: one arm per operation, each one call of its meaning. -/

namespace Sys2Proof.Machine

def exec (i : Instr) (s : State) : Host.Outcome State Fault Refusal :=
  match i with
  | .busRd lane addr => Sys2Proof.Machine.execBusRd lane addr s
  | .busWr lane addr data => Sys2Proof.Machine.execBusWr lane addr data s
  | .chipDone chip => Sys2Proof.Machine.execChipDone chip s
  | .frame => Sys2Proof.Machine.execFrame s
  | .reset => Sys2Proof.Machine.execReset s
  | .romRd lane region off => Sys2Proof.Machine.execRomRd lane region off s
  | .romWr lane region off data => Sys2Proof.Machine.execRomWr lane region off data s
  | .ramRd lane region off => Sys2Proof.Machine.execRamRd lane region off s
  | .ramWr lane region off data => Sys2Proof.Machine.execRamWr lane region off data s
  | .shrRd lane region off => Sys2Proof.Machine.execShrRd lane region off s
  | .shrWr lane region off data => Sys2Proof.Machine.execShrWr lane region off data s
  | .dfltRd lane off => Sys2Proof.Machine.execDfltRd lane off s
  | .dfltWr lane off data => Sys2Proof.Machine.execDfltWr lane off data s
  | .hflagRd lane off => Sys2Proof.Machine.execHflagRd lane off s
  | .hflagWr lane off data => Sys2Proof.Machine.execHflagWr lane off data s
  | .dbSelfRd lane off => Sys2Proof.Machine.execDbSelfRd lane off s
  | .dbSelfWr lane off data => Sys2Proof.Machine.execDbSelfWr lane off data s
  | .dbPeerRd lane off => Sys2Proof.Machine.execDbPeerRd lane off s
  | .dbPeerWr lane off data => Sys2Proof.Machine.execDbPeerWr lane off data s
  | .sndMboxRd lane off => Sys2Proof.Machine.execSndMboxRd lane off s
  | .sndMboxWr lane off data => Sys2Proof.Machine.execSndMboxWr lane off data s
  | .sndRegRd lane off => Sys2Proof.Machine.execSndRegRd lane off s
  | .sndRegWr lane off data => Sys2Proof.Machine.execSndRegWr lane off data s
  | .inpRd lane firstPort off => Sys2Proof.Machine.execInpRd lane firstPort off s
  | .inpWr lane firstPort off data => Sys2Proof.Machine.execInpWr lane firstPort off data s
  | .chipRd lane dev off => Sys2Proof.Machine.execChipRd lane dev off s
  | .chipWr lane dev off data => Sys2Proof.Machine.execChipWr lane dev off data s

end Sys2Proof.Machine
end

