-- ==== Sys2Proof/Machine/Step.lean ====
section
/-! DEFINITION. Machine/Step.lean: one step of the block: the next transaction in order, run to completion
(spec/00_scope.md R12, spec/20_memory.md R35). -/

namespace Sys2Proof.Machine

/-- Apply the next packet of the inbox: run the operation it decodes to, or refuse it by setting the REFUSED mark (R51,
R52, R126). A 40-bit packet that is no word of format R has no step (notes/assumptions/8.md). With no packet the block is
passive (R138). -/
def step (s : State) : Host.Outcome State Fault Refusal :=
  match s.inbox with
  | [] => .next (idle s)
  | packet :: rest =>
    match decode s.profile.addrW packet with
    | .ok i => exec i (takePacket s rest)
    | .error (.refused _) => .next (refuse (takePacket s rest))
    | .error .notRouted => .refused .notRoutedWord

/-- `s` with a table row's word at the head of the inbox, where `step` takes its next transaction. -/
def State.withFetchWord (s : State) (nbits w : Nat) : State :=
  { s with inbox := packetOfTableWord nbits w :: s.inbox }

end Sys2Proof.Machine
end

