-- ==== Sys2Proof/Machine/Assembler.lean ====
section
/-! DEFINITION. Machine/Assembler.lean: the transaction script of spec/30_encoding.md: its syntax (R54) and its
pseudo-instructions (R55). -/

namespace Sys2Proof.Machine

/-- The first entry of a lane's map of a kind (R55). -/
def firstOfKind (p : Profile) (l : Lane) (k : Kind) : Option MapEntry := (p.map l).find? (fun e => e.kind == k)

/-- A number as the 16-bit ADDR field of a transaction, if it fits the field.

DESIGN CHOICE (notes/assumptions/14.md): R8 lets ADDR_W exceed 16, and the spec is silent on a pseudo-instruction whose
address is then 2^16 or more, which no ADDR field holds. The model lets it not assemble. -/
def addrField (n : Nat) : Option Addr := if n < 2 ^ 16 then some (BitVec.ofNat 16 n) else none

/-- `start(kind, l)`: the start of that entry, as an address; none where ADDR cannot hold it (notes/assumptions/14.md). -/
def startOf (p : Profile) (l : Lane) (k : Kind) : Option Addr := (firstOfKind p l k).bind fun e => addrField e.start

/-- The address that maps to a port in the first INPORT entry of a lane's map (R55, R77), if ADDR can hold it
(notes/assumptions/14.md).

DESIGN CHOICE (notes/assumptions/15.md): R55 says "does not assemble" only where no entry of the kind exists, and is silent
where the first INPORT entry exists but has no address for the port. The model lets POLL not assemble there either, and looks
at no later entry. -/
def portAddr (p : Profile) (l : Lane) (port : Fin 12) : Option Addr :=
  match firstOfKind p l .inport with
  | some e =>
    if e.region.toNat ≤ port.val ∧ e.start + (port.val - e.region.toNat) ≤ e.stop then
      addrField (e.start + (port.val - e.region.toNat))
    else none
  | none => none

/-- The one transaction that a pseudo-instruction expands to; none where it does not assemble (R55). -/
def expand (p : Profile) : Pseudo → Option Instr
  | .arm l => (startOf p l .dbSelf).map fun a => .busWr l a 0x00
  | .notify l => (startOf p l .dbPeer).map fun a => .busRd l a
  | .post l v => (startOf p l .sndMbox).map fun a => .busWr l a v
  | .ack => (startOf p .s .sndMbox).map fun a => .busRd .s a
  | .sclr l m => (startOf p l .sndReg).map fun a => .busWr l a (m ++ 0xF#4)
  | .sstat l => (startOf p l .sndReg).map fun a => .busRd l a
  | .poll l port => (portAddr p l port).map fun a => .busRd l a

/-- The name of a lane in a script (R54). -/
def laneName : Lane → String
  | .a => "A"
  | .b => "B"
  | .s => "S"

/-- One upper-case hexadecimal digit. -/
def hexDigit (n : Nat) : Char := ("0123456789ABCDEF".toList).getD (n % 16) '0'

/-- `0x` and `digits` hexadecimal digits of a number. -/
def hexText (digits n : Nat) : String :=
  "0x" ++ String.ofList ((List.range digits).map fun i => hexDigit (n / 16 ^ (digits - 1 - i)))

/-- The script line of a transaction; a routed access exists only inside SUB323 and has none (R53, R54). -/
def scriptLine : Instr → Option String
  | .busRd l a => some ("RD " ++ laneName l ++ ", " ++ hexText 4 a.toNat)
  | .busWr l a d => some ("WR " ++ laneName l ++ ", " ++ hexText 4 a.toNat ++ ", " ++ hexText 2 d.toNat)
  | .chipDone c => some ("DONE " ++ (if c = 0 then "0" else "1"))
  | .frame => some "FRAME"
  | .reset => some "RESET"
  | .romRd _ _ _ => none
  | .romWr _ _ _ _ => none
  | .ramRd _ _ _ => none
  | .ramWr _ _ _ _ => none
  | .shrRd _ _ _ => none
  | .shrWr _ _ _ _ => none
  | .dfltRd _ _ => none
  | .dfltWr _ _ _ => none
  | .hflagRd _ _ => none
  | .hflagWr _ _ _ => none
  | .dbSelfRd _ _ => none
  | .dbSelfWr _ _ _ => none
  | .dbPeerRd _ _ => none
  | .dbPeerWr _ _ _ => none
  | .sndMboxRd _ _ => none
  | .sndMboxWr _ _ _ => none
  | .sndRegRd _ _ => none
  | .sndRegWr _ _ _ => none
  | .inpRd _ _ _ => none
  | .inpWr _ _ _ _ => none
  | .chipRd _ _ _ => none
  | .chipWr _ _ _ _ => none

end Sys2Proof.Machine
end

