-- ==== Sys2Proof/Safety.lean ====
section
/-! DEFINITION. Safety.lean: the terms the claims are stated in: what a step performs and emits, runs of transactions,
malformed words and ill-formed profiles, the invariants of the block, what a lane can reach, and pictures computed pixel by
pixel. -/

namespace Sys2Proof.Machine

/-! ### What a step performs and emits -/

/-- The operation that the next packet decodes to, if one has arrived and is not refused. -/
def nextInstr (s : State) : Option Instr :=
  match s.inbox with
  | [] => none
  | packet :: _ =>
    match decode s.profile.addrW packet with
    | .ok i => some i
    | .error _ => none

/-- The operation that a transaction performs: for BUS_RD and BUS_WR the one that the router dispatches to (R78, R79),
for any other the operation itself. -/
def performed (p : Profile) : Instr → Instr
  | .busRd l a => (routeAccess p .rd l a 0).toInstr
  | .busWr l a d => (routeAccess p .wr l a d).toInstr
  | i => i

/-- The operation that the next step performs. -/
def nextPerformed (s : State) : Option Instr := (nextInstr s).map (performed s.profile)

/-- An operation is a DB_SELF_WR by main lane `m`. -/
def isArming (m : Main) : Instr → Bool
  | .dbSelfWr l _ _ => decide (l = m.lane)
  | _ => false

/-- An operation is a DB_PEER_RD by the peer of main lane `m`, so a request for `m`. -/
def isRequestFor (m : Main) : Instr → Bool
  | .dbPeerRd l _ => decide (l = m.peer.lane)
  | _ => false

/-- The next step performs a DB_SELF_WR by `m`. -/
def stepArms (m : Main) (s : State) : Bool := (nextPerformed s).any (isArming m)

/-- The next step performs a DB_PEER_RD by the peer of `m`. -/
def stepRequests (m : Main) (s : State) : Bool := (nextPerformed s).any (isRequestFor m)

/-- The events of the latest response (R49). -/
def eventsOf (s : State) : List Event :=
  match s.out with
  | some r => r.events
  | none => []

/-- How many interrupts to `m` the latest response delivers. -/
def irqCount (m : Main) (s : State) : Nat := (eventsOf s).count (.irq m)

/-- How many interrupts, to either lane, the latest response delivers. -/
def irqTotal (s : State) : Nat := irqCount .a s + irqCount .b s

/-! ### Runs -/

/-- `n` steps, stopping where one gives no next state. -/
def run : Nat → State → Result
  | 0, s => .next s
  | n + 1, s =>
    match step s with
    | .next t => run n t
    | .fault r => .fault r
    | .refused r => .refused r

/-- The states that `n` steps pass through, from the one after the first step on. -/
def trace : Nat → State → List State
  | 0, _ => []
  | n + 1, s =>
    match step s with
    | .next t => t :: trace n t
    | .fault _ => []
    | .refused _ => []

/-- The states that `n` steps are taken from. -/
def origins : Nat → State → List State
  | 0, _ => []
  | n + 1, s =>
    s :: (match step s with
      | .next t => origins n t
      | .fault _ => []
      | .refused _ => [])

/-- The state presented with a list of packets and no other. -/
def present (s : State) (packets : List Packet) : State := { s with inbox := packets }

/-- A packet that decodes to a FRAME. -/
def isFramePacket (addrW : Nat) (packet : Packet) : Bool :=
  match decode addrW packet with
  | .ok i => decide (i = .frame)
  | .error _ => false

/-! ### Malformed words -/

/-- The eight items of R51, on the fields of a format-T word read as numbers: OP, LANE, RSV, ADDR and DATA. -/
def MalformedT (addrW : Nat) (w : BitVec 32) : Prop :=
  let op := w.toNat / 2 ^ 28
  let lane := w.toNat / 2 ^ 26 % 4
  let rsv := w.toNat / 2 ^ 24 % 4
  let addr := w.toNat / 2 ^ 8 % 2 ^ 16
  let data := w.toNat % 2 ^ 8
  5 ≤ op ∨
  ((op = 0 ∨ op = 1) ∧ lane = 3) ∨
  rsv ≠ 0 ∨
  (op = 0 ∧ data ≠ 0) ∨
  ((op = 2 ∨ op = 3 ∨ op = 4) ∧ (lane ≠ 0 ∨ addr ≠ 0)) ∨
  (op = 2 ∧ data / 2 ≠ 0) ∨
  ((op = 3 ∨ op = 4) ∧ data ≠ 0) ∨
  2 ^ addrW ≤ addr

/-- The packets that R126 refuses: a malformed format-T word (RF1 to RF5), and a 40-bit word with KIND 11 or more (RF7),
whatever its other fields are (notes/assumptions/8.md). -/
def RefusedPacket (addrW : Nat) : Packet → Prop
  | .t w => MalformedT addrW w
  | .r w => 11 ≤ w.toNat / 2 ^ 30 % 16

/-- A 40-bit word whose KIND R50 names, but which is no word of format R (R50), on its fields read as numbers: an OP
beyond 1, LANE 3, RSV not 0, DATA not 0 on a read, or REGION not 0 for a kind that has none (DEFAULT to SND_REG). -/
def NoRoutedWord (w : BitVec 40) : Prop :=
  let op := w.toNat / 2 ^ 36
  let lane := w.toNat / 2 ^ 34 % 4
  let kind := w.toNat / 2 ^ 30 % 16
  let region := w.toNat / 2 ^ 26 % 16
  let rsv := w.toNat / 2 ^ 24 % 4
  let data := w.toNat % 2 ^ 8
  kind ≤ 10 ∧
    (2 ≤ op ∨ lane = 3 ∨ rsv ≠ 0 ∨ (op = 0 ∧ data ≠ 0) ∨ (3 ≤ kind ∧ kind ≤ 8 ∧ region ≠ 0))

/-! ### Ill-formed profiles -/

/-- The parameters that R8 and R102 type `nat ≥ 1` are at least 1. -/
def InRanges (p : Profile) : Prop :=
  1 ≤ p.gridW ∧ 1 ≤ p.gridH ∧ 1 ≤ p.visW ∧ 1 ≤ p.visH ∧
  ∀ L ∈ p.layers, 1 ≤ L.count ∧ 1 ≤ L.sprTiles ∧ 1 ≤ L.sprPens

/-- A check of the well-formedness of a profile fails: one constructor for each check of R87, R101 and R114, on the
profile's own lists and numbers. -/
inductive FailsCheck (p : Profile) : Prop where
  /-- R87 check 1: region ids are unique. -/
  | sameRegionId (h : ¬(p.regions.map (fun r => r.id)).Nodup)
  /-- R87 check 1: a length is at least 1 and at most 2^ADDR_W. -/
  | regionLength (r : Region) (hr : r ∈ p.regions) (h : r.len = 0 ∨ 2 ^ p.addrW < r.len)
  /-- R87 check 2: `start ≤ end < 2^ADDR_W`. -/
  | entryRange (l : Lane) (e : MapEntry) (he : e ∈ p.map l) (h : e.stop < e.start ∨ 2 ^ p.addrW ≤ e.stop)
  /-- R87 check 3: no entry has kind DEFAULT. (That none has a KIND code of 11 or more holds by the type.) -/
  | defaultEntry (l : Lane) (e : MapEntry) (he : e ∈ p.map l) (h : e.kind = .dflt)
  /-- R87 check 4: a ROM entry names a ROM region that its lane sees. -/
  | romEntry (l : Lane) (e : MapEntry) (he : e ∈ p.map l) (hk : e.kind = .rom)
      (h : ∀ r ∈ p.regions, r.id = e.region → ¬(r.kind = .rom ∧ l ∈ r.visibleTo))
  /-- R87 check 4: a RAM or SHARED entry names a RAM region that its lane sees. -/
  | ramEntry (l : Lane) (e : MapEntry) (he : e ∈ p.map l) (hk : e.kind = .ram ∨ e.kind = .shared)
      (h : ∀ r ∈ p.regions, r.id = e.region → ¬(r.kind = .ram ∧ l ∈ r.visibleTo))
  /-- R87 check 5: a SHARED entry names a region that at least two lanes see. -/
  | sharedEntry (l : Lane) (e : MapEntry) (he : e ∈ p.map l) (hk : e.kind = .shared)
      (h : ∀ r ∈ p.regions, r.id = e.region → ∀ l₁ ∈ r.visibleTo, ∀ l₂ ∈ r.visibleTo, l₁ = l₂)
  /-- R87 check 6: no doorbell entry for lane S. -/
  | doorbellOfS (e : MapEntry) (he : e ∈ p.mapS) (h : e.kind = .dbSelf ∨ e.kind = .dbPeer)
  /-- R87 check 7: an INPORT entry reaches ports 0 to 11 only. -/
  | portRange (l : Lane) (e : MapEntry) (he : e ∈ p.map l) (hk : e.kind = .inport)
      (h : 11 < e.region.toNat + (e.stop - e.start))
  /-- R87 check 8: the region of a HARDFLAG, doorbell or sound entry is 0. -/
  | regionNotZero (l : Lane) (e : MapEntry) (he : e ∈ p.map l)
      (hk : e.kind ∈ [Kind.hardflag, .dbSelf, .dbPeer, .sndMbox, .sndReg]) (h : e.region ≠ 0)
  /-- R101 check 1: VRAM is a RAM region. -/
  | vramKind (h : ∀ r ∈ p.regions, r.id = p.vram → r.kind ≠ .ram)
  /-- R101 check 2: the tilemap and the attributes lie in VRAM. -/
  | tilemapRange (h : regionLen p p.vram < p.tilemapBase + p.gridW * p.gridH ∨
      regionLen p p.vram < p.attrBase + p.gridW * p.gridH)
  /-- R101 check 3: the scroll bytes lie in VRAM. -/
  | scrollRange (h : regionLen p p.vram ≤ p.scrollxOff ∨ regionLen p p.vram ≤ p.scrollyOff)
  /-- R101 check 3: a scroll extension that is present lies in VRAM. -/
  | scrollExtRange (o : Nat) (b : Fin 8) (he : p.scrollxExt = some (o, b) ∨ p.scrollyExt = some (o, b))
      (h : regionLen p p.vram ≤ o)
  /-- R101 check 4. -/
  | cellFormat (h : (p.cell ≠ 8 ∧ p.cell ≠ 16) ∨ 4 < p.tcShift ∨ 16 ≤ p.colorXor)
  /-- R101 check 5. -/
  | tileCounts (h : p.tileCount = 0 ∨ p.tilePens = 0)
  /-- R101 check 6: every pen of a tile is below TILE_PENS. -/
  | tilePen (t py px : Nat) (ht : t < p.tileCount) (hy : py < p.cell) (hx : px < p.cell)
      (h : p.tilePens ≤ penAt p.tileBitmap t py px)
  /-- R114 check 1: one or two layers. -/
  | layerCount (h : p.layers.length ≠ 1 ∧ p.layers.length ≠ 2)
  /-- R114 check 2. -/
  | layerFormat (L : SpriteLayer) (hL : L ∈ p.layers)
      (h : regionLen p p.vram < L.tableBase + 4 * L.count ∨ (L.size ≠ 16 ∧ L.size ≠ 32) ∨
        (L.colorBits ≠ 3 ∧ L.colorBits ≠ 4))
  /-- R114 check 3: every pen of a sprite tile is below SPR_PENS. -/
  | spritePen (L : SpriteLayer) (hL : L ∈ p.layers) (t py px : Nat) (ht : t < L.sprTiles) (hy : py < L.size)
      (hx : px < L.size) (h : L.sprPens ≤ penAt L.bitmap t py px)
  /-- R114 check 4: with two layers, the layer-order byte lies in VRAM. -/
  | layerOrderRange (hn : p.layers.length = 2) (h : regionLen p p.vram ≤ p.layerOrder.1)
  /-- R114 check 5: the shadow pen is adjacent to the transparent pen. -/
  | shadowPen (h : ((p.shadowPen : Int) - p.transPen).natAbs ≠ 1)

/-! ### Invariants -/

/-- No lane is armed while a request is queued for it (R61). -/
def DoorbellExclusive (s : State) : Prop := ∀ m, ¬((door s m).enable = true ∧ (door s m).pending = true)

/-- The memory is in its canonical form, and lists only bytes that the profile has and that a transaction can write, so
no byte of a ROM region (R19, R81). -/
def MemoryOk (s : State) : Prop :=
  Memory.wf (initByte s.profile) s.mem = true ∧
  ∀ c ∈ s.mem, ∃ bank off, c.1 = bank.cellAddr off ∧ hasByte s.profile bank off = true ∧
    writable s.profile bank = true

/-- A surface has `h` rows of `w` pixels. -/
def HasShape (f : Surface) (h w : Nat) : Prop := f.length = h ∧ ∀ row ∈ f, row.length = w

/-- SCRATCH, FRAME and DIRTY have the sizes that the profile gives them (R22, R23, R24). -/
def RenderShape (s : State) : Prop :=
  HasShape s.scratch (s.profile.gridH * s.profile.cell) (s.profile.gridW * s.profile.cell) ∧
  HasShape s.frame s.profile.visH s.profile.visW ∧
  s.dirty.length = cellCount s.profile

/-- Every DIRTY slot that is not INVALID holds the raw cell from which the cell's SCRATCH pixels were last drawn
(R100). -/
def DirtyCoherent (s : State) : Prop :=
  ∀ i < cellCount s.profile, ∀ c, s.dirty.getD i none = some c →
    ∀ py < s.profile.cell, ∀ px < s.profile.cell,
      pixelAt s.scratch (i / s.profile.gridW * s.profile.cell + py) (i % s.profile.gridW * s.profile.cell + px) =
        tilePixel s.profile c py px

/-- An ill-formed profile is marked (R87, R139): without the REFUSED mark the profile is well-formed. -/
def UnrefusedWellFormed (s : State) : Prop := s.refused = false → wfProfile s.profile = true

/-! ### What a lane can reach -/

/-- The bank that a routed access reads or writes, where its kind is a memory-like one with a store behind it. -/
def bankOf (r : Routed) : Option Bank :=
  match r.kind with
  | .rom => some (.region r.region)
  | .ram => some (.region r.region)
  | .shared => some (.region r.region)
  | .dflt => some (.dflt r.lane)
  | _ => none

/-- The bytes a lane's accesses can reach: the regions visible to it, and its own default region (R19, R20, R39). -/
def visibleBank (p : Profile) (l : Lane) : Bank → Bool
  | .region id =>
    match findRegion p id with
    | some r => r.visibleTo.contains l
    | none => false
  | .dflt l' => l' == l

/-! ### Pictures, pixel by pixel -/

/-- The picture that a full redraw of every cell from the current tilemap gives (R100). -/
def fullRedraw (p : Profile) (vram : Nat → Byte) : Surface :=
  makeSurface (p.gridH * p.cell) (p.gridW * p.cell) fun y x =>
    tilePixel p (cellAt p vram (y / p.cell * p.gridW + x / p.cell)) (y % p.cell) (x % p.cell)

/-- What an entry shows at frame pixel (y, x): nothing where it does not reach, or where its pen is transparent, and its
indexed colour otherwise (R104 to R108). -/
def entryShows (pens : List Nat) (L : SpriteLayer) (e : SpriteEntry) (y x : Nat) : Option Nat :=
  let py := (y : Int) - spriteY L e
  let px := (x : Int) - spriteX L e
  if 0 ≤ py ∧ py < L.size ∧ 0 ≤ px ∧ px < L.size then
    let pen := penAt L.bitmap (spriteTile L e) py.toNat px.toNat
    if pen ∈ pens then none else some (spriteValue L e pen)
  else none

/-- What a layer shows at frame pixel (y, x): the highest-index entry that shows anything there (R109). -/
def layerShows (vram : Nat → Byte) (pens : List Nat) (L : SpriteLayer) (y x : Nat) : Option Nat :=
  (List.range L.count).reverse.findSome? fun j => entryShows pens L (spriteEntry vram L j) y x

/-- What the sprites show at frame pixel (y, x): the layer drawn last wins (R111). -/
def spritesShow (p : Profile) (vram : Nat → Byte) (pens : List Nat) (y x : Nat) : Option Nat :=
  (drawOrder p vram).reverse.findSome? fun L => layerShows vram pens L y x

/-- The rotary decoder after a sequence of dial positions, from the power-on decoder (R120). -/
def rotaryRun (dials : List Nibble) : Rotary := dials.foldl rotaryStep ⟨0, 0⟩

end Sys2Proof.Machine
end

