-- ==== Sys2Proof/Certificates/Slice0/Obligations.lean ====
section
/-! DEFINITION. Certificates/Slice0/Obligations.lean: the statements for the provers. -/

open Sys2Proof Sys2Proof.Machine

/-! ### Steps, words and decoding -/

/-- A step runs the operation that the next packet decodes to, on the state that the packet has left. -/
def Obligations.StepRunsDecodedInstruction : Prop :=
  ∀ (s : State) (packet : Packet) (rest : List Packet) (i : Instr),
    s.inbox = packet :: rest → decode s.profile.addrW packet = .ok i →
    step s = exec i { s with inbox := rest, out := none }

/-- R51: a malformed format-T word sets REFUSED, changes no other state and gives no response; every other word is run,
as the one operation whose word it is. -/
def Obligations.MalformedWordsAndOnlyTheyAreRefused : Prop :=
  ∀ (s : State) (w : BitVec 32) (rest : List Packet), s.inbox = .t w :: rest →
    (MalformedT s.profile.addrW w → step s = .next { s with inbox := rest, out := none, refused := true }) ∧
    (¬MalformedT s.profile.addrW w →
      ∃ i, encode i = .t w ∧ step s = exec i { s with inbox := rest, out := none })

/-- From R52: the decoder builds no KIND of 11 or more, and a 40-bit word with one is refused. That it is refused whatever
its OP, LANE, RSV, REGION and DATA are is the model's choice (notes/assumptions/8.md). -/
def Obligations.ReservedKindsNeverBuiltAndRefused : Prop :=
  (∀ (p : Profile) (op : RW) (l : Lane) (a : Addr) (d : Byte),
    (wordR (routeAccess p op l a d)).toNat / 2 ^ 30 % 16 ≤ 10) ∧
  (∀ (s : State) (w : BitVec 40) (rest : List Packet), s.inbox = .r w :: rest → 11 ≤ w.toNat / 2 ^ 30 % 16 →
    step s = .next { s with inbox := rest, out := none, refused := true })

/-- The model's choice (notes/assumptions/3.md): with no packet a step only takes the earlier response away. -/
def Obligations.StepWithoutPacketIsIdle : Prop :=
  ∀ s : State, s.inbox = [] → step s = .next { s with out := none }

/-- Words written out in 30_encoding.md R54 and 95_test_vectors.md 2.1 decode to what stands beside them there. -/
def Obligations.DecoderReadsTheSpecsWords : Prop :=
  decode 16 (.t 0x10600042) = .ok (.busWr .a 0x6000 0x42) ∧
  decode 16 (.t 0x04700000) = .ok (.busRd .b 0x7000) ∧
  decode 16 (.t 0x08600000) = .ok (.busRd .s 0x6000) ∧
  decode 16 (.t 0x20000001) = .ok (.chipDone 1) ∧
  decode 16 (.t 0x30000000) = .ok .frame ∧
  decode 16 (.t 0x40000000) = .ok .reset ∧
  decode 16 (.r 0x0084001000) = .ok (.shrRd .a 1 0x010) ∧
  decode 16 (.r 0x1540000000) = .ok (.dbSelfWr .b 0 0) ∧
  decode 16 (.r 0x01C0000000) = .ok (.sndMboxRd .a 0) ∧
  decode 16 (.r 0x0240000300) = .ok (.inpRd .a 0 3) ∧
  decode 16 (.r 0x1A80000107) = .ok (.chipWr .s 0 1 0x07) ∧
  decode 16 (.r 0x00C0F80000) = .ok (.dfltRd .a 0xF800) ∧
  decode 16 (.t 0x50000000) = .error (.refused .reservedOp) ∧
  decode 16 (.t 0x0C000000) = .error (.refused .reservedLane) ∧
  decode 16 (.t 0x01000000) = .error (.refused .reservedField) ∧
  decode 16 (.t 0x20000002) = .error (.refused .fieldNotZero) ∧
  decode 15 (.t 0x00800000) = .error (.refused .addressTooWide)

/-- Every well-formed operation, at every value of its operands, is what its word decodes to. -/
def Obligations.DecodeOfEncodeIsTheInstruction : Prop :=
  ∀ (addrW : Nat) (i : Instr), i.wellFormed addrW = true → decode addrW (encode i) = .ok i

/-- A word that decodes is the one word of a well-formed operation. For format R this rests on the model's choice
(notes/assumptions/8.md) to give no operation to a 40-bit word with OP 2 or more, LANE 3, RSV not 0, DATA not 0 on a read
or REGION not 0 for a kind that has none. -/
def Obligations.DecodedWordsAreCanonical : Prop :=
  ∀ (addrW : Nat) (packet : Packet) (i : Instr), decode addrW packet = .ok i →
    i.wellFormed addrW = true ∧ encode i = packet

/-- The pseudo-instructions of programs P1 and P2 (95_test_vectors.md) expand, under EX, to the words written there. -/
def Obligations.PseudoInstructionsExpandToTheSpecsWords : Prop :=
  (expand exProfile (.notify .a)).map encode = some (.t 0x00F00100) ∧
  (expand exProfile (.notify .b)).map encode = some (.t 0x04700100) ∧
  (expand exProfile (.arm .a)).map encode = some (.t 0x10F00000) ∧
  (expand exProfile (.arm .b)).map encode = some (.t 0x14700000) ∧
  (expand exProfile (.post .a 0x42)).map encode = some (.t 0x10600042) ∧
  (expand exProfile .ack).map encode = some (.t 0x08600000) ∧
  (expand exProfile (.sclr .s 0xE)).map encode = some (.t 0x186001EF) ∧
  (expand exProfile (.sstat .s)).map encode = some (.t 0x08600100) ∧
  (expand exProfile (.poll .a 1)).map encode = some (.t 0x00D00100) ∧
  expand exProfile (.arm .s) = none

/-! ### The router -/

/-- R76, R77: the first entry in list order that claims the address decides kind, region and offset; if none claims it,
the kind is DEFAULT and the offset the address. -/
def Obligations.FirstClaimingEntryRoutes : Prop :=
  (∀ (p : Profile) (l : Lane) (a : Addr) (before after : List MapEntry) (e : MapEntry),
    p.map l = before ++ e :: after →
    (∀ e' ∈ before, ¬((e'.kind = .hardflag → p.hardFlagsEn = true) ∧ e'.start ≤ a.toNat ∧ a.toNat ≤ e'.stop)) →
    ((e.kind = .hardflag → p.hardFlagsEn = true) ∧ e.start ≤ a.toNat ∧ a.toNat ≤ e.stop) →
    (route p l a).1 = e.kind ∧ (route p l a).2.1 = e.region ∧
    (route p l a).2.2.toNat =
      if e.kind = .rom ∨ e.kind = .ram ∨ e.kind = .shared then (a.toNat - e.start) % regionLen p e.region
      else a.toNat - e.start) ∧
  (∀ (p : Profile) (l : Lane) (a : Addr),
    (∀ e ∈ p.map l, ¬((e.kind = .hardflag → p.hardFlagsEn = true) ∧ e.start ≤ a.toNat ∧ a.toNat ≤ e.stop)) →
    route p l a = (.dflt, 0, a))

/-- R78: under a well-formed profile a BUS_RD or BUS_WR of an ADDR_W-bit address does what the format-R word built from
its route does. -/
def Obligations.BusAccessRunsItsRoutedWord : Prop :=
  ∀ (s : State) (l : Lane) (a : Addr) (d : Byte), wfProfile s.profile = true → a.toNat < 2 ^ s.profile.addrW →
    (∃ i, decode s.profile.addrW (.r (wordR ⟨.rd, l, (route s.profile l a).1, (route s.profile l a).2.1,
        (route s.profile l a).2.2, 0⟩)) = .ok i ∧ exec (.busRd l a) s = exec i s) ∧
    (∃ i, decode s.profile.addrW (.r (wordR ⟨.wr, l, (route s.profile l a).1, (route s.profile l a).2.1,
        (route s.profile l a).2.2, d⟩)) = .ok i ∧ exec (.busWr l a d) s = exec i s)

/-- R88: under a well-formed profile every access to an ADDR_W-bit address completes, unrefused: a read with a byte, a
write with none. -/
def Obligations.EveryAccessCompletes : Prop :=
  ∀ (s : State) (l : Lane) (a : Addr) (d : Byte), wfProfile s.profile = true → a.toNat < 2 ^ s.profile.addrW →
    (∃ t v ev, exec (.busRd l a) s = .next t ∧ t.refused = s.refused ∧ t.out = some ⟨some v, ev⟩) ∧
    (∃ t ev, exec (.busWr l a d) s = .next t ∧ t.refused = s.refused ∧ t.out = some ⟨none, ev⟩)

/-! ### Memory-like handlers -/

/-- From R80 and R82: a ROM_RD, RAM_RD or SHR_RD of a byte that exists returns that byte of the region, whichever the lane,
and changes nothing. That this holds too where the region is of the other kind than the access (a RAM_RD or SHR_RD of a ROM
region, a ROM_RD of a RAM region) is the model's deduction (notes/assumptions/12.md). -/
def Obligations.RegionReadsReturnTheByte : Prop :=
  ∀ (s : State) (l : Lane) (r : RegionId) (off : Addr), hasByte s.profile (.region r) off.toNat = true →
    let t : State := { s with out := some ⟨some (readBank s (.region r) off.toNat), []⟩ }
    exec (.romRd l r off) s = .next t ∧ exec (.ramRd l r off) s = .next t ∧ exec (.shrRd l r off) s = .next t

/-- R80: a ROM_RD of a byte that exists in a ROM region returns the ROM image's byte, in every state whose memory lists
only writable bytes. -/
def Obligations.RomReadsReturnTheImage : Prop :=
  ∀ (s : State) (l : Lane) (r : RegionId) (off : Addr) (rec : Region), MemoryOk s →
    findRegion s.profile r = some rec → rec.kind = .rom → off.toNat < rec.len →
    exec (.romRd l r off) s =
      .next { s with out := some ⟨some (initByte s.profile ((Bank.region r).cellAddr off.toNat)), []⟩ }

/-- From R81: a ROM_WR changes no state and emits no event. That the same holds of a RAM_WR or SHR_WR word that names a byte
of a ROM region is the model's deduction from R11's RegionWrite (notes/assumptions/12.md). -/
def Obligations.RomWritesAreIgnored : Prop :=
  (∀ (s : State) (l : Lane) (r : RegionId) (off : Addr) (d : Byte),
    exec (.romWr l r off d) s = .next { s with out := some ⟨none, []⟩ }) ∧
  (∀ (s : State) (l : Lane) (r : RegionId) (off : Addr) (d : Byte), hasByte s.profile (.region r) off.toNat = true →
    writable s.profile (.region r) = false →
    exec (.ramWr l r off d) s = .next { s with out := some ⟨none, []⟩ } ∧
    exec (.shrWr l r off d) s = .next { s with out := some ⟨none, []⟩ })

/-- R83: a RAM_WR or SHR_WR of a byte of a RAM region stores the data there; every other byte of every bank, and every
other state element, is unchanged. -/
def Obligations.RegionWritesStoreTheByte : Prop :=
  ∀ (s : State) (l : Lane) (r : RegionId) (off : Addr) (d : Byte), MemoryOk s →
    hasByte s.profile (.region r) off.toNat = true → writable s.profile (.region r) = true →
    ∃ t : State, exec (.ramWr l r off d) s = .next t ∧ exec (.shrWr l r off d) s = .next t ∧
      t = { s with mem := t.mem, out := some ⟨none, []⟩ } ∧
      ∀ (bank : Bank) (o : Nat), readBank t bank o =
        if bank = .region r ∧ o = off.toNat then d else readBank s bank o

/-- R84: a DFLT_RD returns the byte of the lane's own default store and changes nothing; a DFLT_WR stores the data
there, and every other byte, of the other lanes' stores too, and every other state element is unchanged. -/
def Obligations.DefaultStoreReadsAndWrites : Prop :=
  ∀ (s : State) (l : Lane) (off : Addr) (d : Byte), off.toNat < 2 ^ s.profile.addrW →
    exec (.dfltRd l off) s = .next { s with out := some ⟨some (readBank s (.dflt l) off.toNat), []⟩ } ∧
    (MemoryOk s → ∃ t : State, exec (.dfltWr l off d) s = .next t ∧
      t = { s with mem := t.mem, out := some ⟨none, []⟩ } ∧
      ∀ (bank : Bank) (o : Nat), readBank t bank o =
        if bank = .dflt l ∧ o = off.toNat then d else readBank s bank o)

/-- The model's choice (notes/assumptions/8.md): a routed access that the address decoder never builds, because its bank
has no byte at the offset, its port is beyond the 12 or it is a doorbell access of lane S, changes no state element of the
block, the REFUSED mark included: a write does nothing, a read of an absent byte or port returns a byte under no law, and a
doorbell read of lane S the sentinel. -/
def Obligations.AccessesBeyondTheRouterChangeNothing : Prop :=
  (∀ (s : State) (l : Lane) (r : RegionId) (off : Addr) (d : Byte), regionLen s.profile r ≤ off.toNat →
    (∃ t : State, exec (.romRd l r off) s = .next t ∧ exec (.ramRd l r off) s = .next t ∧
      exec (.shrRd l r off) s = .next t ∧
      t = { s with answers := t.answers, nDraws := t.nDraws,
                   out := some ⟨some (drawByte s (.absentByte ((Bank.region r).cellAddr off.toNat))), []⟩ }) ∧
    exec (.ramWr l r off d) s = .next { s with out := some ⟨none, []⟩ } ∧
    exec (.shrWr l r off d) s = .next { s with out := some ⟨none, []⟩ }) ∧
  (∀ (s : State) (l : Lane) (off : Addr) (d : Byte), 2 ^ s.profile.addrW ≤ off.toNat →
    (∃ t : State, exec (.dfltRd l off) s = .next t ∧
      t = { s with answers := t.answers, nDraws := t.nDraws,
                   out := some ⟨some (drawByte s (.absentByte ((Bank.dflt l).cellAddr off.toNat))), []⟩ }) ∧
    exec (.dfltWr l off d) s = .next { s with out := some ⟨none, []⟩ }) ∧
  (∀ (s : State) (l : Lane) (p0 : RegionId) (off : Addr) (d : Byte), 12 ≤ p0.toNat + off.toNat →
    (∃ t : State, exec (.inpRd l p0 off) s = .next t ∧
      t = { s with answers := t.answers, nDraws := t.nDraws,
                   out := some ⟨some (drawByte s (.absentPort (p0.toNat + off.toNat))), []⟩ }) ∧
    exec (.inpWr l p0 off d) s = .next { s with out := some ⟨none, []⟩ }) ∧
  (∀ (s : State) (off : Addr) (d : Byte),
    exec (.dbSelfRd .s off) s = .next { s with out := some ⟨some 0xFF, []⟩ } ∧
    exec (.dbPeerRd .s off) s = .next { s with out := some ⟨some 0xFF, []⟩ } ∧
    exec (.dbSelfWr .s off d) s = .next { s with out := some ⟨none, []⟩ } ∧
    exec (.dbPeerWr .s off d) s = .next { s with out := some ⟨none, []⟩ })

/-- From R85: the hard-wired flag bank reads 0xFF, a write to it changes nothing, and the decoder routes to it only while
HARD_FLAGS_EN is true. That a directly built word of the kind reads and writes alike while HARD_FLAGS_EN is false is the
model's deduction (notes/assumptions/12.md). -/
def Obligations.HardFlagsReadOnesWhenPresent : Prop :=
  (∀ (s : State) (l : Lane) (off : Addr) (d : Byte),
    exec (.hflagRd l off) s = .next { s with out := some ⟨some 0xFF, []⟩ } ∧
    exec (.hflagWr l off d) s = .next { s with out := some ⟨none, []⟩ }) ∧
  (∀ (p : Profile) (l : Lane) (a : Addr), (route p l a).1 = .hardflag → p.hardFlagsEn = true)

/-- From R86: a CHIP_RD emits ExtRd and returns the byte drawn from the chip's register, and a CHIP_WR emits ExtWr; no state
element of the block changes. That a draw takes the outside's answer, and uses it up, where one is listed first is the model's
choice (notes/assumptions/4.md). -/
def Obligations.ChipAccessesAreForwarded : Prop :=
  (∀ (s : State) (l : Lane) (dev : RegionId) (off : Addr), ∃ t : State,
    exec (.chipRd l dev off) s = .next t ∧
    t = { s with answers := t.answers, nDraws := t.nDraws,
                 out := some ⟨some (drawByte s (.extRead dev off)), [.extRd dev off]⟩ } ∧
    (∀ w rest, s.answers = (.extRead dev off, w) :: rest →
      drawByte s (.extRead dev off) = w ∧ t.answers = rest)) ∧
  (∀ (s : State) (l : Lane) (dev : RegionId) (off : Addr) (d : Byte),
    exec (.chipWr l dev off d) s = .next { s with out := some ⟨none, [.extWr dev off d]⟩ })

/-! ### Doorbell -/

/-- R57: an arming write with PENDING clear sets ENABLE; with PENDING set it clears PENDING, delivers one interrupt to
the writer and leaves ENABLE alone. The data has no effect, and the peer's bits are not touched. -/
def Obligations.ArmingWriteArmsOrTakesTheRequest : Prop :=
  ∀ (s : State) (m : Main) (off : Addr) (d : Byte), ∃ t : State, exec (.dbSelfWr m.lane off d) s = .next t ∧
    t = { s with doorA := t.doorA, doorB := t.doorB, out := t.out } ∧ door t m.peer = door s m.peer ∧
    ((door s m).pending = true → door t m = ⟨(door s m).enable, false⟩ ∧ t.out = some ⟨none, [.irq m]⟩) ∧
    ((door s m).pending = false → door t m = ⟨true, false⟩ ∧ t.out = some ⟨none, []⟩)

/-- R58: a notify read of an armed peer clears its ENABLE and delivers one interrupt to it; of any other peer it sets
PENDING. The byte is 0xFF in both cases, and the reader's own bits are not touched. -/
def Obligations.NotifyReadInterruptsOrQueues : Prop :=
  ∀ (s : State) (m : Main) (off : Addr), ∃ t : State, exec (.dbPeerRd m.lane off) s = .next t ∧
    t = { s with doorA := t.doorA, doorB := t.doorB, out := t.out } ∧ door t m = door s m ∧
    ((door s m.peer).enable = true →
      door t m.peer = ⟨false, (door s m.peer).pending⟩ ∧ t.out = some ⟨some 0xFF, [.irq m.peer]⟩) ∧
    ((door s m.peer).enable = false → door t m.peer = ⟨false, true⟩ ∧ t.out = some ⟨some 0xFF, []⟩)

/-- R59, R60: a read of the own doorbell offset returns 0xFF and a write to the peer-notify offset does nothing; neither
changes any state. -/
def Obligations.OtherDoorbellAccessesDoNothing : Prop :=
  ∀ (s : State) (m : Main) (off : Addr) (d : Byte),
    exec (.dbSelfRd m.lane off) s = .next { s with out := some ⟨some 0xFF, []⟩ } ∧
    exec (.dbPeerWr m.lane off d) s = .next { s with out := some ⟨none, []⟩ }

/-- R63: the transition table of a lane's DoorbellState, written as the pair (PENDING, ENABLE), with the row for 11; and
no DB_SELF_RD, DB_PEER_WR or access by lane S changes any row. -/
def Obligations.DoorbellTransitionTable : Prop :=
  (∀ (s : State) (m : Main) (off : Addr) (d : Byte), ∃ t u : State,
    exec (.dbSelfWr m.lane off d) s = .next t ∧ exec (.dbPeerRd m.peer.lane off) s = .next u ∧
    (((door s m).pending, (door s m).enable) = (false, false) →
      ((door t m).pending, (door t m).enable) = (false, true) ∧ irqCount m t = 0 ∧
      ((door u m).pending, (door u m).enable) = (true, false) ∧ irqCount m u = 0) ∧
    (((door s m).pending, (door s m).enable) = (false, true) →
      ((door t m).pending, (door t m).enable) = (false, true) ∧ irqCount m t = 0 ∧
      ((door u m).pending, (door u m).enable) = (false, false) ∧ irqCount m u = 1) ∧
    (((door s m).pending, (door s m).enable) = (true, false) →
      ((door t m).pending, (door t m).enable) = (false, false) ∧ irqCount m t = 1 ∧
      ((door u m).pending, (door u m).enable) = (true, false) ∧ irqCount m u = 0) ∧
    (((door s m).pending, (door s m).enable) = (true, true) →
      ((door t m).pending, (door t m).enable) = (false, true) ∧ irqCount m t = 1 ∧
      ((door u m).pending, (door u m).enable) = (true, false) ∧ irqCount m u = 1)) ∧
  (∀ (s t : State) (m : Main) (l : Lane) (a off : Addr) (d : Byte),
    exec (.dbSelfRd l off) s = .next t ∨ exec (.dbPeerWr l off d) s = .next t ∨ exec (.busRd .s a) s = .next t ∨
      exec (.busWr .s a d) s = .next t → door t m = door s m)

/-- From R16: the doorbell bits of a lane change only in a step that performs the lane's DB_SELF_WR, its peer's DB_PEER_RD or
a RESET; and no read returns them: the byte of a read is the same whatever the doorbell bits are. The two reads share the
outside's answers, and where those run out the model's free draws, equal in both by the model's choice
(notes/assumptions/4.md). -/
def Obligations.DoorbellBitsChangeOnlyByDoorbellsAndAreNeverRead : Prop :=
  (∀ (s t : State) (m : Main), step s = .next t → door t m ≠ door s m →
    stepArms m s = true ∨ stepRequests m s = true ∨ nextInstr s = some .reset) ∧
  (∀ (s : State) (l : Lane) (a : Addr) (doorA' doorB' : Doorbell), ∃ t t',
    exec (.busRd l a) s = .next t ∧ exec (.busRd l a) { s with doorA := doorA', doorB := doorB' } = .next t' ∧
    t'.out.map (fun r => r.rdata) = t.out.map (fun r => r.rdata))

/-- R61: no lane is armed with a request queued for it at power-on, and no step makes one so. -/
def Obligations.DoorbellExclusionIsKept : Prop :=
  (∀ p : Profile, DoorbellExclusive (State.powerOn p)) ∧
  (∀ s t : State, DoorbellExclusive s → step s = .next t → DoorbellExclusive t)

/-- R62: from a lane that is not armed, any run of steps without an arming write by the lane or a RESET and with at least
one request for it ends with exactly PENDING set and delivers it nothing; its next arming write delivers exactly one
interrupt. -/
def Obligations.RequestsCoalesceToOneInterrupt : Prop :=
  ∀ (m : Main) (n : Nat) (s t : State), (door s m).enable = false →
    run n s = .next t →
    (∀ u ∈ origins n s, stepArms m u = false ∧ nextInstr u ≠ some .reset) →
    (∃ u ∈ origins n s, stepRequests m u = true) →
    door t m = ⟨false, true⟩ ∧ (∀ u ∈ trace n s, irqCount m u = 0) ∧
    (stepArms m t = true → ∃ u, step t = .next u ∧ irqCount m u = 1 ∧ door u m = ⟨false, false⟩)

/-! ### Interrupts -/

/-- R127: a step delivers an interrupt to a lane exactly when it performs a DB_PEER_RD by the peer while the lane is
armed, or a DB_SELF_WR by the lane while a request is queued for it; the delivery clears the bit that caused it. -/
def Obligations.InterruptsHaveExactlyTwoSources : Prop :=
  ∀ (s t : State) (m : Main), step s = .next t →
    (irqCount m t = 1 ↔ (stepRequests m s = true ∧ (door s m).enable = true) ∨
      (stepArms m s = true ∧ (door s m).pending = true)) ∧
    (stepRequests m s = true → (door s m).enable = true → (door t m).enable = false) ∧
    (stepArms m s = true → (door s m).pending = true → (door t m).pending = false)

/-- R128: one transaction emits at most one interrupt. -/
def Obligations.AtMostOneInterruptPerStep : Prop :=
  ∀ s t : State, step s = .next t → irqTotal t ≤ 1

/-- R129: every delivery leaves the lane's two bits clear, and in a run that starts with the lane not armed no interrupt
reaches it before an arming write of its own. -/
def Obligations.NoInterruptWithoutRearming : Prop :=
  (∀ (m : Main) (s t : State), DoorbellExclusive s → step s = .next t → irqCount m t = 1 →
    door t m = ⟨false, false⟩) ∧
  (∀ (m : Main) (n : Nat) (s : State), (door s m).enable = false →
    (∀ u ∈ origins n s, stepArms m u = false) → ∀ u ∈ trace n s, irqCount m u = 0)

/-! ### Sound -/

/-- R66: posting a command stores it in MAILBOX and sets SRS bits 2 and 3; bits 0 and 1 stay. -/
def Obligations.PostStoresTheCommand : Prop :=
  ∀ (s : State) (l : Lane) (off : Addr) (d : Byte), ∃ t : State, exec (.sndMboxWr l off d) s = .next t ∧
    t = { s with mailbox := d, srs := t.srs, out := some ⟨none, []⟩ } ∧
    t.srs.getLsbD 0 = s.srs.getLsbD 0 ∧ t.srs.getLsbD 1 = s.srs.getLsbD 1 ∧
    t.srs.getLsbD 2 = true ∧ t.srs.getLsbD 3 = true

/-- R67: a mailbox read returns the command from before, and clears MAILBOX and all of SRS. -/
def Obligations.MailboxReadAcknowledges : Prop :=
  ∀ (s : State) (l : Lane) (off : Addr),
    exec (.sndMboxRd l off) s = .next { s with mailbox := 0, srs := 0, out := some ⟨some s.mailbox, []⟩ }

/-- R68: a status write keeps bit i of SRS where data bit 4 + i is 1 and clears it where it is 0. -/
def Obligations.StatusWriteMasks : Prop :=
  ∀ (s : State) (l : Lane) (off : Addr) (d : Byte), ∃ t : State, exec (.sndRegWr l off d) s = .next t ∧
    t = { s with srs := t.srs, out := some ⟨none, []⟩ } ∧
    ∀ i < 4, t.srs.getLsbD i = (s.srs.getLsbD i && d.getLsbD (4 + i))

/-- R69: a status read returns SRS zero-extended and changes nothing. -/
def Obligations.StatusReadIsZeroExtended : Prop :=
  ∀ (s : State) (l : Lane) (off : Addr), ∃ v : Byte, v.toNat = s.srs.toNat ∧
    exec (.sndRegRd l off) s = .next { s with out := some ⟨some v, []⟩ }

/-- R70: a chip completion sets SRS bit c and no other, and gives neither byte nor event. -/
def Obligations.ChipCompletionSetsItsBit : Prop :=
  ∀ (s : State) (c : BitVec 1), ∃ t : State, exec (.chipDone c) s = .next t ∧
    t = { s with srs := t.srs, out := some ⟨none, []⟩ } ∧
    ∀ i < 4, t.srs.getLsbD i = (s.srs.getLsbD i || decide (i = c.toNat))

/-! ### Input ports -/

/-- R115: an input read draws the byte of the port's logical input, applies the port's rotary transform, which on a WAY12
port moves that player's decoder and nothing else, and then the busy injection. -/
def Obligations.InputReadPipeline : Prop :=
  ∀ (s : State) (l : Lane) (p0 : RegionId) (off : Addr) (port : Fin 12), port.val = p0.toNat + off.toNat →
    ∃ (t : State) (raw v : Byte), exec (.inpRd l p0 off) s = .next t ∧
      raw = drawByte s (.input (s.profile.inputPortMap.get port)) ∧
      t = { s with rot0 := t.rot0, rot1 := t.rot1, answers := t.answers, nDraws := t.nDraws, out := t.out } ∧
      (s.profile.rotaryMode.get port = .none → v = raw ∧ ∀ q, rotary t q = rotary s q) ∧
      (s.profile.rotaryMode.get port = .way8 → v = rot8 s.profile raw ∧ ∀ q, rotary t q = rotary s q) ∧
      (∀ q, s.profile.rotaryMode.get port = .way12 q →
        rotary t q = rotaryStep (rotary s q) (dial raw) ∧ v = rot12Byte s.profile (rotary t q) raw ∧
        ∀ q', q' ≠ q → rotary t q' = rotary s q') ∧
      t.out = some ⟨some (if port = s.profile.busyPort ∧ l ≠ .s ∧ s.srs.getLsbD 2 = false
        then v &&& ~~~s.profile.soundBusyBit else v), []⟩

/-- R117: on a port with no rotary transform, a main-lane read of BUSY_PORT while SRS bit 2 is 0 returns the raw byte with
exactly the bits of SOUND_BUSY_BIT cleared; any other read returns the raw byte. -/
def Obligations.BusyInjectionClearsExactlyTheMask : Prop :=
  ∀ (s : State) (l : Lane) (p0 : RegionId) (off : Addr) (port : Fin 12) (raw : Byte)
    (rest : List (DrawSource × Byte)), port.val = p0.toNat + off.toNat →
    s.profile.rotaryMode.get port = .none →
    s.answers = (.input (s.profile.inputPortMap.get port), raw) :: rest →
    ∃ (t : State) (v : Byte), exec (.inpRd l p0 off) s = .next t ∧ t.out = some ⟨some v, []⟩ ∧
      (port = s.profile.busyPort → l ≠ .s → s.srs.getLsbD 2 = false →
        ∀ i < 8, v.getLsbD i = (raw.getLsbD i && !s.profile.soundBusyBit.getLsbD i)) ∧
      (port ≠ s.profile.busyPort ∨ l = .s ∨ s.srs.getLsbD 2 = true → v = raw)

/-- R118: the 8-way decode puts the table's code for half the dial position in the upper nibble and keeps the lower. -/
def Obligations.EightWayDecode : Prop :=
  ∀ (p : Profile) (raw : Byte) (k : Fin 8), k.val = raw.toNat / 16 / 2 →
    (rot8 p raw).toNat = 16 * (p.rot8Table.get k).toNat + raw.toNat % 16

/-- From R119's pseudocode: a poll moves the counter, modulo 12, by the one step in [-8, 8) that agrees with the dial's movement modulo 16,
remembers the dial position, and returns the table's code for the new count over the raw low nibble. That the dial position
is the upper nibble, against R119's own example, is the model's deduction (notes/assumptions/10.md). -/
def Obligations.TwelveWayDecode : Prop :=
  ∀ (p : Profile) (r : Rotary) (raw : Byte), ∃ delta : Int,
    -8 ≤ delta ∧ delta < 8 ∧ (delta - ((raw.toNat / 16 : Nat) - (r.prev.toNat : Int))) % 16 = 0 ∧
    (rotaryStep r (dial raw)).prev.toNat = raw.toNat / 16 ∧
    ((rotaryStep r (dial raw)).cnt.val : Int) = ((r.cnt.val : Int) + delta) % 12 ∧
    (rot12Byte p (rotaryStep r (dial raw)) raw).toNat =
      16 * (p.rot12Table.get (rotaryStep r (dial raw)).cnt).toNat + raw.toNat % 16

/-- R120: a smooth rotation of any length from power-on counts up by one a poll and wraps exactly at the 12-boundary. -/
def Obligations.SmoothRotationCountsUp : Prop :=
  ∀ n : Nat, (rotaryRun ((List.range (n + 1)).map (BitVec.ofNat 4))).cnt.val = n % 12 ∧
    (rotaryRun ((List.range (n + 1)).map (BitVec.ofNat 4))).prev.toNat = n % 16 ∧
    dialDelta 0 0 = 0 ∧ dialDelta (BitVec.ofNat 4 (n + 1)) (BitVec.ofNat 4 n) = 1

/-- R116: an input-port write changes no state and emits no event. -/
def Obligations.InputWritesAreIgnored : Prop :=
  ∀ (s : State) (l : Lane) (p0 : RegionId) (off : Addr) (d : Byte), p0.toNat + off.toNat < 12 →
    exec (.inpWr l p0 off d) s = .next { s with out := some ⟨none, []⟩ }

/-! ### Frames -/

/-- From R121: a FRAME completes, flips SHADOW, emits FrameOut, and writes nothing but SHADOW, DIRTY, SCRATCH and FRAME. -/
def Obligations.FrameWritesOnlyRenderState : Prop :=
  ∀ s : State, ∃ t : State, exec .frame s = .next t ∧
    t = { s with shadow := !s.shadow, dirty := t.dirty, scratch := t.scratch, frame := t.frame,
                 out := some ⟨none, [.frameOut]⟩ }

/-- R94: after a FRAME every DIRTY slot holds the raw code and attribute bytes of its cell. -/
def Obligations.FrameBringsDirtyUpToDate : Prop :=
  ∀ s : State, RenderShape s → ∃ t : State, exec .frame s = .next t ∧
    ∀ i < s.profile.gridW * s.profile.gridH, t.dirty[i]? = some (some
      (readBank s (.region s.profile.vram) (s.profile.tilemapBase + i),
       readBank s (.region s.profile.vram) (s.profile.attrBase + i)))

/-- R99: if no tilemap byte changes between two FRAMEs, whatever else does, every cell of the second is a hit and it
leaves DIRTY and SCRATCH as they were. -/
def Obligations.UnchangedTilemapIsNotRedrawn : Prop :=
  ∀ s t u : State, RenderShape s → exec .frame s = .next t →
    u.profile = t.profile → u.dirty = t.dirty → u.scratch = t.scratch →
    (∀ i < cellCount s.profile, cellAt s.profile (vramByte u) i = cellAt s.profile (vramByte s) i) →
    (∀ i < cellCount u.profile, u.dirty.getD i none = some (cellAt u.profile (vramByte u) i)) ∧
    ∃ v, exec .frame u = .next v ∧ v.dirty = u.dirty ∧ v.scratch = u.scratch

/-- R100: after any FRAME, SCRATCH is what a full redraw of every cell from the current tilemap would give. -/
def Obligations.DirtyCacheNeverChangesTheOutput : Prop :=
  ∀ s : State, RenderShape s → DirtyCoherent s → ∃ t : State, exec .frame s = .next t ∧
    t.scratch = fullRedraw s.profile (vramByte s)

/-- R96, R97, R107, R108, R109, R111, R112: each visible pixel of FRAME is what the topmost sprite shows there, in the
transparency mode of the flipped SHADOW and the order of the layer bit, and under no sprite the pixel of the SCRATCH torus at
the place that the scroll values give. -/
def Obligations.FramePixelsAreTopmostSpriteOverScrolledTiles : Prop :=
  ∀ s : State, ∃ t : State, exec .frame s = .next t ∧
    ∀ y < s.profile.visH, ∀ x < s.profile.visW,
      pixelAt t.frame y x =
        (spritesShow s.profile (vramByte s)
          (if s.shadow = false then [s.profile.transPen] else [s.profile.transPen, s.profile.shadowPen]) y x).getD
        (pixelAt t.scratch
          ((y + ((vramByte s s.profile.scrollyOff).toNat +
            (match s.profile.scrollyExt with
              | some (o, b) => 256 * bitOf (vramByte s o) b
              | none => 0))) % (s.profile.gridH * s.profile.cell))
          ((x + ((vramByte s s.profile.scrollxOff).toNat +
            (match s.profile.scrollxExt with
              | some (o, b) => 256 * bitOf (vramByte s o) b
              | none => 0))) % (s.profile.gridW * s.profile.cell)))

/-- R104: a sprite coordinate is the 9-bit value plus the layout offset, up to a multiple of 512, in
[-SIZE, 512 - SIZE). -/
def Obligations.SpriteCoordinatesWrapAtTheEdge : Prop :=
  ∀ (L : SpriteLayer) (e : SpriteEntry), L.size ≤ 512 →
    (-(L.size : Int) ≤ spriteX L e ∧ spriteX L e < 512 - L.size ∧
      (spriteX L e - (e.x8.toNat + 256 * bitOf e.at8 L.xhiBit + L.xOff)) % 512 = 0) ∧
    (-(L.size : Int) ≤ spriteY L e ∧ spriteY L e < 512 - L.size ∧
      (spriteY L e - (e.y8.toNat + 256 * bitOf e.at8 L.yhiBit + L.yOff)) % 512 = 0)

/-- R92, R103, R105, R106, with the fetch of R90 and the pixel values of R93 and R108: where the bytes of a tilemap cell and
of a sprite entry stand, their bank, colour and tile fields, and the indexed colour that they give a pixel, as arithmetic on
the bytes. -/
def Obligations.TileAndSpriteFieldsAreRead : Prop :=
  (∀ (p : Profile) (code attr : Byte), tileIndex p (code, attr) =
    (code.toNat + (attr.toNat / 2 ^ p.tbShift &&& p.tbMask) * p.tbStride) % p.tileCount) ∧
  (∀ (p : Profile) (code attr : Byte), tileColour p (code, attr) = (attr.toNat / 2 ^ p.tcShift % 16) ^^^ p.colorXor) ∧
  (∀ (p : Profile) (vram : Nat → Byte) (i : Nat), cellAt p vram i = (vram (p.tilemapBase + i), vram (p.attrBase + i))) ∧
  (∀ (p : Profile) (code attr : Byte) (py px : Nat), tilePixel p (code, attr) py px =
    ((attr.toNat / 2 ^ p.tcShift % 16) ^^^ p.colorXor) * p.tilePens +
      penAt p.tileBitmap ((code.toNat + (attr.toNat / 2 ^ p.tbShift &&& p.tbMask) * p.tbStride) % p.tileCount) py px) ∧
  (∀ (vram : Nat → Byte) (L : SpriteLayer) (j : Nat),
    (spriteEntry vram L j).y8 = vram (L.tableBase + 4 * j) ∧ (spriteEntry vram L j).t8 = vram (L.tableBase + 4 * j + 1) ∧
    (spriteEntry vram L j).x8 = vram (L.tableBase + 4 * j + 2) ∧
    (spriteEntry vram L j).at8 = vram (L.tableBase + 4 * j + 3)) ∧
  (∀ (L : SpriteLayer) (e : SpriteEntry) (pen : Nat), spriteValue L e pen =
    L.cbase + e.at8.toNat % 2 ^ L.colorBits * L.sprPens + pen) ∧
  (∀ (L : SpriteLayer) (e : SpriteEntry), spriteColour L e = e.at8.toNat % 2 ^ L.colorBits) ∧
  (∀ (L : SpriteLayer) (e : SpriteEntry), spriteTile L e =
    L.banks.foldr (fun b sum => (if e.at8.getLsbD b.1.val then b.2 else 0) + sum) e.t8.toNat % L.sprTiles)

/-- R111: with two layers the layer-order bit picks which is on top, the small one at 0 and the big one at 1; with one
layer the bit plays no part. -/
def Obligations.LayerOrderBitPicksTheTopLayer : Prop :=
  (∀ (p : Profile) (vram : Nat → Byte) (pens : List Nat) (small big : SpriteLayer) (y x : Nat),
    p.layers = [small, big] →
    ((vram p.layerOrder.1).getLsbD p.layerOrder.2.val = false →
      spritesShow p vram pens y x = (layerShows vram pens small y x).or (layerShows vram pens big y x)) ∧
    ((vram p.layerOrder.1).getLsbD p.layerOrder.2.val = true →
      spritesShow p vram pens y x = (layerShows vram pens big y x).or (layerShows vram pens small y x))) ∧
  (∀ (p : Profile) (vram : Nat → Byte) (pens : List Nat) (only : SpriteLayer) (y x : Nat), p.layers = [only] →
    spritesShow p vram pens y x = layerShows vram pens only y x)

/-- From R92, R105, R101 and R114: under a well-formed profile every decoded tile lies in its bitmap table, so every tile pixel is one of the
16 colours' pens, whatever the tilemap and sprite bytes. -/
def Obligations.DecodedTilesStayInTheirTables : Prop :=
  ∀ p : Profile, wfProfile p = true →
    (∀ (c : Byte × Byte) (py px : Nat), py < p.cell → px < p.cell →
      tileIndex p c < p.tileCount ∧ tilePixel p c py px < 16 * p.tilePens) ∧
    (∀ L ∈ p.layers, ∀ (e : SpriteEntry) (py px : Nat), py < L.size → px < L.size →
      spriteTile L e < L.sprTiles ∧ penAt L.bitmap (spriteTile L e) py px < L.sprPens ∧
      spriteColour L e < 2 ^ L.colorBits)

/-- From R89: the picture of a FRAME depends on nothing outside VRAM, the caches, the toggle and the profile. -/
def Obligations.RenderReadsNothingButVram : Prop :=
  ∀ s s' t t' : State, s'.profile = s.profile → s'.dirty = s.dirty → s'.scratch = s.scratch →
    s'.shadow = s.shadow →
    (∀ off, readBank s' (.region s.profile.vram) off = readBank s (.region s.profile.vram) off) →
    exec .frame s = .next t → exec .frame s' = .next t' →
    t'.dirty = t.dirty ∧ t'.scratch = t.scratch ∧ t'.frame = t.frame ∧ t'.shadow = t.shadow ∧ t'.out = t.out

/-- From R123: after any sequence of transactions and format-R words from power-on, SHADOW is SHADOW_INIT flipped once for
each FRAME among them. -/
def Obligations.TogglePhaseCountsFrames : Prop :=
  ∀ (p : Profile) (packets : List Packet), (∀ w, .r w ∈ packets → ¬NoRoutedWord w) → ∃ t : State,
    run packets.length (present (State.powerOn p) packets) = .next t ∧
    t.shadow = (p.shadowInit ^^ decide ((packets.countP (isFramePacket p.addrW)) % 2 = 1))

/-- The sizes of SCRATCH, FRAME and DIRTY, and the coherence of DIRTY with SCRATCH, are kept by every step. -/
def Obligations.RenderStateStaysCoherent : Prop :=
  ∀ s t : State, RenderShape s → DirtyCoherent s → step s = .next t → RenderShape t ∧ DirtyCoherent t

/-! ### Memory, power-on, reset -/

/-- The canonical form of the memory, and that it lists no byte of a ROM region or of no region, are kept by every
step. -/
def Obligations.MemoryStaysCanonical : Prop :=
  ∀ s t : State, MemoryOk s → step s = .next t → MemoryOk t

/-- From R40: a read of a byte returns the value that the write just before it stored there, through whatever lanes and
addresses the two reach the byte. -/
def Obligations.ReadReturnsTheLatestWrite : Prop :=
  ∀ (s : State) (l l' : Lane) (a a' : Addr) (d : Byte) (bank : Bank), wfProfile s.profile = true → MemoryOk s →
    a.toNat < 2 ^ s.profile.addrW → a'.toNat < 2 ^ s.profile.addrW →
    bankOf (routeAccess s.profile .wr l a d) = some bank → writable s.profile bank = true →
    bankOf (routeAccess s.profile .rd l' a' 0) = some bank →
    (routeAccess s.profile .rd l' a' 0).offset = (routeAccess s.profile .wr l a d).offset →
    ∃ t u, exec (.busWr l a d) s = .next t ∧ exec (.busRd l' a') t = .next u ∧ u.out = some ⟨some d, []⟩

/-- From R19, R20 and R39: under a well-formed profile, the response of a lane's access depends on no byte that is not
visible to the lane, and the access changes no such byte. The two runs share the outside's answers, and where those run out
the model's free draws (notes/assumptions/4.md). -/
def Obligations.LanesReachOnlyVisibleBytes : Prop :=
  ∀ (s : State) (l : Lane) (a : Addr) (d : Byte), wfProfile s.profile = true → a.toNat < 2 ^ s.profile.addrW →
    MemoryOk s →
    (∀ mem' : List Host.Cell,
      (∀ bank off, visibleBank s.profile l bank = true →
        readBank { s with mem := mem' } bank off = readBank s bank off) →
      ∃ t t', exec (.busRd l a) s = .next t ∧ exec (.busRd l a) { s with mem := mem' } = .next t' ∧
        t'.out = t.out) ∧
    (∃ t, exec (.busWr l a d) s = .next t ∧
      ∀ bank off, visibleBank s.profile l bank = false → readBank t bank off = readBank s bank off)

/-- R140: RESET clears the doorbell bits, SRS and MAILBOX, emits nothing, and leaves every other element as it was. -/
def Obligations.MachineResetClearsDoorbellAndSound : Prop :=
  ∀ s : State, ∃ t : State, exec .reset s = .next t ∧
    t = { s with doorA := t.doorA, doorB := t.doorB, srs := 0, mailbox := 0, out := some ⟨none, []⟩ } ∧
    ∀ m, (door t m).enable = false ∧ (door t m).pending = false

/-- R139, R87, R101, R114: the power-on state under any profile; REFUSED is set where a check of the profile fails, and, of
profiles in the ranges of their types (R8, R102), only there. -/
def Obligations.PowerOnState : Prop :=
  ∀ p : Profile, (State.powerOn p).profile = p ∧
    (∀ m, door (State.powerOn p) m = ⟨false, false⟩) ∧
    (State.powerOn p).srs = 0 ∧ (State.powerOn p).mailbox = 0 ∧
    (∀ bank off, readBank (State.powerOn p) bank off = initByte p (bank.cellAddr off)) ∧
    (∀ q, rotary (State.powerOn p) q = ⟨0, 0⟩) ∧
    (∀ i < p.gridW * p.gridH, (State.powerOn p).dirty[i]? = some none) ∧
    (∀ y x, pixelAt (State.powerOn p).scratch y x = 0 ∧ pixelAt (State.powerOn p).frame y x = 0) ∧
    (State.powerOn p).shadow = p.shadowInit ∧
    (FailsCheck p → (State.powerOn p).refused = true) ∧
    (InRanges p → ¬FailsCheck p → (State.powerOn p).refused = false) ∧
    (InRanges p → ((State.powerOn p).refused = false ↔ wfProfile p = true))

/-- The invariants hold at power-on under every profile, so at the model's reset state, which is power-on under the
spec's example profile (the model's choice, notes/assumptions/1.md). -/
def Obligations.PowerOnMeetsTheInvariants : Prop :=
  (∀ p : Profile, DoorbellExclusive (State.powerOn p) ∧ MemoryOk (State.powerOn p) ∧
    RenderShape (State.powerOn p) ∧ DirtyCoherent (State.powerOn p) ∧ UnrefusedWellFormed (State.powerOn p)) ∧
  State.reset = State.powerOn exProfile ∧ State.reset.refused = false

/-- From R13, R28 and R126: no step changes the profile; a step sets the REFUSED mark exactly where the next packet is one
that R126 refuses, and none takes it back; so a state without the mark has a well-formed profile. That every 40-bit word with
KIND 11 or more counts as R126's RF7, whatever its other fields are, is the model's choice (notes/assumptions/8.md). -/
def Obligations.ProfileIsFixedAndRefusalsAreTheListedOnes : Prop :=
  ∀ s t : State, step s = .next t → t.profile = s.profile ∧
    (t.refused = true ↔ s.refused = true ∨
      ∃ packet rest, s.inbox = packet :: rest ∧ RefusedPacket s.profile.addrW packet) ∧
    (UnrefusedWellFormed s → UnrefusedWellFormed t)

/-- From R125: every operation answers a next state and leaves the REFUSED mark alone. By the model's choices, a step
without a packet (notes/assumptions/3.md) and one with a refused packet (notes/assumptions/11.md) answer a next state too,
and a step stops only at a 40-bit packet that is no word of format R (notes/assumptions/8.md). -/
def Obligations.OnlyWordsOfNoFormatStop : Prop :=
  (∀ (i : Instr) (s : State), ∃ t : State, exec i s = .next t ∧ t.refused = s.refused) ∧
  (∀ s : State, (∀ w rest, s.inbox = .r w :: rest → ¬NoRoutedWord w) → ∃ t : State, step s = .next t) ∧
  (∀ (s : State) (w : BitVec 40) (rest : List Packet), s.inbox = .r w :: rest → NoRoutedWord w →
    step s = .refused .notRoutedWord)
end

