-- ==== Sys2Proof/Laws/State.lean ====
section
/-! SUPPORT. Laws/State.lean: one lemma per field per update of State, so that no later proof unfolds a record update. -/

namespace Sys2Proof.Machine

section AnswerRead
variable (s : State) (v : Byte) (ev : List Event)
@[simp] theorem answerRead_profile : (answerRead s v ev).profile = s.profile := rfl
@[simp] theorem answerRead_doorA : (answerRead s v ev).doorA = s.doorA := rfl
@[simp] theorem answerRead_doorB : (answerRead s v ev).doorB = s.doorB := rfl
@[simp] theorem answerRead_srs : (answerRead s v ev).srs = s.srs := rfl
@[simp] theorem answerRead_mailbox : (answerRead s v ev).mailbox = s.mailbox := rfl
@[simp] theorem answerRead_mem : (answerRead s v ev).mem = s.mem := rfl
@[simp] theorem answerRead_rot0 : (answerRead s v ev).rot0 = s.rot0 := rfl
@[simp] theorem answerRead_rot1 : (answerRead s v ev).rot1 = s.rot1 := rfl
@[simp] theorem answerRead_dirty : (answerRead s v ev).dirty = s.dirty := rfl
@[simp] theorem answerRead_scratch : (answerRead s v ev).scratch = s.scratch := rfl
@[simp] theorem answerRead_frame : (answerRead s v ev).frame = s.frame := rfl
@[simp] theorem answerRead_shadow : (answerRead s v ev).shadow = s.shadow := rfl
@[simp] theorem answerRead_refused : (answerRead s v ev).refused = s.refused := rfl
@[simp] theorem answerRead_inbox : (answerRead s v ev).inbox = s.inbox := rfl
@[simp] theorem answerRead_answers : (answerRead s v ev).answers = s.answers := rfl
@[simp] theorem answerRead_nDraws : (answerRead s v ev).nDraws = s.nDraws := rfl
@[simp] theorem answerRead_out : (answerRead s v ev).out = some ⟨some v, ev⟩ := rfl
end AnswerRead

section AnswerDone
variable (s : State) (ev : List Event)
@[simp] theorem answerDone_profile : (answerDone s ev).profile = s.profile := rfl
@[simp] theorem answerDone_doorA : (answerDone s ev).doorA = s.doorA := rfl
@[simp] theorem answerDone_doorB : (answerDone s ev).doorB = s.doorB := rfl
@[simp] theorem answerDone_srs : (answerDone s ev).srs = s.srs := rfl
@[simp] theorem answerDone_mailbox : (answerDone s ev).mailbox = s.mailbox := rfl
@[simp] theorem answerDone_mem : (answerDone s ev).mem = s.mem := rfl
@[simp] theorem answerDone_rot0 : (answerDone s ev).rot0 = s.rot0 := rfl
@[simp] theorem answerDone_rot1 : (answerDone s ev).rot1 = s.rot1 := rfl
@[simp] theorem answerDone_dirty : (answerDone s ev).dirty = s.dirty := rfl
@[simp] theorem answerDone_scratch : (answerDone s ev).scratch = s.scratch := rfl
@[simp] theorem answerDone_frame : (answerDone s ev).frame = s.frame := rfl
@[simp] theorem answerDone_shadow : (answerDone s ev).shadow = s.shadow := rfl
@[simp] theorem answerDone_refused : (answerDone s ev).refused = s.refused := rfl
@[simp] theorem answerDone_inbox : (answerDone s ev).inbox = s.inbox := rfl
@[simp] theorem answerDone_answers : (answerDone s ev).answers = s.answers := rfl
@[simp] theorem answerDone_nDraws : (answerDone s ev).nDraws = s.nDraws := rfl
@[simp] theorem answerDone_out : (answerDone s ev).out = some ⟨none, ev⟩ := rfl
end AnswerDone

section Refuse
variable (s : State)
@[simp] theorem refuse_profile : (refuse s).profile = s.profile := rfl
@[simp] theorem refuse_doorA : (refuse s).doorA = s.doorA := rfl
@[simp] theorem refuse_doorB : (refuse s).doorB = s.doorB := rfl
@[simp] theorem refuse_srs : (refuse s).srs = s.srs := rfl
@[simp] theorem refuse_mailbox : (refuse s).mailbox = s.mailbox := rfl
@[simp] theorem refuse_mem : (refuse s).mem = s.mem := rfl
@[simp] theorem refuse_rot0 : (refuse s).rot0 = s.rot0 := rfl
@[simp] theorem refuse_rot1 : (refuse s).rot1 = s.rot1 := rfl
@[simp] theorem refuse_dirty : (refuse s).dirty = s.dirty := rfl
@[simp] theorem refuse_scratch : (refuse s).scratch = s.scratch := rfl
@[simp] theorem refuse_frame : (refuse s).frame = s.frame := rfl
@[simp] theorem refuse_shadow : (refuse s).shadow = s.shadow := rfl
@[simp] theorem refuse_refused : (refuse s).refused = true := rfl
@[simp] theorem refuse_inbox : (refuse s).inbox = s.inbox := rfl
@[simp] theorem refuse_answers : (refuse s).answers = s.answers := rfl
@[simp] theorem refuse_nDraws : (refuse s).nDraws = s.nDraws := rfl
@[simp] theorem refuse_out : (refuse s).out = none := rfl
end Refuse

section TakePacket
variable (s : State) (rest : List Packet)
@[simp] theorem takePacket_profile : (takePacket s rest).profile = s.profile := rfl
@[simp] theorem takePacket_doorA : (takePacket s rest).doorA = s.doorA := rfl
@[simp] theorem takePacket_doorB : (takePacket s rest).doorB = s.doorB := rfl
@[simp] theorem takePacket_srs : (takePacket s rest).srs = s.srs := rfl
@[simp] theorem takePacket_mailbox : (takePacket s rest).mailbox = s.mailbox := rfl
@[simp] theorem takePacket_mem : (takePacket s rest).mem = s.mem := rfl
@[simp] theorem takePacket_rot0 : (takePacket s rest).rot0 = s.rot0 := rfl
@[simp] theorem takePacket_rot1 : (takePacket s rest).rot1 = s.rot1 := rfl
@[simp] theorem takePacket_dirty : (takePacket s rest).dirty = s.dirty := rfl
@[simp] theorem takePacket_scratch : (takePacket s rest).scratch = s.scratch := rfl
@[simp] theorem takePacket_frame : (takePacket s rest).frame = s.frame := rfl
@[simp] theorem takePacket_shadow : (takePacket s rest).shadow = s.shadow := rfl
@[simp] theorem takePacket_refused : (takePacket s rest).refused = s.refused := rfl
@[simp] theorem takePacket_inbox : (takePacket s rest).inbox = rest := rfl
@[simp] theorem takePacket_answers : (takePacket s rest).answers = s.answers := rfl
@[simp] theorem takePacket_nDraws : (takePacket s rest).nDraws = s.nDraws := rfl
@[simp] theorem takePacket_out : (takePacket s rest).out = none := rfl
end TakePacket

section Idle
variable (s : State)
@[simp] theorem idle_profile : (idle s).profile = s.profile := rfl
@[simp] theorem idle_doorA : (idle s).doorA = s.doorA := rfl
@[simp] theorem idle_doorB : (idle s).doorB = s.doorB := rfl
@[simp] theorem idle_srs : (idle s).srs = s.srs := rfl
@[simp] theorem idle_mailbox : (idle s).mailbox = s.mailbox := rfl
@[simp] theorem idle_mem : (idle s).mem = s.mem := rfl
@[simp] theorem idle_rot0 : (idle s).rot0 = s.rot0 := rfl
@[simp] theorem idle_rot1 : (idle s).rot1 = s.rot1 := rfl
@[simp] theorem idle_dirty : (idle s).dirty = s.dirty := rfl
@[simp] theorem idle_scratch : (idle s).scratch = s.scratch := rfl
@[simp] theorem idle_frame : (idle s).frame = s.frame := rfl
@[simp] theorem idle_shadow : (idle s).shadow = s.shadow := rfl
@[simp] theorem idle_refused : (idle s).refused = s.refused := rfl
@[simp] theorem idle_inbox : (idle s).inbox = s.inbox := rfl
@[simp] theorem idle_answers : (idle s).answers = s.answers := rfl
@[simp] theorem idle_nDraws : (idle s).nDraws = s.nDraws := rfl
@[simp] theorem idle_out : (idle s).out = none := rfl
end Idle

section AfterDraw
variable (s : State) (src : DrawSource)
@[simp] theorem afterDraw_profile : (afterDraw s src).profile = s.profile := rfl
@[simp] theorem afterDraw_doorA : (afterDraw s src).doorA = s.doorA := rfl
@[simp] theorem afterDraw_doorB : (afterDraw s src).doorB = s.doorB := rfl
@[simp] theorem afterDraw_srs : (afterDraw s src).srs = s.srs := rfl
@[simp] theorem afterDraw_mailbox : (afterDraw s src).mailbox = s.mailbox := rfl
@[simp] theorem afterDraw_mem : (afterDraw s src).mem = s.mem := rfl
@[simp] theorem afterDraw_rot0 : (afterDraw s src).rot0 = s.rot0 := rfl
@[simp] theorem afterDraw_rot1 : (afterDraw s src).rot1 = s.rot1 := rfl
@[simp] theorem afterDraw_dirty : (afterDraw s src).dirty = s.dirty := rfl
@[simp] theorem afterDraw_scratch : (afterDraw s src).scratch = s.scratch := rfl
@[simp] theorem afterDraw_frame : (afterDraw s src).frame = s.frame := rfl
@[simp] theorem afterDraw_shadow : (afterDraw s src).shadow = s.shadow := rfl
@[simp] theorem afterDraw_refused : (afterDraw s src).refused = s.refused := rfl
@[simp] theorem afterDraw_inbox : (afterDraw s src).inbox = s.inbox := rfl
@[simp] theorem afterDraw_nDraws : (afterDraw s src).nDraws = s.nDraws + 1 := rfl
@[simp] theorem afterDraw_out : (afterDraw s src).out = s.out := rfl
end AfterDraw

/-- A drawn read is a read, so its fields are those of one. -/
@[simp] theorem answerDrawn_eq (s : State) (src : DrawSource) :
    answerDrawn s src = answerRead (afterDraw s src) (drawByte s src) [] := rfl

section SetDoor
variable (s : State) (m : Main) (d : Doorbell)
@[simp] theorem setDoor_profile : (setDoor s m d).profile = s.profile := by cases m <;> rfl
@[simp] theorem setDoor_srs : (setDoor s m d).srs = s.srs := by cases m <;> rfl
@[simp] theorem setDoor_mailbox : (setDoor s m d).mailbox = s.mailbox := by cases m <;> rfl
@[simp] theorem setDoor_mem : (setDoor s m d).mem = s.mem := by cases m <;> rfl
@[simp] theorem setDoor_rot0 : (setDoor s m d).rot0 = s.rot0 := by cases m <;> rfl
@[simp] theorem setDoor_rot1 : (setDoor s m d).rot1 = s.rot1 := by cases m <;> rfl
@[simp] theorem setDoor_dirty : (setDoor s m d).dirty = s.dirty := by cases m <;> rfl
@[simp] theorem setDoor_scratch : (setDoor s m d).scratch = s.scratch := by cases m <;> rfl
@[simp] theorem setDoor_frame : (setDoor s m d).frame = s.frame := by cases m <;> rfl
@[simp] theorem setDoor_shadow : (setDoor s m d).shadow = s.shadow := by cases m <;> rfl
@[simp] theorem setDoor_refused : (setDoor s m d).refused = s.refused := by cases m <;> rfl
@[simp] theorem setDoor_inbox : (setDoor s m d).inbox = s.inbox := by cases m <;> rfl
@[simp] theorem setDoor_answers : (setDoor s m d).answers = s.answers := by cases m <;> rfl
@[simp] theorem setDoor_nDraws : (setDoor s m d).nDraws = s.nDraws := by cases m <;> rfl
@[simp] theorem setDoor_out : (setDoor s m d).out = s.out := by cases m <;> rfl
end SetDoor

section SetRotary
variable (s : State) (q : Player) (r : Rotary)
@[simp] theorem setRotary_profile : (setRotary s q r).profile = s.profile := by cases q <;> rfl
@[simp] theorem setRotary_doorA : (setRotary s q r).doorA = s.doorA := by cases q <;> rfl
@[simp] theorem setRotary_doorB : (setRotary s q r).doorB = s.doorB := by cases q <;> rfl
@[simp] theorem setRotary_srs : (setRotary s q r).srs = s.srs := by cases q <;> rfl
@[simp] theorem setRotary_mailbox : (setRotary s q r).mailbox = s.mailbox := by cases q <;> rfl
@[simp] theorem setRotary_mem : (setRotary s q r).mem = s.mem := by cases q <;> rfl
@[simp] theorem setRotary_dirty : (setRotary s q r).dirty = s.dirty := by cases q <;> rfl
@[simp] theorem setRotary_scratch : (setRotary s q r).scratch = s.scratch := by cases q <;> rfl
@[simp] theorem setRotary_frame : (setRotary s q r).frame = s.frame := by cases q <;> rfl
@[simp] theorem setRotary_shadow : (setRotary s q r).shadow = s.shadow := by cases q <;> rfl
@[simp] theorem setRotary_refused : (setRotary s q r).refused = s.refused := by cases q <;> rfl
@[simp] theorem setRotary_inbox : (setRotary s q r).inbox = s.inbox := by cases q <;> rfl
@[simp] theorem setRotary_answers : (setRotary s q r).answers = s.answers := by cases q <;> rfl
@[simp] theorem setRotary_nDraws : (setRotary s q r).nDraws = s.nDraws := by cases q <;> rfl
@[simp] theorem setRotary_out : (setRotary s q r).out = s.out := by cases q <;> rfl
end SetRotary

section WriteBank
variable (s : State) (b : Bank) (off : Nat) (d : Byte)
@[simp] theorem writeBank_profile : (writeBank s b off d).profile = s.profile := by unfold writeBank; split <;> rfl
@[simp] theorem writeBank_doorA : (writeBank s b off d).doorA = s.doorA := by unfold writeBank; split <;> rfl
@[simp] theorem writeBank_doorB : (writeBank s b off d).doorB = s.doorB := by unfold writeBank; split <;> rfl
@[simp] theorem writeBank_srs : (writeBank s b off d).srs = s.srs := by unfold writeBank; split <;> rfl
@[simp] theorem writeBank_mailbox : (writeBank s b off d).mailbox = s.mailbox := by unfold writeBank; split <;> rfl
@[simp] theorem writeBank_rot0 : (writeBank s b off d).rot0 = s.rot0 := by unfold writeBank; split <;> rfl
@[simp] theorem writeBank_rot1 : (writeBank s b off d).rot1 = s.rot1 := by unfold writeBank; split <;> rfl
@[simp] theorem writeBank_dirty : (writeBank s b off d).dirty = s.dirty := by unfold writeBank; split <;> rfl
@[simp] theorem writeBank_scratch : (writeBank s b off d).scratch = s.scratch := by unfold writeBank; split <;> rfl
@[simp] theorem writeBank_frame : (writeBank s b off d).frame = s.frame := by unfold writeBank; split <;> rfl
@[simp] theorem writeBank_shadow : (writeBank s b off d).shadow = s.shadow := by unfold writeBank; split <;> rfl
@[simp] theorem writeBank_refused : (writeBank s b off d).refused = s.refused := by unfold writeBank; split <;> rfl
@[simp] theorem writeBank_inbox : (writeBank s b off d).inbox = s.inbox := by unfold writeBank; split <;> rfl
@[simp] theorem writeBank_answers : (writeBank s b off d).answers = s.answers := by unfold writeBank; split <;> rfl
@[simp] theorem writeBank_nDraws : (writeBank s b off d).nDraws = s.nDraws := by unfold writeBank; split <;> rfl
@[simp] theorem writeBank_out : (writeBank s b off d).out = s.out := by unfold writeBank; split <;> rfl
end WriteBank

section TilePass
variable (s : State)
@[simp] theorem tilePass_profile : (tilePass s).profile = s.profile := rfl
@[simp] theorem tilePass_doorA : (tilePass s).doorA = s.doorA := rfl
@[simp] theorem tilePass_doorB : (tilePass s).doorB = s.doorB := rfl
@[simp] theorem tilePass_srs : (tilePass s).srs = s.srs := rfl
@[simp] theorem tilePass_mailbox : (tilePass s).mailbox = s.mailbox := rfl
@[simp] theorem tilePass_mem : (tilePass s).mem = s.mem := rfl
@[simp] theorem tilePass_rot0 : (tilePass s).rot0 = s.rot0 := rfl
@[simp] theorem tilePass_rot1 : (tilePass s).rot1 = s.rot1 := rfl
@[simp] theorem tilePass_dirty : (tilePass s).dirty = (tileWalk s.profile (vramByte s) (s.dirty, s.scratch)).1 := rfl
@[simp] theorem tilePass_scratch : (tilePass s).scratch = (tileWalk s.profile (vramByte s) (s.dirty, s.scratch)).2 := rfl
@[simp] theorem tilePass_frame : (tilePass s).frame = scrolledCopy s.profile (vramByte s) (tileWalk s.profile (vramByte s) (s.dirty, s.scratch)).2 := rfl
@[simp] theorem tilePass_shadow : (tilePass s).shadow = s.shadow := rfl
@[simp] theorem tilePass_refused : (tilePass s).refused = s.refused := rfl
@[simp] theorem tilePass_inbox : (tilePass s).inbox = s.inbox := rfl
@[simp] theorem tilePass_answers : (tilePass s).answers = s.answers := rfl
@[simp] theorem tilePass_nDraws : (tilePass s).nDraws = s.nDraws := rfl
@[simp] theorem tilePass_out : (tilePass s).out = s.out := rfl
end TilePass

section SpriteFrame
variable (s : State)
@[simp] theorem spriteFrame_profile : (spriteFrame s).profile = s.profile := rfl
@[simp] theorem spriteFrame_doorA : (spriteFrame s).doorA = s.doorA := rfl
@[simp] theorem spriteFrame_doorB : (spriteFrame s).doorB = s.doorB := rfl
@[simp] theorem spriteFrame_srs : (spriteFrame s).srs = s.srs := rfl
@[simp] theorem spriteFrame_mailbox : (spriteFrame s).mailbox = s.mailbox := rfl
@[simp] theorem spriteFrame_mem : (spriteFrame s).mem = s.mem := rfl
@[simp] theorem spriteFrame_rot0 : (spriteFrame s).rot0 = s.rot0 := rfl
@[simp] theorem spriteFrame_rot1 : (spriteFrame s).rot1 = s.rot1 := rfl
@[simp] theorem spriteFrame_dirty : (spriteFrame s).dirty = s.dirty := rfl
@[simp] theorem spriteFrame_scratch : (spriteFrame s).scratch = s.scratch := rfl
@[simp] theorem spriteFrame_frame : (spriteFrame s).frame = spritePasses s.profile (vramByte s) (transparentPens s.profile s.shadow) s.frame := rfl
@[simp] theorem spriteFrame_shadow : (spriteFrame s).shadow = s.shadow := rfl
@[simp] theorem spriteFrame_refused : (spriteFrame s).refused = s.refused := rfl
@[simp] theorem spriteFrame_inbox : (spriteFrame s).inbox = s.inbox := rfl
@[simp] theorem spriteFrame_answers : (spriteFrame s).answers = s.answers := rfl
@[simp] theorem spriteFrame_nDraws : (spriteFrame s).nDraws = s.nDraws := rfl
@[simp] theorem spriteFrame_out : (spriteFrame s).out = s.out := rfl
end SpriteFrame

/-! ### The doorbell and rotary accessors -/

@[simp] theorem door_setDoor_same (s : State) (m : Main) (d : Doorbell) : door (setDoor s m d) m = d := by
  cases m <;> rfl

theorem door_setDoor_other (s : State) {m m' : Main} (d : Doorbell) (h : m' ≠ m) :
    door (setDoor s m d) m' = door s m' := by
  cases m <;> cases m' <;> first | rfl | exact absurd rfl h

@[simp] theorem rotary_setRotary_same (s : State) (q : Player) (r : Rotary) : rotary (setRotary s q r) q = r := by
  cases q <;> rfl

theorem rotary_setRotary_other (s : State) {q q' : Player} (r : Rotary) (h : q' ≠ q) :
    rotary (setRotary s q r) q' = rotary s q' := by
  cases q <;> cases q' <;> first | rfl | exact absurd rfl h

@[simp] theorem door_answerRead (s : State) (v : Byte) (ev : List Event) (m : Main) :
    door (answerRead s v ev) m = door s m := by cases m <;> rfl

@[simp] theorem door_answerDone (s : State) (ev : List Event) (m : Main) : door (answerDone s ev) m = door s m := by
  cases m <;> rfl

@[simp] theorem door_refuse (s : State) (m : Main) : door (refuse s) m = door s m := by cases m <;> rfl

@[simp] theorem door_takePacket (s : State) (rest : List Packet) (m : Main) :
    door (takePacket s rest) m = door s m := by cases m <;> rfl

@[simp] theorem door_idle (s : State) (m : Main) : door (idle s) m = door s m := by cases m <;> rfl

@[simp] theorem rotary_answerRead (s : State) (v : Byte) (ev : List Event) (q : Player) :
    rotary (answerRead s v ev) q = rotary s q := by cases q <;> rfl

@[simp] theorem rotary_afterDraw (s : State) (src : DrawSource) (q : Player) :
    rotary (afterDraw s src) q = rotary s q := by cases q <;> rfl

/-- The doorbell bits of a lane depend on the two doorbell fields only. -/
theorem door_congr {s t : State} (ha : t.doorA = s.doorA) (hb : t.doorB = s.doorB) (m : Main) : door t m = door s m := by
  cases m <;> assumption

/-- The peer of a main lane is another lane. -/
theorem peer_ne (m : Main) : m.peer ≠ m := by cases m <;> decide

@[simp] theorem peer_peer (m : Main) : m.peer.peer = m := by cases m <;> rfl

@[simp] theorem main?_lane (m : Main) : m.lane.main? = some m := by cases m <;> rfl

/-- A lane that is a main lane is that lane. -/
theorem lane_of_main? {l : Lane} {m : Main} (h : l.main? = some m) : l = m.lane := by
  cases l <;> cases m <;> first | rfl | (simp [Lane.main?] at h)

/-- Lane S is the one lane that is no main lane. -/
theorem main?_eq_none {l : Lane} : l.main? = none ↔ l = .s := by cases l <;> simp [Lane.main?]

end Sys2Proof.Machine
end

