-- ==== Sys2Proof/Laws/Change.lean ====
section
/-! SUPPORT. Laws/Change.lean: everything an operation and a step can do, said once, and that each answers a next
state. -/

namespace Sys2Proof.Machine

/-- The state changes an operation can make, with the response it gives. -/
inductive Change (s : State) : State → Prop
  /-- A response with no interrupt in it, and no other change. -/
  | respond (v : Option Byte) (ev : List Event) (quiet : ∀ m, Event.irq m ∉ ev) :
      Change s { s with out := some ⟨v, ev⟩ }
  /-- A byte that exists is written. -/
  | wrote (b : Bank) (off : Nat) (d : Byte) (exists_byte : hasByte s.profile b off = true) :
      Change s (answerDone (writeBank s b off d) [])
  /-- A lane writes its own doorbell offset. -/
  | armed (m : Main) :
      Change s (answerDone (setDoor s m (doorSelfWrite (door s m)).1) (doorEvents m (doorSelfWrite (door s m)).2))
  /-- A lane is notified by its peer. -/
  | notified (m : Main) :
      Change s (answerRead (setDoor s m (doorNotified (door s m)).1) 0xFF (doorEvents m (doorNotified (door s m)).2))
  /-- The sound register and mailbox change. -/
  | sound (mb : Byte) (srs : Nibble) (v : Option Byte) :
      Change s { s with mailbox := mb, srs := srs, out := some ⟨v, []⟩ }
  /-- A byte is drawn from outside. -/
  | drew (src : DrawSource) (v : Byte) (ev : List Event) (quiet : ∀ m, Event.irq m ∉ ev) :
      Change s (answerRead (afterDraw s src) v ev)
  /-- A byte is drawn from outside and moves a rotary decoder. -/
  | polled (src : DrawSource) (q : Player) (r : Rotary) (v : Byte) :
      Change s (answerRead (setRotary (afterDraw s src) q r) v [])
  /-- A frame is rendered. -/
  | rendered : Change s (answerDone (spriteFrame (tilePass { s with shadow := !s.shadow })) [.frameOut])
  /-- The machine is reset. -/
  | reset :
      Change s (answerDone { s with doorA := ⟨false, false⟩, doorB := ⟨false, false⟩, srs := 0, mailbox := 0 } [])

/-- A bank read answers, with the byte or with a drawn one. -/
theorem bankRead_change (b : Bank) (off : Addr) (s : State) : ∃ t, bankRead b off s = .next t ∧ Change s t := by
  unfold bankRead
  split
  · exact ⟨_, rfl, .respond _ [] (by simp)⟩
  · exact ⟨_, rfl, .drew _ _ [] (by simp)⟩

/-- A bank write answers, and writes a byte that exists or nothing. -/
theorem bankWrite_change (b : Bank) (off : Addr) (d : Byte) (s : State) :
    ∃ t, bankWrite b off d s = .next t ∧ Change s t := by
  unfold bankWrite
  split
  · rename_i h; exact ⟨_, rfl, .wrote b _ d h⟩
  · exact ⟨_, rfl, .respond none [] (by simp)⟩

/-- An input read answers. -/
theorem execInpRd_change (l : Lane) (p0 : RegionId) (off : Addr) (s : State) :
    ∃ t, execInpRd l p0 off s = .next t ∧ Change s t := by
  unfold execInpRd
  split
  · rename_i port _
    cases hm : s.profile.rotaryMode.get port with
    | none => exact ⟨_, rfl, by simpa [rotaryTransform, hm] using .drew _ _ [] (by simp)⟩
    | way8 => exact ⟨_, rfl, by simpa [rotaryTransform, hm] using .drew _ _ [] (by simp)⟩
    | way12 q => exact ⟨_, rfl, by simpa [rotaryTransform, hm] using .polled _ q _ _⟩
  · exact ⟨_, rfl, .drew _ _ [] (by simp)⟩

/-- Every routed access answers a next state, by one of the changes. -/
theorem multiplex_change (r : Routed) (s : State) : ∃ t, multiplex r s = .next t ∧ Change s t := by
  rcases r with ⟨op, l, k, reg, off, d⟩
  cases k <;> cases op <;> simp only [multiplex]
  case rom.rd => exact bankRead_change _ _ _
  case rom.wr => exact ⟨_, rfl, .respond none [] (by simp)⟩
  case ram.rd => exact bankRead_change _ _ _
  case ram.wr => exact bankWrite_change _ _ _ _
  case shared.rd => exact bankRead_change _ _ _
  case shared.wr => exact bankWrite_change _ _ _ _
  case dflt.rd => exact bankRead_change _ _ _
  case dflt.wr => exact bankWrite_change _ _ _ _
  case hardflag.rd => exact ⟨_, rfl, .respond _ [] (by simp)⟩
  case hardflag.wr => exact ⟨_, rfl, .respond none [] (by simp)⟩
  case dbSelf.rd => exact ⟨_, rfl, .respond _ [] (by simp)⟩
  case dbSelf.wr =>
    unfold execDbSelfWr; split
    · exact ⟨_, rfl, .armed _⟩
    · exact ⟨_, rfl, .respond none [] (by simp)⟩
  case dbPeer.rd =>
    unfold execDbPeerRd; split
    · exact ⟨_, rfl, .notified _⟩
    · exact ⟨_, rfl, .respond _ [] (by simp)⟩
  case dbPeer.wr => exact ⟨_, rfl, .respond none [] (by simp)⟩
  case sndMbox.rd => exact ⟨_, rfl, .sound 0 0 _⟩
  case sndMbox.wr => exact ⟨_, rfl, .sound _ _ none⟩
  case sndReg.rd => exact ⟨_, rfl, .respond _ [] (by simp)⟩
  case sndReg.wr => exact ⟨_, rfl, .sound s.mailbox _ none⟩
  case inport.rd => exact execInpRd_change _ _ _ _
  case inport.wr => exact ⟨_, rfl, .respond none [] (by simp)⟩
  case ext.rd => exact ⟨_, rfl, .drew _ _ _ (by simp)⟩
  case ext.wr => exact ⟨_, rfl, .respond none _ (by simp)⟩

/-- The multiplexer runs the meaning of the operation that the routed access stands for. -/
theorem multiplex_eq_exec (r : Routed) (s : State) : multiplex r s = exec r.toInstr s := by
  rcases r with ⟨op, l, k, reg, off, d⟩
  cases k <;> cases op <;> rfl

/-- Every operation answers a next state, by one of the changes. -/
theorem exec_change (i : Instr) (s : State) : ∃ t, exec i s = .next t ∧ Change s t := by
  cases i with
  | busRd l a => exact multiplex_change _ _
  | busWr l a d => exact multiplex_change _ _
  | chipDone c => exact ⟨_, rfl, .sound s.mailbox _ none⟩
  | frame => exact ⟨_, rfl, .rendered⟩
  | reset => exact ⟨_, rfl, .reset⟩
  | romRd l r off => exact multiplex_change ⟨.rd, l, .rom, r, off, 0⟩ s
  | romWr l r off d => exact multiplex_change ⟨.wr, l, .rom, r, off, d⟩ s
  | ramRd l r off => exact multiplex_change ⟨.rd, l, .ram, r, off, 0⟩ s
  | ramWr l r off d => exact multiplex_change ⟨.wr, l, .ram, r, off, d⟩ s
  | shrRd l r off => exact multiplex_change ⟨.rd, l, .shared, r, off, 0⟩ s
  | shrWr l r off d => exact multiplex_change ⟨.wr, l, .shared, r, off, d⟩ s
  | dfltRd l off => exact multiplex_change ⟨.rd, l, .dflt, 0, off, 0⟩ s
  | dfltWr l off d => exact multiplex_change ⟨.wr, l, .dflt, 0, off, d⟩ s
  | hflagRd l off => exact multiplex_change ⟨.rd, l, .hardflag, 0, off, 0⟩ s
  | hflagWr l off d => exact multiplex_change ⟨.wr, l, .hardflag, 0, off, d⟩ s
  | dbSelfRd l off => exact multiplex_change ⟨.rd, l, .dbSelf, 0, off, 0⟩ s
  | dbSelfWr l off d => exact multiplex_change ⟨.wr, l, .dbSelf, 0, off, d⟩ s
  | dbPeerRd l off => exact multiplex_change ⟨.rd, l, .dbPeer, 0, off, 0⟩ s
  | dbPeerWr l off d => exact multiplex_change ⟨.wr, l, .dbPeer, 0, off, d⟩ s
  | sndMboxRd l off => exact multiplex_change ⟨.rd, l, .sndMbox, 0, off, 0⟩ s
  | sndMboxWr l off d => exact multiplex_change ⟨.wr, l, .sndMbox, 0, off, d⟩ s
  | sndRegRd l off => exact multiplex_change ⟨.rd, l, .sndReg, 0, off, 0⟩ s
  | sndRegWr l off d => exact multiplex_change ⟨.wr, l, .sndReg, 0, off, d⟩ s
  | inpRd l p0 off => exact multiplex_change ⟨.rd, l, .inport, p0, off, 0⟩ s
  | inpWr l p0 off d => exact multiplex_change ⟨.wr, l, .inport, p0, off, d⟩ s
  | chipRd l dev off => exact multiplex_change ⟨.rd, l, .ext, dev, off, 0⟩ s
  | chipWr l dev off d => exact multiplex_change ⟨.wr, l, .ext, dev, off, d⟩ s

/-- Everything a step can do: nothing, if no packet has arrived; else an operation's change of the state that the packet
has left, the spec's refusal, or a stop at a packet of no format. -/
theorem step_cases (s : State) :
    (s.inbox = [] ∧ step s = .next (idle s)) ∨
    ∃ packet rest, s.inbox = packet :: rest ∧
      ((∃ i t, decode s.profile.addrW packet = .ok i ∧ step s = .next t ∧ exec i (takePacket s rest) = .next t ∧
          Change (takePacket s rest) t) ∨
       (∃ r, decode s.profile.addrW packet = .error (.refused r) ∧ step s = .next (refuse (takePacket s rest))) ∨
       (decode s.profile.addrW packet = .error .notRouted ∧ step s = .refused .notRoutedWord)) := by
  unfold step
  split
  · rename_i h; exact .inl ⟨h, rfl⟩
  · rename_i packet rest h
    refine .inr ⟨packet, rest, h, ?_⟩
    split
    · rename_i i hd
      obtain ⟨t, ht, hc⟩ := exec_change i (takePacket s rest)
      exact .inl ⟨i, t, hd, ht, ht, hc⟩
    · rename_i r hd; exact .inr (.inl ⟨r, hd, rfl⟩)
    · rename_i hd; exact .inr (.inr ⟨hd, rfl⟩)

/-- What leads to a next state: idling, the spec's refusal, or an operation's change. -/
theorem step_change {s t : State} (h : step s = .next t) :
    t = idle s ∨ ∃ packet rest, s.inbox = packet :: rest ∧
      (t = refuse (takePacket s rest) ∨ Change (takePacket s rest) t) := by
  obtain ⟨-, hs⟩ | ⟨packet, rest, hin, ⟨i, u, -, hs, -, hc⟩ | ⟨r, -, hs⟩ | ⟨-, hs⟩⟩ := step_cases s <;> rw [hs] at h
  · cases h; exact .inl rfl
  · cases h; exact .inr ⟨packet, rest, hin, .inr hc⟩
  · cases h; exact .inr ⟨packet, rest, hin, .inl rfl⟩
  · exact nomatch h

/-- What no operation changes: the profile and the packets still to come. -/
theorem Change.fixed {s t : State} (h : Change s t) : t.profile = s.profile ∧ t.inbox = s.inbox := by
  cases h <;> simp

/-- No operation touches the REFUSED mark. -/
theorem Change.refused {s t : State} (h : Change s t) : t.refused = s.refused := by
  cases h <;> simp

/-- The memory after an operation: as it was, or with one existing byte written. -/
theorem Change.mem {s t : State} (h : Change s t) :
    t.mem = s.mem ∨ ∃ b off d, hasByte s.profile b off = true ∧ t.mem = (writeBank s b off d).mem := by
  cases h with
  | wrote b off d hb => exact .inr ⟨b, off, d, hb, by simp⟩
  | _ => left; simp

/-- DIRTY, SCRATCH and FRAME after an operation: as they were, or as a rendered frame leaves them. -/
theorem Change.render {s t : State} (h : Change s t) :
    (t.dirty = s.dirty ∧ t.scratch = s.scratch ∧ t.frame = s.frame) ∨
    t = answerDone (spriteFrame (tilePass { s with shadow := !s.shadow })) [.frameOut] := by
  cases h with
  | rendered => exact .inr rfl
  | _ => left; simp

/-- The doorbell bits of a lane after an operation: as they were, written by the lane, notified by its peer, or
cleared. -/
theorem Change.door {s t : State} (h : Change s t) (m : Main) :
    door t m = door s m ∨ door t m = (doorSelfWrite (door s m)).1 ∨ door t m = (doorNotified (door s m)).1 ∨
      door t m = ⟨false, false⟩ := by
  cases h with
  | armed m' =>
    by_cases hm : m = m'
    · subst hm; exact .inr (.inl (by simp))
    · exact .inl (by simp [door_setDoor_other _ _ hm])
  | notified m' =>
    by_cases hm : m = m'
    · subst hm; exact .inr (.inr (.inl (by simp)))
    · exact .inl (by simp [door_setDoor_other _ _ hm])
  | reset => exact .inr (.inr (.inr (by cases m <;> rfl)))
  | _ => left; apply door_congr <;> simp

end Sys2Proof.Machine
end

