-- ==== Sys2Proof/Laws/Memory.lean ====
section
/-! SUPPORT. Laws/Memory.lean: the one memory of the model: read after write, the canonical form that every memory
operation keeps, and the laws of `readBank` and `writeBank`. -/

namespace Sys2Proof.Machine

/-! ### Cells -/

/-- Below the first address of a rising list nothing is listed. -/
theorem lookupCell_eq_none_of_lt {m : List Host.Cell} {k : Nat} (h : m.all (fun c => k < c.1) = true) :
    lookupCell m k = none := by
  induction m with
  | nil => rfl
  | cons c rest ih =>
    simp only [List.all_cons, Bool.and_eq_true, decide_eq_true_eq] at h
    simp only [lookupCell, if_neg (Nat.ne_of_gt h.1), ih h.2]

theorem lookupCell_eraseCell_other {m : List Host.Cell} {k k' : Nat} (h : k' ≠ k) :
    lookupCell (eraseCell m k) k' = lookupCell m k' := by
  induction m with
  | nil => rfl
  | cons c rest ih =>
    by_cases hc : c.1 = k
    · simp [eraseCell, lookupCell, hc, Ne.symm h]
    · simp [eraseCell, lookupCell, hc, ih]

theorem lookupCell_eraseCell_same {m : List Host.Cell} {k : Nat} (hm : risingFrom m = true) :
    lookupCell (eraseCell m k) k = none := by
  induction m with
  | nil => rfl
  | cons c rest ih =>
    simp only [risingFrom, Bool.and_eq_true] at hm
    by_cases hc : c.1 = k
    · subst hc; simpa [eraseCell] using lookupCell_eq_none_of_lt hm.1
    · simp [eraseCell, lookupCell, hc, ih hm.2]

theorem lookupCell_insertCell_same {m : List Host.Cell} {k : Nat} {d : Byte} :
    lookupCell (insertCell m k d) k = some d := by
  induction m with
  | nil => simp [insertCell, lookupCell]
  | cons c rest ih =>
    simp only [insertCell]
    split
    · simp [lookupCell]
    · split
      · simp [lookupCell]
      · rename_i h1 h2; simpa [lookupCell, h2] using ih

theorem lookupCell_insertCell_other {m : List Host.Cell} {k k' : Nat} {d : Byte} (h : k' ≠ k) :
    lookupCell (insertCell m k d) k' = lookupCell m k' := by
  induction m with
  | nil => simp [insertCell, lookupCell, Ne.symm h]
  | cons c rest ih =>
    simp only [insertCell]
    split
    · simp [lookupCell, Ne.symm h]
    · split
      · rename_i h1 h2; simp [lookupCell, h2, Ne.symm h]
      · simp [lookupCell, ih]

theorem all_eraseCell {q : Host.Cell → Bool} {m : List Host.Cell} {k : Nat} (h : m.all q = true) :
    (eraseCell m k).all q = true := by
  induction m with
  | nil => rfl
  | cons c rest ih =>
    simp only [List.all_cons, Bool.and_eq_true] at h
    simp only [eraseCell]
    split
    · exact h.2
    · simp [h.1, ih h.2]

theorem all_insertCell {q : Host.Cell → Bool} {m : List Host.Cell} {k : Nat} {d : Byte}
    (h : m.all q = true) (hk : q (k, d) = true) : (insertCell m k d).all q = true := by
  induction m with
  | nil => simp [insertCell, hk]
  | cons c rest ih =>
    simp only [List.all_cons, Bool.and_eq_true] at h
    simp only [insertCell]
    split
    · simp [h.1, h.2, hk]
    · split
      · simp [h.2, hk]
      · simp [h.1, ih h.2]

theorem risingFrom_eraseCell {m : List Host.Cell} {k : Nat} (h : risingFrom m = true) :
    risingFrom (eraseCell m k) = true := by
  induction m with
  | nil => rfl
  | cons c rest ih =>
    simp only [risingFrom, Bool.and_eq_true] at h
    simp only [eraseCell]
    split
    · exact h.2
    · simp only [risingFrom, Bool.and_eq_true]
      exact ⟨all_eraseCell h.1, ih h.2⟩

theorem risingFrom_insertCell {m : List Host.Cell} {k : Nat} {d : Byte} (h : risingFrom m = true) :
    risingFrom (insertCell m k d) = true := by
  induction m with
  | nil => rfl
  | cons c rest ih =>
    simp only [risingFrom, Bool.and_eq_true] at h
    simp only [insertCell]
    split
    · rename_i hlt
      have hall : rest.all (fun x => k < x.1) = true :=
        List.all_eq_true.2 fun x hx => by
          have := List.all_eq_true.1 h.1 x hx
          simp only [decide_eq_true_eq] at this ⊢
          omega
      simp [risingFrom, hlt, h.1, h.2, hall]
    · split
      · rename_i heq; subst heq; simp [risingFrom, h.1, h.2]
      · rename_i h1 h2
        simp only [risingFrom, Bool.and_eq_true]
        exact ⟨all_insertCell h.1 (by simp; omega), ih h.2⟩

/-! ### Memory -/

/-- A read after a write to the same address gives the byte written. -/
theorem readCell_writeCell_same {init : Nat → Byte} {m : List Host.Cell} {k : Nat} {d : Byte}
    (h : risingFrom m = true) : readCell init (writeCell init m k d) k = d := by
  unfold readCell writeCell
  split
  · rename_i hd; rw [lookupCell_eraseCell_same h]; exact hd.symm
  · rw [lookupCell_insertCell_same]; rfl

/-- A write leaves every other address alone. -/
theorem readCell_writeCell_other {init : Nat → Byte} {m : List Host.Cell} {k k' : Nat} {d : Byte} (h : k' ≠ k) :
    readCell init (writeCell init m k d) k' = readCell init m k' := by
  unfold readCell writeCell
  split
  · rw [lookupCell_eraseCell_other h]
  · rw [lookupCell_insertCell_other h]

theorem wf_rising {init : Nat → Byte} {m : List Host.Cell} (h : Memory.wf init m = true) : risingFrom m = true := by
  simp only [Memory.wf, Bool.and_eq_true] at h; exact h.1

/-- A write keeps the canonical form. -/
theorem writeCell_wf {init : Nat → Byte} {m : List Host.Cell} (k : Nat) (d : Byte) (h : Memory.wf init m = true) :
    Memory.wf init (writeCell init m k d) = true := by
  simp only [Memory.wf, Bool.and_eq_true] at h ⊢
  unfold writeCell
  split
  · exact ⟨risingFrom_eraseCell h.1, all_eraseCell h.2⟩
  · rename_i hd; exact ⟨risingFrom_insertCell h.1, all_insertCell h.2 (by simpa using hd)⟩

/-- A write that changes a cell list only touches the written address: any property of cells that the written cell has is
kept. -/
theorem writeCell_all {q : Host.Cell → Bool} {init : Nat → Byte} {m : List Host.Cell} {k : Nat} {d : Byte}
    (h : m.all q = true) (hk : q (k, d) = true) : (writeCell init m k d).all q = true := by
  unfold writeCell
  split
  · exact all_eraseCell h
  · exact all_insertCell h hk

/-! ### Banks -/

theorem code_lt (b : Bank) : b.code < 32 := by
  cases b with
  | region id => have := id.isLt; simp only [Bank.code]; omega
  | dflt l => cases l <;> simp [Bank.code]

theorem code_injective {b b' : Bank} (h : b.code = b'.code) : b = b' := by
  cases b with
  | region id =>
    cases b' with
    | region id' => exact congrArg Bank.region (BitVec.eq_of_toNat_eq h)
    | dflt l => have := id.isLt; cases l <;> simp [Bank.code] at h <;> omega
  | dflt l =>
    cases b' with
    | region id' => have := id'.isLt; cases l <;> simp [Bank.code] at h <;> omega
    | dflt l' => cases l <;> cases l' <;> first | rfl | (simp [Bank.code] at h)

/-- Every (bank, offset) has an address of its own. -/
theorem cellAddr_injective {b b' : Bank} {off off' : Nat} (h : b.cellAddr off = b'.cellAddr off') :
    b = b' ∧ off = off' := by
  have h1 := code_lt b
  have h2 := code_lt b'
  unfold Bank.cellAddr at h
  exact ⟨code_injective (by omega), by omega⟩

/-- A bank's bytes depend on the profile and the memory only. -/
theorem readBank_congr {s t : State} (hp : t.profile = s.profile) (hm : t.mem = s.mem) (b : Bank) (off : Nat) :
    readBank t b off = readBank s b off := by
  simp [readBank, hp, hm]

/-- What a write to a bank makes every byte read as. -/
theorem readBank_writeBank {s : State} {b : Bank} {off : Nat} {d : Byte} (h : risingFrom s.mem = true)
    (hw : writable s.profile b = true) (b' : Bank) (off' : Nat) :
    readBank (writeBank s b off d) b' off' = if b' = b ∧ off' = off then d else readBank s b' off' := by
  simp only [writeBank, hw, if_true, readBank]
  split
  · rename_i hc; rw [hc.1, hc.2]; exact readCell_writeCell_same h
  · rename_i hc
    exact readCell_writeCell_other fun he => hc (cellAddr_injective he)

/-- A write to a ROM region is a no-op. -/
theorem writeBank_of_not_writable {s : State} {b : Bank} {off : Nat} {d : Byte}
    (hw : writable s.profile b = false) : writeBank s b off d = s := by
  simp [writeBank, hw]

/-- The memory after a write to a bank is canonical where the memory before it is. -/
theorem writeBank_wf {s : State} (b : Bank) (off : Nat) (d : Byte)
    (h : Memory.wf (initByte s.profile) s.mem = true) :
    Memory.wf (initByte s.profile) (writeBank s b off d).mem = true := by
  unfold writeBank
  split
  · exact writeCell_wf _ _ h
  · exact h

/-- The cells after a write: cells from before, or the written one. -/
theorem mem_writeCell {init : Nat → Byte} {m : List Host.Cell} {k : Nat} {d : Byte} {c : Host.Cell}
    (h : c ∈ writeCell init m k d) : c ∈ m ∨ c = (k, d) := by
  have erased : ∀ {m : List Host.Cell}, c ∈ eraseCell m k → c ∈ m := by
    intro m
    induction m with
    | nil => exact id
    | cons x rest ih => simp only [eraseCell]; split <;> simp_all; grind
  have inserted : ∀ {m : List Host.Cell}, c ∈ insertCell m k d → c ∈ m ∨ c = (k, d) := by
    intro m
    induction m with
    | nil => simp [insertCell]
    | cons x rest ih => simp only [insertCell]; split <;> (try split) <;> grind
  unfold writeCell at h
  split at h
  · exact .inl (erased h)
  · exact inserted h

/-- A write of a byte that exists keeps the memory in order. -/
theorem memoryOk_writeBank {s t : State} (h : MemoryOk s) {b : Bank} {off : Nat} {d : Byte}
    (hb : hasByte s.profile b off = true) (hp : t.profile = s.profile) (hm : t.mem = (writeBank s b off d).mem) :
    MemoryOk t := by
  unfold MemoryOk
  rw [hp, hm]
  refine ⟨writeBank_wf _ _ _ h.1, fun c hc => ?_⟩
  unfold writeBank at hc
  split at hc
  · rename_i hw
    rcases mem_writeCell hc with hc | rfl
    · exact h.2 c hc
    · exact ⟨b, off, rfl, hb, hw⟩
  · exact h.2 c hc

/-- No cell of a ROM region is listed. -/
theorem lookup_rom {s : State} (h : MemoryOk s) {b : Bank} (hw : writable s.profile b = false) (off : Nat) :
    lookupCell s.mem (b.cellAddr off) = none := by
  have none_of : ∀ {m : List Host.Cell}, (∀ c ∈ m, c.1 ≠ b.cellAddr off) → lookupCell m (b.cellAddr off) = none := by
    intro m
    induction m with
    | nil => simp [lookupCell]
    | cons c rest ih =>
      intro h
      simp only [lookupCell]
      rw [if_neg (h c (by simp)), ih fun c hc => h c (by simp [hc])]
  refine none_of fun c hc he => ?_
  obtain ⟨b', off', h1, -, h3⟩ := h.2 c hc
  have := cellAddr_injective (h1.symm.trans he)
  rw [this.1, hw] at h3
  exact nomatch h3

/-- An unlisted address reads as the profile's image. -/
theorem readBank_nil {s : State} (h : s.mem = []) (b : Bank) (off : Nat) :
    readBank s b off = initByte s.profile (b.cellAddr off) := by
  simp [readBank, readCell, lookupCell, h]

end Sys2Proof.Machine
end

