-- ==== Sys2Proof/Laws/Router.lean ====
section
/-! SUPPORT. Laws/Router.lean: what the address decoder can answer, and what a well-formed profile guarantees of it. -/

namespace Sys2Proof.Machine

/-- What an address routes to: the first claiming entry, or DEFAULT. -/
theorem route_cases (p : Profile) (l : Lane) (a : Addr) :
    ((∀ e ∈ p.map l, claims p e a.toNat = false) ∧ route p l a = (.dflt, 0, a)) ∨
    ∃ e ∈ p.map l, claims p e a.toNat = true ∧
      route p l a = (e.kind, e.region, BitVec.ofNat 16 (entryOffset p e a.toNat)) := by
  unfold route
  cases h : (p.map l).find? (fun e => claims p e a.toNat) with
  | none => exact .inl ⟨fun e he => by simpa using List.find?_eq_none.1 h e he, rfl⟩
  | some e => exact .inr ⟨e, List.mem_of_find?_eq_some h, by simpa using List.find?_some h, rfl⟩

/-- An entry that claims an address has it between its ends. -/
theorem claims_bounds {p : Profile} {e : MapEntry} {n : Nat} (h : claims p e n = true) : e.start ≤ n ∧ n ≤ e.stop := by
  simp only [claims, Bool.and_eq_true, decide_eq_true_eq] at h
  exact h.2

/-- When an entry claims an address (R76). -/
theorem claims_iff (p : Profile) (e : MapEntry) (n : Nat) :
    claims p e n = true ↔ (e.kind = .hardflag → p.hardFlagsEn = true) ∧ e.start ≤ n ∧ n ≤ e.stop := by
  simp [claims]
  intro _ _
  cases e.kind <;> simp

/-- The offset of an entry is not beyond the address. -/
theorem entryOffset_le (p : Profile) (e : MapEntry) (n : Nat) : entryOffset p e n ≤ n := by
  unfold entryOffset
  split <;> first | exact Nat.le_trans (Nat.mod_le _ _) (Nat.sub_le _ _) | exact Nat.sub_le _ _

/-- So the OFFSET field holds it whole. -/
theorem toNat_entryOffset (p : Profile) (e : MapEntry) (a : Addr) :
    (BitVec.ofNat 16 (entryOffset p e a.toNat)).toNat = entryOffset p e a.toNat := by
  have h1 := entryOffset_le p e a.toNat
  have h2 := a.isLt
  rw [BitVec.toNat_ofNat, Nat.mod_eq_of_lt (by omega)]

/-! ### Well-formed profiles -/

/-- Every entry of every map of a well-formed profile meets its checks. -/
theorem wfEntry_of_mem {p : Profile} (h : wfProfile p = true) {l : Lane} {e : MapEntry} (he : e ∈ p.map l) :
    wfEntry p l e = true := by
  simp only [wfProfile, wfMaps, Bool.and_eq_true, List.all_eq_true] at h
  obtain ⟨⟨⟨⟨-, -⟩, ⟨ha, hb⟩, hs⟩, -⟩, -⟩ := h
  cases l
  · exact ha e he
  · exact hb e he
  · exact hs e he

/-- A region of a well-formed profile has at least one byte, and no more than the address space. -/
theorem len_of_find {p : Profile} (h : wfProfile p = true) {id : RegionId} {r : Region}
    (hr : findRegion p id = some r) : 1 ≤ r.len ∧ r.len ≤ 2 ^ p.addrW := by
  simp only [wfProfile, wfRegions, Bool.and_eq_true, List.all_eq_true, decide_eq_true_eq] at h
  exact h.1.1.1.2.2 r (List.mem_of_find?_eq_some hr)

/-- What a well-formed profile's router answers: a routed access whose fields are in order, whose byte exists where its
kind has a store behind it, and whose bank is visible to the lane. -/
theorem routeAccess_ok {p : Profile} (h : wfProfile p = true) (op : RW) (l : Lane) {a : Addr}
    (ha : a.toNat < 2 ^ p.addrW) (d : Byte) :
    (routeAccess p op l a d).wellFormed = true ∧
    ∀ bank, bankOf (routeAccess p op l a d) = some bank →
      hasByte p bank (routeAccess p op l a d).offset.toNat = true ∧ visibleBank p l bank = true := by
  obtain ⟨-, hr⟩ | ⟨e, he, hc, hr⟩ := route_cases p l a
  · constructor
    · cases op <;> simp [routeAccess, hr, Routed.wellFormed, Kind.usesRegion]
    · intro bank hb
      simp only [routeAccess, hr, bankOf, Option.some.injEq] at hb ⊢
      subst hb
      simp [hasByte, visibleBank, ha]
  · have hw := wfEntry_of_mem h he
    have hb := claims_bounds hc
    have ho := toNat_entryOffset p e a
    have region_ok : ∀ r : Region, findRegion p e.region = some r → r.visibleTo.contains l = true →
        hasByte p (.region e.region) ((a.toNat - e.start) % regionLen p e.region) = true ∧
        visibleBank p l (.region e.region) = true := by
      intro r hf hv
      refine ⟨?_, by simp only [visibleBank, hf]; exact hv⟩
      simp only [hasByte, regionLen, hf, decide_eq_true_eq]
      exact Nat.mod_lt _ (len_of_find h hf).1
    rcases hk : e.kind with _ | _ | _ | _ | _ | _ | _ | _ | _ | _ | _ <;>
      simp only [wfEntry, hk, Bool.and_eq_true, decide_eq_true_eq, beq_iff_eq] at hw <;>
      simp only [entryOffset, hk] at ho <;>
      (refine ⟨by cases op <;> simp_all [routeAccess, Routed.wellFormed, Kind.usesRegion, entryOffset], ?_⟩) <;>
      intro bank hbk <;>
      simp only [routeAccess, hr, hk, bankOf, Option.some.injEq, reduceCtorEq] at hbk ⊢
    · subst hbk
      split at hw
      · rename_i r hf
        simp only [entryOffset, hk, ho]
        exact region_ok r hf (by simp_all)
      · simp at hw
    · subst hbk
      split at hw
      · rename_i r hf
        simp only [entryOffset, hk, ho]
        exact region_ok r hf (by simp_all)
      · simp at hw
    · subst hbk
      split at hw
      · rename_i r hf
        simp only [entryOffset, hk, ho]
        exact region_ok r hf (by simp_all)
      · simp at hw
    · simp at hw

/-! ### Routed accesses with a store behind them -/

/-- A read of a bank's byte that exists. -/
theorem multiplex_bank_rd {r : Routed} {b : Bank} {s : State} (hop : r.op = .rd) (hb : bankOf r = some b)
    (he : hasByte s.profile b r.offset.toNat = true) :
    multiplex r s = .next (answerRead s (readBank s b r.offset.toNat) []) := by
  rcases r with ⟨op, l, k, reg, off, d⟩
  simp only at hop
  subst hop
  cases k <;> simp only [bankOf, Option.some.injEq, reduceCtorEq] at hb <;> subst hb <;>
    simp only [multiplex, execRomRd, execRamRd, execShrRd, execDfltRd, bankRead, he, if_true]

/-- A write of a bank's byte that exists, or a write to a ROM window. -/
theorem multiplex_bank_wr {r : Routed} {b : Bank} {s : State} (hop : r.op = .wr) (hb : bankOf r = some b)
    (he : hasByte s.profile b r.offset.toNat = true) :
    multiplex r s = .next (answerDone (writeBank s b r.offset.toNat r.data) []) ∨
      r.kind = .rom ∧ multiplex r s = .next (answerDone s []) := by
  rcases r with ⟨op, l, k, reg, off, d⟩
  simp only at hop
  subst hop
  cases k <;> simp only [bankOf, Option.some.injEq, reduceCtorEq] at hb <;> subst hb <;>
    simp only [multiplex, execRomWr, execRamWr, execShrWr, execDfltWr, bankWrite, he, if_true] <;> simp

/-- A well-formed profile routes kind ROM to ROM regions only. -/
theorem rom_not_writable {p : Profile} (h : wfProfile p = true) {op : RW} {l : Lane} {a : Addr} {d : Byte}
    (hk : (routeAccess p op l a d).kind = .rom) :
    writable p (.region (routeAccess p op l a d).region) = false := by
  obtain ⟨-, hr⟩ | ⟨e, he, hc, hr⟩ := route_cases p l a
  · simp [routeAccess, hr] at hk
  · have hw := wfEntry_of_mem h he
    simp only [routeAccess, hr] at hk ⊢
    simp only [wfEntry, hk, Bool.and_eq_true] at hw
    have hw := hw.2
    unfold writable
    simp only
    split at hw
    · rename_i r hf
      simp only [Bool.and_eq_true, beq_iff_eq] at hw
      simp [hf, hw.1]
    · exact nomatch hw

/-! ### Transactions and what they perform -/

/-- A transaction is the operation it performs. -/
theorem exec_performed (i : Instr) (s : State) : exec (performed s.profile i) s = exec i s := by
  cases i <;> first | rfl | exact (multiplex_eq_exec _ _).symm

/-- A step whose next packet is not refused performs `nextPerformed` on the state that the packet has left. -/
theorem step_of_nextPerformed {s : State} {i : Instr} (h : nextPerformed s = some i) :
    ∃ packet rest, s.inbox = packet :: rest ∧ step s = exec i (takePacket s rest) := by
  unfold nextPerformed nextInstr at h
  split at h
  · simp at h
  · rename_i packet rest hin
    split at h
    · rename_i j hd
      simp only [Option.map_some, Option.some.injEq] at h
      refine ⟨packet, rest, hin, ?_⟩
      unfold step
      rw [hin]
      simp only [hd]
      rw [← h]
      exact (exec_performed j (takePacket s rest)).symm
    · simp at h

/-- A step with nothing to perform leaves the doorbell bits alone and delivers nothing. -/
theorem step_of_nothing {s t : State} (h : nextPerformed s = none) (ht : step s = .next t) :
    (∃ rest, t = refuse (takePacket s rest)) ∨ t = idle s := by
  unfold nextPerformed nextInstr at h
  unfold step at ht
  split at ht
  · cases ht; exact .inr rfl
  · rename_i packet rest hin
    rw [hin] at h
    split at ht
    · rename_i i hd; simp [hd] at h
    · cases ht; exact .inl ⟨rest, rfl⟩
    · exact nomatch ht

end Sys2Proof.Machine
end

