-- ==== Sys2Proof/Laws/Doorbell.lean ====
section
/-! SUPPORT. Laws/Doorbell.lean: what every operation does to the doorbell bits of a lane and how many interrupts it
delivers to it, said once. -/

namespace Sys2Proof.Machine

/-- DB_SELF_WR by a main lane (R57). -/
theorem exec_dbSelfWr (m : Main) (off : Addr) (d : Byte) (s : State) :
    exec (.dbSelfWr m.lane off d) s =
      .next (answerDone (setDoor s m (doorSelfWrite (door s m)).1) (doorEvents m (doorSelfWrite (door s m)).2)) := by
  cases m <;> rfl

/-- DB_PEER_RD by the peer of a main lane (R58). -/
theorem exec_dbPeerRd (m : Main) (off : Addr) (s : State) :
    exec (.dbPeerRd m.peer.lane off) s =
      .next (answerRead (setDoor s m (doorNotified (door s m)).1) 0xFF (doorEvents m (doorNotified (door s m)).2)) := by
  cases m <;> rfl

/-- The doorbell bits of a lane after an operation, from those before it. -/
def doorAfter (m : Main) (i : Instr) (d : Doorbell) : Doorbell :=
  if isArming m i then (doorSelfWrite d).1
  else if isRequestFor m i then (doorNotified d).1
  else if i = .reset then ⟨false, false⟩
  else d

/-- How many interrupts an operation delivers to a lane, from the doorbell bits before it. -/
def irqsOf (m : Main) (i : Instr) (d : Doorbell) : Nat :=
  if isArming m i then (doorSelfWrite d).2.toNat
  else if isRequestFor m i then (doorNotified d).2.toNat
  else 0

@[simp] theorem count_doorEvents (m m' : Main) (fires : Bool) :
    (doorEvents m' fires).count (.irq m) = if m' = m then fires.toNat else 0 := by
  cases m <;> cases m' <;> cases fires <;> rfl

/-- The doorbell bits of a lane and the interrupts to it, where neither doorbell is touched and no event is an
interrupt. -/
theorem untouched (m : Main) {s t : State} (ha : t.doorA = s.doorA) (hb : t.doorB = s.doorB)
    (hq : ∀ m, Event.irq m ∉ eventsOf t) : door t m = door s m ∧ irqCount m t = 0 :=
  ⟨door_congr ha hb m, List.count_eq_zero.2 (hq m)⟩

theorem bankRead_untouched (m : Main) {b : Bank} {off : Addr} {s t : State} (h : bankRead b off s = .next t) :
    door t m = door s m ∧ irqCount m t = 0 := by
  unfold bankRead at h
  split at h <;> cases h <;> exact untouched m rfl rfl (by simp [eventsOf])

theorem bankWrite_untouched (m : Main) {b : Bank} {off : Addr} {d : Byte} {s t : State}
    (h : bankWrite b off d s = .next t) : door t m = door s m ∧ irqCount m t = 0 := by
  unfold bankWrite at h
  split at h <;> cases h <;> exact untouched m (by simp) (by simp) (by simp [eventsOf])

theorem execInpRd_untouched (m : Main) {l : Lane} {p0 : RegionId} {off : Addr} {s t : State}
    (h : execInpRd l p0 off s = .next t) : door t m = door s m ∧ irqCount m t = 0 := by
  unfold execInpRd at h
  split at h
  · cases h
    refine untouched m ?_ ?_ (by simp [eventsOf]) <;> simp only [answerRead_doorA, answerRead_doorB, rotaryTransform] <;>
      split <;> simp
  · cases h; exact untouched m rfl rfl (by simp [eventsOf])

/-- What every operation other than BUS_RD and BUS_WR, which perform another, does to a lane's doorbell bits, and how
many interrupts it delivers to the lane. -/
theorem exec_door (m : Main) {i : Instr} {s t : State} (hr : ∀ l a, i ≠ .busRd l a) (hw : ∀ l a d, i ≠ .busWr l a d)
    (h : exec i s = .next t) : door t m = doorAfter m i (door s m) ∧ irqCount m t = irqsOf m i (door s m) := by
  cases i with
  | busRd l a => exact absurd rfl (hr l a)
  | busWr l a d => exact absurd rfl (hw l a d)
  | reset => cases h; cases m <;> exact ⟨rfl, rfl⟩
  | romRd l r off => exact bankRead_untouched m h
  | ramRd l r off => exact bankRead_untouched m h
  | shrRd l r off => exact bankRead_untouched m h
  | dfltRd l off => exact bankRead_untouched m h
  | ramWr l r off d => exact bankWrite_untouched m h
  | shrWr l r off d => exact bankWrite_untouched m h
  | dfltWr l off d => exact bankWrite_untouched m h
  | inpRd l p0 off => exact execInpRd_untouched m h
  | chipRd l dev off => cases h; exact untouched m rfl rfl (by simp [eventsOf])
  | chipWr l dev off d => cases h; exact untouched m rfl rfl (by simp [eventsOf])
  | frame => cases h; exact untouched m (by simp) (by simp) (by simp [eventsOf])
  | dbSelfWr l off d =>
    cases l <;> cases m <;> cases h <;>
      simp [doorAfter, irqsOf, isArming, isRequestFor, Main.lane, door, setDoor, answerDone, irqCount, eventsOf]
  | dbPeerRd l off =>
    cases l <;> cases m <;> cases h <;>
      simp [doorAfter, irqsOf, isArming, isRequestFor, Main.lane, Main.peer, door, setDoor, answerRead, irqCount, eventsOf]
  | _ => cases h; exact untouched m rfl rfl (by simp [eventsOf])

/-- The operation that a transaction performs is itself no BUS_RD or BUS_WR. -/
theorem performed_not_bus (p : Profile) (i : Instr) :
    (∀ l a, performed p i ≠ .busRd l a) ∧ ∀ l a d, performed p i ≠ .busWr l a d := by
  have routed : ∀ r : Routed, (∀ l a, r.toInstr ≠ .busRd l a) ∧ ∀ l a d, r.toInstr ≠ .busWr l a d := by
    rintro ⟨op, l, k, reg, off, d⟩
    cases op <;> cases k <;> simp [Routed.toInstr]
  cases i <;> first | exact routed _ | simp [performed]

/-- What a step does to a lane's doorbell bits, and how many interrupts it delivers to the lane. -/
theorem step_door (m : Main) {s t : State} (h : step s = .next t) :
    door t m = (match nextPerformed s with
      | some i => doorAfter m i (door s m)
      | none => door s m) ∧
    irqCount m t = (match nextPerformed s with
      | some i => irqsOf m i (door s m)
      | none => 0) := by
  cases hp : nextPerformed s with
  | none =>
    obtain ⟨rest, rfl⟩ | rfl := step_of_nothing hp h <;> exact untouched m rfl rfl (by simp [eventsOf])
  | some i =>
    obtain ⟨packet, rest, -, hs⟩ := step_of_nextPerformed hp
    have hb : (∀ l a, i ≠ .busRd l a) ∧ ∀ l a d, i ≠ .busWr l a d := by
      unfold nextPerformed at hp
      cases hn : nextInstr s with
      | none => simp [hn] at hp
      | some j => rw [hn, Option.map_some, Option.some.injEq] at hp; subst hp; exact performed_not_bus _ j
    rw [h] at hs
    exact exec_door (s := takePacket s rest) m hb.1 hb.2 hs.symm

end Sys2Proof.Machine
end

