-- ==== Sys2Proof/Laws/Surface.lean ====
section
/-! SUPPORT. Laws/Surface.lean: pixels of surfaces, and what painting in order leaves at one pixel. -/

namespace Sys2Proof.Machine

theorem getD_replicate_zero (n i : Nat) : (List.replicate n 0).getD i 0 = 0 := by
  by_cases h : i < n <;> simp [List.getD_eq_getElem?_getD, h]

theorem getD_map_range {α : Type} (n : Nat) (g : Nat → α) (d : α) {i : Nat} (h : i < n) :
    ((List.range n).map g).getD i d = g i := by
  simp [List.getD_eq_getElem?_getD, h]

theorem row_length {f : Surface} {h w y : Nat} (hs : HasShape f h w) (hy : y < h) : (f.getD y []).length = w := by
  have hl : y < f.length := by rw [hs.1]; exact hy
  rw [List.getD_eq_getElem?_getD, List.getElem?_eq_getElem hl]
  exact hs.2 _ (List.getElem_mem hl)

/-- A surface made by rows and columns has its shape. -/
theorem makeSurface_shape (h w : Nat) (g : Nat → Nat → Nat) : HasShape (makeSurface h w g) h w := by
  refine ⟨by simp [makeSurface], fun row hr => ?_⟩
  simp only [makeSurface, List.mem_map] at hr
  obtain ⟨y, -, rfl⟩ := hr
  simp

/-- The pixels of a surface made by rows and columns. -/
theorem pixelAt_makeSurface {h w y x : Nat} (g : Nat → Nat → Nat) (hy : y < h) (hx : x < w) :
    pixelAt (makeSurface h w g) y x = g y x := by
  unfold pixelAt makeSurface
  rw [getD_map_range _ _ _ hy, getD_map_range _ _ _ hx]

theorem blankSurface_shape (h w : Nat) : HasShape (blankSurface h w) h w := by
  refine ⟨by simp [blankSurface], fun row hr => ?_⟩
  rw [(List.mem_replicate.1 hr).2]
  simp

/-- Two surfaces of one shape with the same pixels are the same. -/
theorem surface_ext {f g : Surface} {h w : Nat} (hf : HasShape f h w) (hg : HasShape g h w)
    (hp : ∀ y < h, ∀ x < w, pixelAt f y x = pixelAt g y x) : f = g := by
  refine List.ext_getElem (by rw [hf.1, hg.1]) fun y hy hy' => ?_
  have hyh : y < h := by rw [← hf.1]; exact hy
  refine List.ext_getElem (by rw [hf.2 _ (List.getElem_mem hy), hg.2 _ (List.getElem_mem hy')]) fun x hx hx' => ?_
  have hxw : x < w := by rw [← hf.2 _ (List.getElem_mem hy)]; exact hx
  have := hp y hyh x hxw
  simpa [pixelAt, List.getD_eq_getElem?_getD, List.getElem?_eq_getElem hy, List.getElem?_eq_getElem hy',
    List.getElem?_eq_getElem hx, List.getElem?_eq_getElem hx'] using this

/-- Putting a pixel keeps the shape. -/
theorem putPixel_shape {f : Surface} {h w : Nat} (hs : HasShape f h w) (y x v : Nat) :
    HasShape (putPixel f y x v) h w := by
  refine ⟨by simp [putPixel, hs.1], fun row hr => ?_⟩
  unfold putPixel at hr
  by_cases hy : y < f.length
  · obtain h1 | h2 := List.mem_or_eq_of_mem_set hr
    · exact hs.2 row h1
    · rw [h2, List.length_set]; exact row_length hs (by rw [← hs.1]; exact hy)
  · rw [List.set_eq_of_length_le (by omega)] at hr; exact hs.2 row hr

/-- A pixel put inside the surface is there, and no other pixel changes. -/
theorem pixelAt_putPixel {f : Surface} {h w y x : Nat} (hs : HasShape f h w) (hy : y < h) (hx : x < w)
    (v y' x' : Nat) :
    pixelAt (putPixel f y x v) y' x' = if y' = y ∧ x' = x then v else pixelAt f y' x' := by
  have hl : y < f.length := by rw [hs.1]; exact hy
  have hr := row_length hs hy
  unfold pixelAt putPixel
  by_cases h1 : y' = y
  · subst h1
    by_cases h2 : x' = x
    · subst h2; simp [List.getD_eq_getElem?_getD, hl] at hr ⊢; simp [hr, hx]
    · simp [List.getD_eq_getElem?_getD, hl, h2, Ne.symm h2]
  · simp [List.getD_eq_getElem?_getD, h1, Ne.symm h1]

/-- Painting in order: where every stroke keeps the shape and shows something or nothing at a pixel, the last stroke
that shows something is seen there. -/
theorem pixelAt_paint {α : Type} {h w y x : Nat} (draw : α → Surface → Surface) (shows : α → Option Nat)
    (l : List α) (hd : ∀ a ∈ l, ∀ f, HasShape f h w →
      HasShape (draw a f) h w ∧ pixelAt (draw a f) y x = (shows a).getD (pixelAt f y x))
    {f : Surface} (hf : HasShape f h w) :
    HasShape (l.foldl (fun f a => draw a f) f) h w ∧
      pixelAt (l.foldl (fun f a => draw a f) f) y x = (l.reverse.findSome? shows).getD (pixelAt f y x) := by
  induction l generalizing f with
  | nil => exact ⟨hf, rfl⟩
  | cons a l ih =>
    obtain ⟨h1, h2⟩ := hd a (by simp) f hf
    obtain ⟨h3, h4⟩ := ih (fun b hb => hd b (by simp [hb])) h1
    refine ⟨h3, ?_⟩
    rw [List.foldl_cons, h4, h2, List.reverse_cons, List.findSome?_append]
    cases l.reverse.findSome? shows <;> cases hs : shows a <;> simp [hs]

/-- In a search of a range backwards for a place that only one index can show, that index decides. -/
theorem findSome?_range_unique {n k : Nat} (shows : Nat → Option Nat) (hk : ∀ i < n, i ≠ k → shows i = none) :
    (List.range n).reverse.findSome? shows = if k < n then shows k else none := by
  induction n with
  | zero => simp
  | succ n ih =>
    rw [List.range_succ, List.reverse_append, List.reverse_singleton, List.singleton_append, List.findSome?_cons]
    have ih := ih (fun i hi => hk i (by omega))
    by_cases hn : n = k
    · subst hn
      cases hs : shows n with
      | some v => simp
      | none => rw [ih]; simp
    · rw [hk n (by omega) hn, ih]
      by_cases h : k < n
      · simp [h, Nat.lt_succ_of_lt h]
      · simp [h, show ¬k < n + 1 by omega]

/-- Painting all pixels of an `m` by `n` block where only pixel (py, px) can show at (y, x). -/
theorem pixelAt_forPixels {h w y x m n ky kx : Nat} (draw : Nat → Nat → Surface → Surface)
    (shows : Nat → Nat → Option Nat) (hd : ∀ py < m, ∀ px < n, ∀ f, HasShape f h w →
      HasShape (draw py px f) h w ∧ pixelAt (draw py px f) y x = (shows py px).getD (pixelAt f y x))
    (hu : ∀ py < m, ∀ px < n, (py ≠ ky ∨ px ≠ kx) → shows py px = none) {f : Surface} (hf : HasShape f h w) :
    HasShape (forPixels m n draw f) h w ∧
      pixelAt (forPixels m n draw f) y x =
        (if ky < m ∧ kx < n then shows ky kx else none).getD (pixelAt f y x) := by
  have inner : ∀ py ∈ List.range m, ∀ f, HasShape f h w →
      HasShape ((List.range n).foldl (fun f px => draw py px f) f) h w ∧
      pixelAt ((List.range n).foldl (fun f px => draw py px f) f) y x =
        ((List.range n).reverse.findSome? (shows py)).getD (pixelAt f y x) := by
    intro py hpy f hf
    exact pixelAt_paint (draw py) (shows py) _
      (fun px hpx f hf => hd py (List.mem_range.1 hpy) px (List.mem_range.1 hpx) f hf) hf
  obtain ⟨h1, h2⟩ := pixelAt_paint (fun py f => (List.range n).foldl (fun f px => draw py px f) f)
    (fun py => (List.range n).reverse.findSome? (shows py)) (List.range m) inner hf
  refine ⟨h1, ?_⟩
  rw [show forPixels m n draw f = (List.range m).foldl
    (fun f py => (List.range n).foldl (fun f px => draw py px f) f) f from rfl, h2]
  congr 1
  rw [findSome?_range_unique (k := ky)]
  · by_cases hm : ky < m
    · rw [if_pos hm, findSome?_range_unique (k := kx) _ (fun px hpx hne => hu ky hm px hpx (.inr hne))]
      by_cases hn : kx < n <;> simp [hm, hn]
    · simp [hm]
  · intro py hpy hne
    rw [List.findSome?_eq_none_iff]
    intro px hpx
    exact hu py hpy px (by simpa using hpx) (.inl hne)

end Sys2Proof.Machine
end

