-- ==== Sys2Proof/Laws/Tile.lean ====
section
/-! SUPPORT. Laws/Tile.lean: what the tile walk does to DIRTY and SCRATCH. -/

namespace Sys2Proof.Machine

/-- The shape that SCRATCH has under a profile. -/
abbrev ScratchShape (p : Profile) (f : Surface) : Prop := HasShape f (p.gridH * p.cell) (p.gridW * p.cell)

/-- DIRTY holds, for each cell, nothing or what its pixels were drawn from. -/
def Coherent (p : Profile) (dirty : List DirtySlot) (scratch : Surface) : Prop :=
  ∀ i < cellCount p, ∀ c, dirty.getD i none = some c → ∀ py < p.cell, ∀ px < p.cell,
    pixelAt scratch (i / p.gridW * p.cell + py) (i % p.gridW * p.cell + px) = tilePixel p c py px

/-- A scroll value as a sum (R96). -/
theorem scrollValue_eq (vram : Nat → Byte) (off : Nat) (ext : Option (Nat × Fin 8)) :
    scrollValue vram off ext = (vram off).toNat + (match ext with
      | some (o, b) => 256 * bitOf (vram o) b
      | none => 0) := by
  unfold scrollValue
  cases ext with
  | none => simp
  | some e =>
    simp only
    rw [Nat.or_comm, ← Nat.shiftLeft_add_eq_or_of_lt (vram off).isLt, Nat.shiftLeft_eq]
    omega

/-- The row and column of a cell lie in the grid. -/
theorem cell_in_grid {p : Profile} {i : Nat} (h : i < cellCount p) : i / p.gridW < p.gridH ∧ i % p.gridW < p.gridW := by
  unfold cellCount at h
  have hw : 0 < p.gridW := by
    rcases Nat.eq_zero_or_pos p.gridW with h0 | h0
    · simp [h0] at h
    · exact h0
  exact ⟨Nat.div_lt_of_lt_mul h, Nat.mod_lt _ hw⟩

/-- Pixel `k` of block `b` lies below the end of `n` blocks. -/
theorem block_lt {b n size k : Nat} (hb : b < n) (hk : k < size) : b * size + k < n * size := by
  have : (b + 1) * size ≤ n * size := Nat.mul_le_mul_right _ hb
  rw [Nat.add_mul, Nat.one_mul] at this
  omega

/-- A place in a block determines the block and the pixel. -/
theorem block_unique {b b' size k k' : Nat} (hk : k < size) (hk' : k' < size) (h : b * size + k = b' * size + k') :
    b = b' ∧ k = k' := by
  have hs : 0 < size := by omega
  have hb : b = b' := by
    have h1 : (b * size + k) / size = b := by
      rw [Nat.add_comm, Nat.add_mul_div_right _ _ hs, Nat.div_eq_of_lt hk, Nat.zero_add]
    have h2 : (b' * size + k') / size = b' := by
      rw [Nat.add_comm, Nat.add_mul_div_right _ _ hs, Nat.div_eq_of_lt hk', Nat.zero_add]
    rw [← h1, ← h2, h]
  subst hb
  exact ⟨rfl, by omega⟩

/-- A blit keeps the shape, and changes exactly the pixels of its cell. -/
theorem blitCell_law {p : Profile} {i : Nat} (hi : i < cellCount p) (c : Byte × Byte) {f : Surface}
    (hf : ScratchShape p f) (b b' : Nat) {py px : Nat} (hpy : py < p.cell) (hpx : px < p.cell) :
    ScratchShape p (blitCell p i c f) ∧
      pixelAt (blitCell p i c f) (b * p.cell + py) (b' * p.cell + px) =
        if b = i / p.gridW ∧ b' = i % p.gridW then tilePixel p c py px
        else pixelAt f (b * p.cell + py) (b' * p.cell + px) := by
  obtain ⟨hrow, hcol⟩ := cell_in_grid hi
  have key := pixelAt_forPixels (h := p.gridH * p.cell) (w := p.gridW * p.cell)
    (y := b * p.cell + py) (x := b' * p.cell + px) (m := p.cell) (n := p.cell) (ky := py) (kx := px)
    (fun qy qx f => putPixel f (i / p.gridW * p.cell + qy) (i % p.gridW * p.cell + qx) (tilePixel p c qy qx))
    (fun qy qx => if b * p.cell + py = i / p.gridW * p.cell + qy ∧ b' * p.cell + px = i % p.gridW * p.cell + qx
      then some (tilePixel p c qy qx) else none)
    (by
      intro qy hqy qx hqx f hf
      refine ⟨putPixel_shape hf _ _ _, ?_⟩
      rw [pixelAt_putPixel hf (block_lt hrow hqy) (block_lt hcol hqx)]
      split <;> simp_all)
    (by
      intro qy hqy qx hqx hne
      rw [if_neg]
      rintro ⟨h1, h2⟩
      have := (block_unique hpy hqy h1).2
      have := (block_unique hpx hqx h2).2
      omega)
    hf
  refine ⟨key.1, ?_⟩
  rw [show blitCell p i c f = forPixels p.cell p.cell
    (fun py px f => putPixel f (i / p.gridW * p.cell + py) (i % p.gridW * p.cell + px) (tilePixel p c py px)) f from rfl,
    key.2, if_pos ⟨hpy, hpx⟩]
  by_cases h : b = i / p.gridW ∧ b' = i % p.gridW
  · simp [h.1, h.2]
  · rw [if_neg h, if_neg]
    · rfl
    · rintro ⟨h1, h2⟩
      exact h ⟨(block_unique hpy hpy h1).1, (block_unique hpx hpx h2).1⟩

/-- A cell is determined by its row and column. -/
theorem cell_unique {p : Profile} {i j : Nat} (h1 : i / p.gridW = j / p.gridW) (h2 : i % p.gridW = j % p.gridW) : i = j := by
  rw [← Nat.div_add_mod i p.gridW, ← Nat.div_add_mod j p.gridW, h1, h2]

/-- What one cell of the walk does: it keeps the sizes and coherence, brings its own slot up to date, and leaves the
other slots alone. -/
theorem tileCell_law {p : Profile} (vram : Nat → Byte) {st : List DirtySlot × Surface} {i : Nat}
    (hi : i < cellCount p) (hl : st.1.length = cellCount p) (hs : ScratchShape p st.2)
    (hc : Coherent p st.1 st.2) :
    (tileCell p vram st i).1.length = cellCount p ∧ ScratchShape p (tileCell p vram st i).2 ∧
      Coherent p (tileCell p vram st i).1 (tileCell p vram st i).2 ∧
      (tileCell p vram st i).1.getD i none = some (cellAt p vram i) ∧
      ∀ j, j ≠ i → (tileCell p vram st i).1.getD j none = st.1.getD j none := by
  unfold tileCell
  split
  · rename_i h; exact ⟨hl, hs, hc, h, fun _ _ => rfl⟩
  · rename_i h
    have hil : i < st.1.length := by omega
    refine ⟨by simp [hl], ?_, ?_, by simp [List.getD_eq_getElem?_getD, hil], fun j hj => ?_⟩
    · by_cases hcell : 0 < p.cell
      · exact (blitCell_law hi _ hs 0 0 hcell hcell).1
      · have h0 : p.cell = 0 := by omega
        simpa [blitCell, forPixels, h0] using hs
    · intro j hj c hjc py hpy px hpx
      rw [(blitCell_law hi _ hs _ _ hpy hpx).2]
      by_cases hij : j = i
      · subst hij
        simp only [and_self, if_true]
        simp [List.getD_eq_getElem?_getD, hil] at hjc
        rw [hjc]
      · rw [if_neg (fun hh => hij (cell_unique hh.1 hh.2))]
        refine hc j hj c ?_ py hpy px hpx
        simpa [List.getD_eq_getElem?_getD, List.getElem?_set_ne (Ne.symm hij)] using hjc
    · simp [List.getD_eq_getElem?_getD, List.getElem?_set_ne (Ne.symm hj)]

/-- What the walk does up to cell `n`. -/
theorem walk_law {p : Profile} (vram : Nat → Byte) {st : List DirtySlot × Surface}
    (hl : st.1.length = cellCount p) (hs : ScratchShape p st.2) (hc : Coherent p st.1 st.2) {n : Nat}
    (hn : n ≤ cellCount p) :
    ((List.range n).foldl (tileCell p vram) st).1.length = cellCount p ∧
      ScratchShape p ((List.range n).foldl (tileCell p vram) st).2 ∧
      Coherent p ((List.range n).foldl (tileCell p vram) st).1 ((List.range n).foldl (tileCell p vram) st).2 ∧
      ∀ i < n, ((List.range n).foldl (tileCell p vram) st).1.getD i none = some (cellAt p vram i) := by
  induction n with
  | zero => exact ⟨hl, hs, hc, fun i hi => absurd hi (by omega)⟩
  | succ n ih =>
    obtain ⟨h1, h2, h3, h4⟩ := ih (by omega)
    rw [List.range_succ, List.foldl_append, List.foldl_cons, List.foldl_nil]
    obtain ⟨k1, k2, k3, k4, k5⟩ := tileCell_law vram (show n < cellCount p by omega) h1 h2 h3
    refine ⟨k1, k2, k3, fun i hi => ?_⟩
    by_cases hin : i = n
    · subst hin; exact k4
    · rw [k5 i hin]; exact h4 i (by omega)

/-- The whole walk keeps the sizes and coherence, and leaves every slot up to date (R94). -/
theorem tileWalk_law {p : Profile} (vram : Nat → Byte) {st : List DirtySlot × Surface}
    (hl : st.1.length = cellCount p) (hs : ScratchShape p st.2) (hc : Coherent p st.1 st.2) :
    (tileWalk p vram st).1.length = cellCount p ∧ ScratchShape p (tileWalk p vram st).2 ∧
      Coherent p (tileWalk p vram st).1 (tileWalk p vram st).2 ∧
      ∀ i < cellCount p, (tileWalk p vram st).1.getD i none = some (cellAt p vram i) :=
  walk_law vram hl hs hc (Nat.le_refl _)

/-- One cell of the walk keeps the sizes, whether or not the slots are coherent. -/
theorem tileCell_shape {p : Profile} (vram : Nat → Byte) {st : List DirtySlot × Surface} {i : Nat}
    (hi : i < cellCount p) (hl : st.1.length = cellCount p) (hs : ScratchShape p st.2) :
    (tileCell p vram st i).1.length = cellCount p ∧ ScratchShape p (tileCell p vram st i).2 := by
  unfold tileCell
  split
  · exact ⟨hl, hs⟩
  · refine ⟨by simp [hl], ?_⟩
    by_cases hcell : 0 < p.cell
    · exact (blitCell_law hi _ hs 0 0 hcell hcell).1
    · have h0 : p.cell = 0 := by omega
      simpa [blitCell, forPixels, h0] using hs

/-- The walk keeps the sizes, whether or not the slots are coherent. -/
theorem tileWalk_shape {p : Profile} (vram : Nat → Byte) {st : List DirtySlot × Surface}
    (hl : st.1.length = cellCount p) (hs : ScratchShape p st.2) :
    (tileWalk p vram st).1.length = cellCount p ∧ ScratchShape p (tileWalk p vram st).2 := by
  have : ∀ n ≤ cellCount p, ((List.range n).foldl (tileCell p vram) st).1.length = cellCount p ∧
      ScratchShape p ((List.range n).foldl (tileCell p vram) st).2 := by
    intro n hn
    induction n with
    | zero => exact ⟨hl, hs⟩
    | succ n ih =>
      obtain ⟨h1, h2⟩ := ih (by omega)
      rw [List.range_succ, List.foldl_append, List.foldl_cons, List.foldl_nil]
      exact tileCell_shape vram (by omega) h1 h2
  exact this _ (Nat.le_refl _)

/-- The walk leaves every slot up to date, whether or not the slots were coherent (R94). -/
theorem tileWalk_dirty {p : Profile} (vram : Nat → Byte) {st : List DirtySlot × Surface}
    (hl : st.1.length = cellCount p) :
    ∀ i < cellCount p, (tileWalk p vram st).1.getD i none = some (cellAt p vram i) := by
  have : ∀ n ≤ cellCount p, ((List.range n).foldl (tileCell p vram) st).1.length = cellCount p ∧
      ∀ i < n, ((List.range n).foldl (tileCell p vram) st).1.getD i none = some (cellAt p vram i) := by
    intro n hn
    induction n with
    | zero => exact ⟨hl, fun i hi => absurd hi (by omega)⟩
    | succ n ih =>
      obtain ⟨h1, h2⟩ := ih (by omega)
      rw [List.range_succ, List.foldl_append, List.foldl_cons, List.foldl_nil]
      generalize (List.range n).foldl (tileCell p vram) st = cur at h1 h2 ⊢
      unfold tileCell
      split
      · rename_i h
        refine ⟨h1, fun i hi => ?_⟩
        by_cases hin : i = n
        · subst hin; exact h
        · exact h2 i (by omega)
      · refine ⟨by simp [h1], fun i hi => ?_⟩
        by_cases hin : i = n
        · subst hin; simp [List.getD_eq_getElem?_getD, show i < cur.1.length by omega]
        · simpa [List.getD_eq_getElem?_getD, List.getElem?_set_ne (Ne.symm hin)] using h2 i (by omega)
  exact (this _ (Nat.le_refl _)).2

/-- A walk over slots that are all up to date changes nothing (R99). -/
theorem tileWalk_hits {p : Profile} {vram : Nat → Byte} {st : List DirtySlot × Surface}
    (h : ∀ i < cellCount p, st.1.getD i none = some (cellAt p vram i)) : tileWalk p vram st = st := by
  have : ∀ n ≤ cellCount p, (List.range n).foldl (tileCell p vram) st = st := by
    intro n hn
    induction n with
    | zero => rfl
    | succ n ih =>
      rw [List.range_succ, List.foldl_append, ih (by omega), List.foldl_cons, List.foldl_nil, tileCell,
        if_pos (h n (by omega))]
  exact this _ (Nat.le_refl _)

/-- Where every slot is up to date and coherent, SCRATCH is the full redraw (R100). -/
theorem scratch_eq_fullRedraw {p : Profile} {vram : Nat → Byte} {dirty : List DirtySlot} {scratch : Surface}
    (hs : ScratchShape p scratch) (hc : Coherent p dirty scratch)
    (hd : ∀ i < cellCount p, dirty.getD i none = some (cellAt p vram i)) : scratch = fullRedraw p vram := by
  refine surface_ext hs (makeSurface_shape _ _ _) fun y hy x hx => ?_
  rw [fullRedraw, pixelAt_makeSurface _ hy hx]
  have hcell : 0 < p.cell := by
    rcases Nat.eq_zero_or_pos p.cell with h0 | h0
    · simp [h0] at hy
    · exact h0
  have hyr : y / p.cell < p.gridH := Nat.div_lt_of_lt_mul (by rw [Nat.mul_comm]; exact hy)
  have hxc : x / p.cell < p.gridW := Nat.div_lt_of_lt_mul (by rw [Nat.mul_comm]; exact hx)
  have hi : y / p.cell * p.gridW + x / p.cell < cellCount p := by
    rw [cellCount, Nat.mul_comm p.gridW]; exact block_lt hyr hxc
  have hrow : (y / p.cell * p.gridW + x / p.cell) / p.gridW = y / p.cell := by
    rw [Nat.add_comm, Nat.add_mul_div_right _ _ (Nat.zero_lt_of_lt hxc), Nat.div_eq_of_lt hxc, Nat.zero_add]
  have hcol : (y / p.cell * p.gridW + x / p.cell) % p.gridW = x / p.cell := by
    rw [Nat.add_comm, Nat.add_mul_mod_self_right, Nat.mod_eq_of_lt hxc]
  have := hc _ hi _ (hd _ hi) (y % p.cell) (Nat.mod_lt _ hcell) (x % p.cell) (Nat.mod_lt _ hcell)
  rw [hrow, hcol] at this
  rw [← this, Nat.mul_comm (y / p.cell), Nat.mul_comm (x / p.cell), Nat.div_add_mod, Nat.div_add_mod]

end Sys2Proof.Machine
end

