-- ==== Sys2Proof/Laws/Sprite.lean ====
section
/-! SUPPORT. Laws/Sprite.lean: what the sprite passes leave at a pixel of FRAME. -/

namespace Sys2Proof.Machine

/-- A 9-bit coordinate as a sum (R104). -/
theorem coord9_eq (v8 at8 : Byte) (hi : Fin 8) : coord9 v8 at8 hi = v8.toNat + 256 * bitOf at8 hi := by
  unfold coord9
  rw [Nat.or_comm, ← Nat.shiftLeft_add_eq_or_of_lt v8.isLt, Nat.shiftLeft_eq]
  omega

/-- Where the edge wrap puts a coordinate (R104). -/
theorem wrapCoord_law (size : Nat) (off : Int) (v9 : Nat) (h : size ≤ 512) :
    -(size : Int) ≤ wrapCoord size off v9 ∧ wrapCoord size off v9 < 512 - size ∧
      (wrapCoord size off v9 - (v9 + off)) % 512 = 0 := by
  unfold wrapCoord
  simp only
  split <;> omega

/-- One blended pixel keeps the shape, and shows its indexed colour at its own place where its pen is opaque and the
place is visible. -/
theorem blendPixel_law {p : Profile} (pens : List Nat) (L : SpriteLayer) (e : SpriteEntry) (py px : Nat) {f : Surface}
    (hf : HasShape f p.visH p.visW) {y x : Nat} (hy : y < p.visH) (hx : x < p.visW) :
    HasShape (blendPixel p pens L e py px f) p.visH p.visW ∧
      pixelAt (blendPixel p pens L e py px f) y x =
        (if (y : Int) = spriteY L e + py ∧ (x : Int) = spriteX L e + px ∧
            penAt L.bitmap (spriteTile L e) py px ∉ pens
          then some (spriteValue L e (penAt L.bitmap (spriteTile L e) py px)) else none).getD (pixelAt f y x) := by
  simp only [blendPixel]
  split
  · rename_i h; exact ⟨hf, by simp [h]⟩
  · rename_i hpen
    split
    · rename_i hv
      refine ⟨putPixel_shape hf _ _ _, ?_⟩
      rw [pixelAt_putPixel hf (by omega) (by omega)]
      by_cases h : (y : Int) = spriteY L e + py ∧ (x : Int) = spriteX L e + px
      · rw [if_pos (by omega), if_pos ⟨h.1, h.2, hpen⟩]; rfl
      · rw [if_neg (by omega), if_neg (fun hh => h ⟨hh.1, hh.2.1⟩)]; rfl
    · rename_i hv
      refine ⟨hf, ?_⟩
      rw [if_neg]
      · rfl
      · rintro ⟨h1, h2, -⟩; omega

/-- An entry drawn over a frame shows at a visible pixel what `entryShows` says, over what was there. -/
theorem drawEntry_law {p : Profile} (pens : List Nat) (L : SpriteLayer) (e : SpriteEntry) {f : Surface}
    (hf : HasShape f p.visH p.visW) {y x : Nat} (hy : y < p.visH) (hx : x < p.visW) :
    HasShape (drawEntry p pens L e f) p.visH p.visW ∧
      pixelAt (drawEntry p pens L e f) y x = (entryShows pens L e y x).getD (pixelAt f y x) := by
  have key := pixelAt_forPixels (m := L.size) (n := L.size)
    (ky := if 0 ≤ (y : Int) - spriteY L e then ((y : Int) - spriteY L e).toNat else L.size)
    (kx := if 0 ≤ (x : Int) - spriteX L e then ((x : Int) - spriteX L e).toNat else L.size)
    (blendPixel p pens L e)
    (fun py px => if (y : Int) = spriteY L e + py ∧ (x : Int) = spriteX L e + px ∧
        penAt L.bitmap (spriteTile L e) py px ∉ pens
      then some (spriteValue L e (penAt L.bitmap (spriteTile L e) py px)) else none)
    (fun py _ px _ f hf => blendPixel_law pens L e py px hf hy hx)
    (by
      intro py hpy px hpx hne
      rw [if_neg]
      rintro ⟨h1, h2, -⟩
      rw [if_pos (by omega), if_pos (by omega)] at hne
      omega)
    hf
  obtain ⟨h1, h2⟩ := key
  refine ⟨h1, ?_⟩
  rw [show drawEntry p pens L e f = forPixels L.size L.size (blendPixel p pens L e) f from rfl, h2]
  clear h1 h2
  congr 1
  simp only [entryShows]
  by_cases hin : 0 ≤ (y : Int) - spriteY L e ∧ (y : Int) - spriteY L e < L.size ∧ 0 ≤ (x : Int) - spriteX L e ∧
      (x : Int) - spriteX L e < L.size
  · simp only [if_pos hin, if_pos hin.1, if_pos hin.2.2.1]
    have hlt : ((y : Int) - spriteY L e).toNat < L.size ∧ ((x : Int) - spriteX L e).toNat < L.size := by omega
    have hy' : (y : Int) = spriteY L e + (((y : Int) - spriteY L e).toNat : Int) := by omega
    have hx' : (x : Int) = spriteX L e + (((x : Int) - spriteX L e).toNat : Int) := by omega
    rw [if_pos hlt]
    by_cases hpen : penAt L.bitmap (spriteTile L e) ((y : Int) - spriteY L e).toNat ((x : Int) - spriteX L e).toNat ∈ pens
    · simp only [hpen, not_true, and_false, if_false, if_true]
    · simp only [hpen, not_false_iff, and_true, if_false, if_pos (And.intro hy' hx')]
  · simp only [if_neg hin]
    rw [if_neg]
    rintro ⟨h1, h2⟩
    split at h1 <;> split at h2 <;> omega

/-- A layer's pass shows at a visible pixel what `layerShows` says, over what was there (R109). -/
theorem spritePass_law {p : Profile} (vram : Nat → Byte) (pens : List Nat) (L : SpriteLayer) {f : Surface}
    (hf : HasShape f p.visH p.visW) {y x : Nat} (hy : y < p.visH) (hx : x < p.visW) :
    HasShape (spritePass p vram pens L f) p.visH p.visW ∧
      pixelAt (spritePass p vram pens L f) y x = (layerShows vram pens L y x).getD (pixelAt f y x) :=
  pixelAt_paint (fun j f => drawEntry p pens L (spriteEntry vram L j) f) _ _
    (fun _ _ _ hf => drawEntry_law pens L _ hf hy hx) hf

/-- All sprite passes show at a visible pixel what `spritesShow` says, over what was there (R111, R112). -/
theorem spritePasses_law {p : Profile} (vram : Nat → Byte) (pens : List Nat) {f : Surface}
    (hf : HasShape f p.visH p.visW) {y x : Nat} (hy : y < p.visH) (hx : x < p.visW) :
    HasShape (spritePasses p vram pens f) p.visH p.visW ∧
      pixelAt (spritePasses p vram pens f) y x = (spritesShow p vram pens y x).getD (pixelAt f y x) :=
  pixelAt_paint (fun L f => spritePass p vram pens L f) _ _
    (fun L _ _ hf => spritePass_law vram pens L hf hy hx) hf

theorem blendPixel_shape {p : Profile} (pens : List Nat) (L : SpriteLayer) (e : SpriteEntry) (py px : Nat) {f : Surface}
    {h w : Nat} (hf : HasShape f h w) : HasShape (blendPixel p pens L e py px f) h w := by
  simp only [blendPixel]
  split
  · exact hf
  · split
    · exact putPixel_shape hf _ _ _
    · exact hf

theorem foldl_shape {α : Type} (draw : Surface → α → Surface) {h w : Nat}
    (hd : ∀ a f, HasShape f h w → HasShape (draw f a) h w) (l : List α) {f : Surface} (hf : HasShape f h w) :
    HasShape (l.foldl draw f) h w := by
  induction l generalizing f with
  | nil => exact hf
  | cons a l ih => exact ih (hd a f hf)

/-- The sprite passes keep the shape of the frame, even one with no pixels. -/
theorem spritePasses_shape {p : Profile} (vram : Nat → Byte) (pens : List Nat) {f : Surface} {h w : Nat}
    (hf : HasShape f h w) : HasShape (spritePasses p vram pens f) h w :=
  foldl_shape _ (fun _ _ hf => foldl_shape _ (fun _ _ hf => foldl_shape _ (fun _ _ hf =>
    foldl_shape _ (fun _ _ hf => blendPixel_shape _ _ _ _ _ hf) _ hf) _ hf) _ hf) _ hf

end Sys2Proof.Machine
end

