-- ==== Sys2Proof/Laws/Words.lean ====
section
/-! SUPPORT. Laws/Words.lean: the fields of the words that the encoder builds, and the words that fields determine. -/

namespace Sys2Proof

@[simp] theorem laneOfBits_bits (l : Lane) : laneOfBits l.bits = some l := by cases l <;> rfl

@[simp] theorem kindOfBits_bits (k : Kind) : kindOfBits k.bits = some k := by cases k <;> rfl

theorem lane_bits_ne_three (l : Lane) : l.bits ≠ 3 := by cases l <;> decide

theorem laneOfBits_some {v : BitVec 2} {l : Lane} (h : laneOfBits v = some l) : l.bits = v := by
  revert v l; decide

theorem laneOfBits_eq_none {v : BitVec 2} : laneOfBits v = none ↔ v = 3 := by revert v; decide

theorem kindOfBits_some {v : BitVec 4} {k : Kind} (h : kindOfBits v = some k) : k.bits = v := by
  revert v k; decide

/-! ### Format T -/

section FormatT
variable (op : BitVec 4) (l : BitVec 2) (a : Addr) (d : Byte)

@[simp] theorem opT_wordT : opT (wordT op l a d) = op := by
  ext i hi; simp [opT, wordT]; grind

@[simp] theorem laneT_wordT : laneT (wordT op l a d) = l := by
  ext i hi; simp [laneT, wordT]; grind

@[simp] theorem rsvT_wordT : rsvT (wordT op l a d) = 0 := by
  ext i hi; simp [rsvT, wordT]; grind

@[simp] theorem addrT_wordT : addrT (wordT op l a d) = a := by
  ext i hi; simp [addrT, wordT]; grind

@[simp] theorem dataT_wordT : dataT (wordT op l a d) = d := by
  ext i hi; simp [dataT, wordT]; grind

end FormatT

/-- A format-T word whose RSV field is 0 is determined by its other four fields. -/
theorem wordT_fields {w : BitVec 32} (h : rsvT w = 0) : wordT (opT w) (laneT w) (addrT w) (dataT w) = w := by
  have h' : ∀ i, (rsvT w).getLsbD i = false := by simp [h]
  have h0 := h' 0
  have h1 := h' 1
  ext i hi
  simp [opT, laneT, rsvT, addrT, dataT, wordT] at *
  grind

/-! ### What the format-T decoder accepts -/

/-- The fields of a format-T word as parts of its number. -/
theorem fieldsT_toNat (w : BitVec 32) :
    (opT w).toNat = w.toNat / 2 ^ 28 ∧ (laneT w).toNat = w.toNat / 2 ^ 26 % 4 ∧ (rsvT w).toNat = w.toNat / 2 ^ 24 % 4 ∧
      (addrT w).toNat = w.toNat / 2 ^ 8 % 2 ^ 16 ∧ (dataT w).toNat = w.toNat % 2 ^ 8 := by
  have := w.isLt
  simp only [opT, laneT, rsvT, addrT, dataT, BitVec.extractLsb'_toNat, Nat.shiftRight_eq_div_pow]
  exact ⟨by omega, trivial, trivial, trivial, by omega⟩

/-- The fields of a format-R word as parts of its number. -/
theorem fieldsR_toNat (w : BitVec 40) :
    (opR w).toNat = w.toNat / 2 ^ 36 ∧ (laneR w).toNat = w.toNat / 2 ^ 34 % 4 ∧ (kindR w).toNat = w.toNat / 2 ^ 30 % 16 ∧
      (regionR w).toNat = w.toNat / 2 ^ 26 % 16 ∧ (rsvR w).toNat = w.toNat / 2 ^ 24 % 4 ∧
      (offsetR w).toNat = w.toNat / 2 ^ 8 % 2 ^ 16 ∧ (dataR w).toNat = w.toNat % 2 ^ 8 := by
  have := w.isLt
  simp only [opR, laneR, kindR, regionR, rsvR, offsetR, dataR, BitVec.extractLsb'_toNat, Nat.shiftRight_eq_div_pow]
  exact ⟨by omega, trivial, trivial, trivial, trivial, trivial, by omega⟩

/-- When items 4 to 7 of R51 refuse a word. -/
theorem mustBeZeroT_iff (w : BitVec 32) :
    mustBeZeroT w = true ↔
      ((opT w).toNat = 0 ∧ dataT w ≠ 0) ∨
      ((opT w).toNat = 2 ∧ (laneT w ≠ 0 ∨ addrT w ≠ 0 ∨ (dataT w).extractLsb' 1 7 ≠ 0)) ∨
      (3 ≤ (opT w).toNat ∧ (laneT w ≠ 0 ∨ addrT w ≠ 0 ∨ dataT w ≠ 0)) := by
  unfold mustBeZeroT
  generalize (opT w).toNat = n
  generalize laneT w = l
  generalize addrT w = a
  generalize dataT w = d
  generalize BitVec.extractLsb' 1 7 d = e
  split <;> simp [or_assoc]
  rename_i h0 h1 h2
  simp [show 3 ≤ n by have : n ≠ 0 := h0; have : n ≠ 1 := h1; have : n ≠ 2 := h2; omega, show ¬n = 0 from h0,
    show ¬n = 2 from h2]

/-- What is true of a format-T word that decodes, and which transaction it decodes to. -/
theorem decodeT_ok {addrW : Nat} {w : BitVec 32} {i : Instr} (h : decodeT addrW w = .ok i) :
    rsvT w = 0 ∧ mustBeZeroT w = false ∧ (addrT w).toNat < 2 ^ addrW ∧
      ((∃ l : Lane, opT w = 0 ∧ laneT w = l.bits ∧ i = .busRd l (addrT w)) ∨
       (∃ l : Lane, opT w = 1 ∧ laneT w = l.bits ∧ i = .busWr l (addrT w) (dataT w)) ∨
       (opT w = 2 ∧ i = .chipDone ((dataT w).extractLsb' 0 1)) ∨ (opT w = 3 ∧ i = .frame) ∨ (opT w = 4 ∧ i = .reset)) := by
  unfold decodeT at h
  split at h; · exact nomatch h
  split at h; · exact nomatch h
  split at h; · exact nomatch h
  rename_i h3
  split at h; · exact nomatch h
  rename_i h4
  split at h; · exact nomatch h
  refine ⟨Decidable.not_not.1 h3, by simpa using h4, by omega, ?_⟩
  split at h
  · rename_i l ho hl
    exact .inl ⟨l, BitVec.eq_of_toNat_eq ho, (laneOfBits_some hl).symm, (Except.ok.inj h).symm⟩
  · rename_i l ho hl
    exact .inr (.inl ⟨l, BitVec.eq_of_toNat_eq ho, (laneOfBits_some hl).symm, (Except.ok.inj h).symm⟩)
  · rename_i ho
    exact .inr (.inr (.inl ⟨BitVec.eq_of_toNat_eq ho, (Except.ok.inj h).symm⟩))
  · rename_i ho
    exact .inr (.inr (.inr (.inl ⟨BitVec.eq_of_toNat_eq ho, (Except.ok.inj h).symm⟩)))
  · rename_i ho
    exact .inr (.inr (.inr (.inr ⟨BitVec.eq_of_toNat_eq ho, (Except.ok.inj h).symm⟩)))
  · exact nomatch h

/-- The transaction of a word built from fields that pass R51's checks. -/
theorem decodeT_wordT {addrW : Nat} {op : BitVec 4} {l : BitVec 2} {a : Addr} {d : Byte}
    (ho : op.toNat < 5) (hl : ¬(op.toNat ≤ 1 ∧ l = 3)) (hz : mustBeZeroT (wordT op l a d) = false)
    (ha : a.toNat < 2 ^ addrW) :
    decodeT addrW (wordT op l a d) = match op.toNat, laneOfBits l with
      | 0, some l => .ok (.busRd l a)
      | 1, some l => .ok (.busWr l a d)
      | 2, _ => .ok (.chipDone (d.extractLsb' 0 1))
      | 3, _ => .ok .frame
      | 4, _ => .ok .reset
      | _, _ => .error .reservedOp := by
  unfold decodeT
  rw [opT_wordT, laneT_wordT, rsvT_wordT, addrT_wordT, dataT_wordT, if_neg (by omega), if_neg hl, if_neg (by simp),
    if_neg (by simp [hz]), if_neg (by omega)] <;> rfl

/-- A byte whose upper seven bits are 0 is its bit 0. -/
theorem low_bit {d : Byte} (h : d.extractLsb' 1 7 = 0) : (d.extractLsb' 0 1).setWidth 8 = d := by
  revert d; decide

/-! ### Format R -/

section FormatR
variable (r : Routed)

@[simp] theorem opR_wordR : opR (wordR r) = r.op.bits := by
  ext i hi; simp [opR, wordR]; grind

@[simp] theorem laneR_wordR : laneR (wordR r) = r.lane.bits := by
  ext i hi; simp [laneR, wordR]; grind

@[simp] theorem kindR_wordR : kindR (wordR r) = r.kind.bits := by
  ext i hi; simp [kindR, wordR]; grind

@[simp] theorem regionR_wordR : regionR (wordR r) = r.region := by
  ext i hi; simp [regionR, wordR]; grind

@[simp] theorem rsvR_wordR : rsvR (wordR r) = 0 := by
  ext i hi; simp [rsvR, wordR]; grind

@[simp] theorem offsetR_wordR : offsetR (wordR r) = r.offset := by
  ext i hi; simp [offsetR, wordR]; grind

@[simp] theorem dataR_wordR : dataR (wordR r) = r.data := by
  ext i hi; simp [dataR, wordR]; grind

end FormatR

/-- The fields of the format-R word of a routed access are the access. -/
@[simp] theorem fieldsR_wordR (r : Routed) : fieldsR (wordR r) = some r := by
  rcases r with ⟨op, l, k, reg, off, d⟩
  cases op <;> simp [fieldsR, RW.bits]

/-- A format-R word that has fields is the word of those fields. -/
theorem wordR_of_fieldsR {w : BitVec 40} {r : Routed} (h : fieldsR w = some r) : wordR r = w := by
  have key : rsvR w = 0 → opR w ++ laneR w ++ kindR w ++ regionR w ++ 0#2 ++ offsetR w ++ dataR w = w := by
    intro h
    have h' : ∀ i, (rsvR w).getLsbD i = false := by simp [h]
    have h0 := h' 0
    have h1 := h' 1
    ext i hi
    simp [opR, laneR, kindR, regionR, rsvR, offsetR, dataR] at *
    grind
  unfold fieldsR at h
  split at h
  · rename_i l k hl hk
    have hl := laneOfBits_some hl
    have hk := kindOfBits_some hk
    split at h
    · simp at h
    · rename_i hz
      have hz : rsvR w = 0 := by simpa using hz
      split at h
      · rename_i ho
        cases h
        simpa [wordR, RW.bits, ho, hl, hk] using key hz
      · split at h
        · rename_i ho
          cases h
          simpa [wordR, RW.bits, ho, hl, hk] using key hz
        · simp at h
  · simp at h

/-- The routed access that a format-R operation stands for; a format-T transaction stands for none. -/
def Instr.routed : Instr → Option Routed
  | .busRd _ _ => none
  | .busWr _ _ _ => none
  | .chipDone _ => none
  | .frame => none
  | .reset => none
  | .romRd l r off => some ⟨.rd, l, .rom, r, off, 0⟩
  | .romWr l r off d => some ⟨.wr, l, .rom, r, off, d⟩
  | .ramRd l r off => some ⟨.rd, l, .ram, r, off, 0⟩
  | .ramWr l r off d => some ⟨.wr, l, .ram, r, off, d⟩
  | .shrRd l r off => some ⟨.rd, l, .shared, r, off, 0⟩
  | .shrWr l r off d => some ⟨.wr, l, .shared, r, off, d⟩
  | .dfltRd l off => some ⟨.rd, l, .dflt, 0, off, 0⟩
  | .dfltWr l off d => some ⟨.wr, l, .dflt, 0, off, d⟩
  | .hflagRd l off => some ⟨.rd, l, .hardflag, 0, off, 0⟩
  | .hflagWr l off d => some ⟨.wr, l, .hardflag, 0, off, d⟩
  | .dbSelfRd l off => some ⟨.rd, l, .dbSelf, 0, off, 0⟩
  | .dbSelfWr l off d => some ⟨.wr, l, .dbSelf, 0, off, d⟩
  | .dbPeerRd l off => some ⟨.rd, l, .dbPeer, 0, off, 0⟩
  | .dbPeerWr l off d => some ⟨.wr, l, .dbPeer, 0, off, d⟩
  | .sndMboxRd l off => some ⟨.rd, l, .sndMbox, 0, off, 0⟩
  | .sndMboxWr l off d => some ⟨.wr, l, .sndMbox, 0, off, d⟩
  | .sndRegRd l off => some ⟨.rd, l, .sndReg, 0, off, 0⟩
  | .sndRegWr l off d => some ⟨.wr, l, .sndReg, 0, off, d⟩
  | .inpRd l p0 off => some ⟨.rd, l, .inport, p0, off, 0⟩
  | .inpWr l p0 off d => some ⟨.wr, l, .inport, p0, off, d⟩
  | .chipRd l dev off => some ⟨.rd, l, .ext, dev, off, 0⟩
  | .chipWr l dev off d => some ⟨.wr, l, .ext, dev, off, d⟩

/-- A format-R operation is encoded as the word of its routed access. -/
theorem encode_routed {i : Instr} {r : Routed} (h : i.routed = some r) : encode i = .r (wordR r) := by
  cases i <;> simp_all [Instr.routed, encode]

/-- A format-R operation is the one its routed access stands for. -/
theorem toInstr_routed {i : Instr} {r : Routed} (h : i.routed = some r) : r.toInstr = i := by
  cases i <;> cases h <;> rfl

/-- A format-R operation and its routed access have no operand condition beyond the zeros of R50. -/
theorem wellFormed_routed {i : Instr} {r : Routed} (addrW : Nat) (h : i.routed = some r) :
    r.wellFormed = true ∧ i.wellFormed addrW = true := by
  cases i <;> cases h <;> simp [Routed.wellFormed, Instr.wellFormed, Kind.usesRegion]

/-- The KIND code of a handler kind is no reserved one. -/
theorem kind_bits_lt (k : Kind) : ¬11 ≤ k.bits.toNat := by cases k <;> decide

/-- The word of a well-formed routed access decodes to its operation. -/
theorem decode_wordR {addrW : Nat} {r : Routed} (h : r.wellFormed = true) :
    decode addrW (.r (wordR r)) = .ok r.toInstr := by
  simp only [decode, decodeR, kindR_wordR, kind_bits_lt, fieldsR_wordR, h, if_true, if_false]

/-- The three answers to a format-R word: RF7, an operation, whose word it is, or no word of format R. -/
theorem decodeR_cases (w : BitVec 40) :
    (11 ≤ (kindR w).toNat ∧ decodeR w = .error (.refused .reservedKind)) ∨
    (∃ r : Routed, r.wellFormed = true ∧ wordR r = w ∧ decodeR w = .ok r.toInstr) ∨
    (¬11 ≤ (kindR w).toNat ∧ (∀ r : Routed, r.wellFormed = true → wordR r ≠ w) ∧ decodeR w = .error .notRouted) := by
  unfold decodeR
  split
  · rename_i h; exact .inl ⟨h, rfl⟩
  · rename_i hk
    split
    · rename_i r hf
      split
      · rename_i hw; exact .inr (.inl ⟨r, hw, wordR_of_fieldsR hf, rfl⟩)
      · rename_i hw
        refine .inr (.inr ⟨hk, fun r' hw' he => hw ?_, rfl⟩)
        rw [← he, fieldsR_wordR, Option.some.injEq] at hf
        exact hf ▸ hw'
    · rename_i hf
      refine .inr (.inr ⟨hk, fun r' _ he => ?_, rfl⟩)
      rw [← he, fieldsR_wordR] at hf
      exact nomatch hf

/-- The routed access of a well-formed access's operation is the access itself. -/
theorem routed_toInstr {r : Routed} (h : r.wellFormed = true) : r.toInstr.routed = some r := by
  rcases r with ⟨op, l, k, reg, off, d⟩
  cases op <;> cases k <;> simp_all [Routed.wellFormed, Routed.toInstr, Instr.routed, Kind.usesRegion]

end Sys2Proof
end

