-- ==== Sys2Proof/Laws/Frame.lean ====
section
/-! SUPPORT. Laws/Frame.lean: what a FRAME does, said once. -/

namespace Sys2Proof.Machine

/-- DIRTY and SCRATCH after the tile walk of a FRAME. -/
abbrev walked (s : State) : List DirtySlot × Surface := tileWalk s.profile (vramByte s) (s.dirty, s.scratch)

/-- FRAME answers, and everything it leaves (R121). -/
theorem exec_frame (s : State) :
    ∃ t, exec .frame s = .next t ∧ t.dirty = (walked s).1 ∧ t.scratch = (walked s).2 ∧
      t.frame = spritePasses s.profile (vramByte s) (transparentPens s.profile (!s.shadow))
        (scrolledCopy s.profile (vramByte s) (walked s).2) ∧
      t = { s with shadow := !s.shadow, dirty := t.dirty, scratch := t.scratch, frame := t.frame,
                   out := some ⟨none, [.frameOut]⟩ } :=
  ⟨_, rfl, rfl, rfl, rfl, rfl⟩

/-- The bytes of VRAM depend on the profile and the memory only. -/
theorem vramByte_congr {s t : State} (hp : t.profile = s.profile) (hm : t.mem = s.mem) : vramByte t = vramByte s := by
  funext off
  simp [vramByte, readBank, hp, hm]

/-- No routed access moves SHADOW. -/
theorem multiplex_shadow {r : Routed} {s t : State} (h : multiplex r s = .next t) : t.shadow = s.shadow := by
  rcases r with ⟨op, l, k, reg, off, d⟩
  cases k <;> cases op <;>
    simp only [multiplex, execRomRd, execRamRd, execShrRd, execDfltRd, execRamWr, execShrWr, execDfltWr, bankRead,
      bankWrite, execDbSelfRd, execDbSelfWr, execDbPeerRd, execDbPeerWr, execInpRd, execInpWr, rotaryTransform] at h <;>
    (try split at h) <;> cases h <;> simp <;> (try split) <;> simp

/-- SHADOW flips exactly at FRAME (R121, R25). -/
theorem exec_shadow {i : Instr} {s t : State} (h : exec i s = .next t) : t.shadow = (s.shadow ^^ decide (i = .frame)) := by
  cases hr : i.routed with
  | some r =>
    have hi : i ≠ .frame := by rintro rfl; simp [Instr.routed] at hr
    rw [← toInstr_routed hr, ← multiplex_eq_exec] at h
    simp [multiplex_shadow h, hi]
  | none =>
    cases i <;> simp only [Instr.routed, reduceCtorEq] at hr
    · simp [multiplex_shadow h]
    · simp [multiplex_shadow h]
    · cases h; simp
    · cases h; simp
    · cases h; simp

end Sys2Proof.Machine
end

