-- ==== Sys2Proof/Laws/Input.lean ====
section
/-! SUPPORT. Laws/Input.lean: the input transforms as arithmetic on the byte, and the port of an access. -/

namespace Sys2Proof.Machine

/-- The port of an access that reaches one. -/
theorem portOf_eq {firstPort : RegionId} {off : Addr} {port : Fin 12} (h : port.val = firstPort.toNat + off.toNat) :
    portOf firstPort off = some port := by
  unfold portOf
  rw [dif_pos (by omega)]
  exact congrArg some (Fin.ext h.symm)

/-- No port beyond the 12. -/
theorem portOf_none {firstPort : RegionId} {off : Addr} (h : 12 ≤ firstPort.toNat + off.toNat) :
    portOf firstPort off = none := by
  unfold portOf
  rw [dif_neg (by omega)]

/-- The busy injection, condition and mask written out (R117). -/
theorem injectBusy_eq (l : Lane) (port : Fin 12) (v : Byte) (s : State) :
    injectBusy l port v s = if port = s.profile.busyPort ∧ l ≠ .s ∧ s.srs.getLsbD 2 = false
      then v &&& ~~~s.profile.soundBusyBit else v := by
  unfold injectBusy srsBusy clearBusy
  cases l <;> simp [Lane.main?]

/-- The dial is the upper nibble. -/
theorem dial_toNat (raw : Byte) : (dial raw).toNat = raw.toNat / 16 := by
  have := raw.isLt
  simp only [dial, BitVec.extractLsb'_toNat, Nat.shiftRight_eq_div_pow]
  omega

/-- The code goes in the upper nibble, the raw low nibble stays. -/
theorem withCode_toNat (code : Nibble) (raw : Byte) : (withCode code raw).toNat = 16 * code.toNat + raw.toNat % 16 := by
  unfold withCode
  rw [BitVec.toNat_append, ← Nat.shiftLeft_add_eq_or_of_lt (by exact BitVec.isLt _), Nat.shiftLeft_eq]
  simp only [BitVec.extractLsb'_toNat, Nat.shiftRight_zero]
  omega

end Sys2Proof.Machine
end

