-- ==== Sys2Proof/Laws/PerInstr.lean ====
section
/-! SUPPORT. Laws/PerInstr.lean: the family of statements made for each constructor of `Instr`. `TableRow`: the word that
the encoder builds has the fixed bits of the operation's row of spec/opcode_table.json. -/

namespace Sys2Proof.Laws.TableRow

/-- A format-T word meets a row: under the mask of OP it is the row's match. -/
def rowT (w : Packet) (pattern : BitVec 32) : Prop := ∃ v, w = .t v ∧ v &&& 0xF0000000 = pattern

/-- A format-R word meets a row: under the mask of OP and KIND it is the row's match. -/
def rowR (w : Packet) (pattern : BitVec 40) : Prop := ∃ v, w = .r v ∧ v &&& 0xF3C0000000 = pattern

/-- The word of an operation meets the operation's row of spec/opcode_table.json. -/
def Statement (i : Instr) : Prop :=
  match i with
  | .busRd _ _ => rowT (encode i) 0x00000000
  | .busWr _ _ _ => rowT (encode i) 0x10000000
  | .chipDone _ => rowT (encode i) 0x20000000
  | .frame => rowT (encode i) 0x30000000
  | .reset => rowT (encode i) 0x40000000
  | .romRd _ _ _ => rowR (encode i) 0x0000000000
  | .romWr _ _ _ _ => rowR (encode i) 0x1000000000
  | .ramRd _ _ _ => rowR (encode i) 0x0040000000
  | .ramWr _ _ _ _ => rowR (encode i) 0x1040000000
  | .shrRd _ _ _ => rowR (encode i) 0x0080000000
  | .shrWr _ _ _ _ => rowR (encode i) 0x1080000000
  | .dfltRd _ _ => rowR (encode i) 0x00C0000000
  | .dfltWr _ _ _ => rowR (encode i) 0x10C0000000
  | .hflagRd _ _ => rowR (encode i) 0x0100000000
  | .hflagWr _ _ _ => rowR (encode i) 0x1100000000
  | .dbSelfRd _ _ => rowR (encode i) 0x0140000000
  | .dbSelfWr _ _ _ => rowR (encode i) 0x1140000000
  | .dbPeerRd _ _ => rowR (encode i) 0x0180000000
  | .dbPeerWr _ _ _ => rowR (encode i) 0x1180000000
  | .sndMboxRd _ _ => rowR (encode i) 0x01C0000000
  | .sndMboxWr _ _ _ => rowR (encode i) 0x11C0000000
  | .sndRegRd _ _ => rowR (encode i) 0x0200000000
  | .sndRegWr _ _ _ => rowR (encode i) 0x1200000000
  | .inpRd _ _ _ => rowR (encode i) 0x0240000000
  | .inpWr _ _ _ _ => rowR (encode i) 0x1240000000
  | .chipRd _ _ _ => rowR (encode i) 0x0280000000
  | .chipWr _ _ _ _ => rowR (encode i) 0x1280000000

theorem maskT_bit : ∀ i : Fin 32, (0xF0000000#32)[i] = decide (28 ≤ i.val) := by decide

theorem maskR_bit : ∀ i : Fin 40, (0xF3C0000000#40)[i] = decide (36 ≤ i.val ∨ 30 ≤ i.val ∧ i.val < 34) := by decide

theorem wordT_masked (op : BitVec 4) (l : BitVec 2) (a : Addr) (d : Byte) :
    wordT op l a d &&& 0xF0000000 = op ++ 0#28 := by
  ext i hi
  have h := maskT_bit ⟨i, hi⟩
  simp [wordT] at *
  grind

theorem wordR_masked (r : Routed) :
    wordR r &&& 0xF3C0000000 = r.op.bits ++ 0#2 ++ r.kind.bits ++ 0#30 := by
  ext i hi
  have h := maskR_bit ⟨i, hi⟩
  simp [wordR] at *
  grind

theorem busRd (l : Lane) (a : Addr) : Statement (.busRd l a) :=
  ⟨_, rfl, by rw [wordT_masked]; decide⟩
theorem busWr (l : Lane) (a : Addr) (d : Byte) : Statement (.busWr l a d) :=
  ⟨_, rfl, by rw [wordT_masked]; decide⟩
theorem chipDone (c : BitVec 1) : Statement (.chipDone c) :=
  ⟨_, rfl, by rw [wordT_masked]; decide⟩
theorem frame : Statement .frame :=
  ⟨_, rfl, by rw [wordT_masked]; decide⟩
theorem reset : Statement .reset :=
  ⟨_, rfl, by rw [wordT_masked]; decide⟩
theorem romRd (l : Lane) (r : RegionId) (o : Addr) : Statement (.romRd l r o) :=
  ⟨_, rfl, by rw [wordR_masked]; simp only [RW.bits, Kind.bits]; decide⟩
theorem romWr (l : Lane) (r : RegionId) (o : Addr) (d : Byte) : Statement (.romWr l r o d) :=
  ⟨_, rfl, by rw [wordR_masked]; simp only [RW.bits, Kind.bits]; decide⟩
theorem ramRd (l : Lane) (r : RegionId) (o : Addr) : Statement (.ramRd l r o) :=
  ⟨_, rfl, by rw [wordR_masked]; simp only [RW.bits, Kind.bits]; decide⟩
theorem ramWr (l : Lane) (r : RegionId) (o : Addr) (d : Byte) : Statement (.ramWr l r o d) :=
  ⟨_, rfl, by rw [wordR_masked]; simp only [RW.bits, Kind.bits]; decide⟩
theorem shrRd (l : Lane) (r : RegionId) (o : Addr) : Statement (.shrRd l r o) :=
  ⟨_, rfl, by rw [wordR_masked]; simp only [RW.bits, Kind.bits]; decide⟩
theorem shrWr (l : Lane) (r : RegionId) (o : Addr) (d : Byte) : Statement (.shrWr l r o d) :=
  ⟨_, rfl, by rw [wordR_masked]; simp only [RW.bits, Kind.bits]; decide⟩
theorem dfltRd (l : Lane) (o : Addr) : Statement (.dfltRd l o) :=
  ⟨_, rfl, by rw [wordR_masked]; simp only [RW.bits, Kind.bits]; decide⟩
theorem dfltWr (l : Lane) (o : Addr) (d : Byte) : Statement (.dfltWr l o d) :=
  ⟨_, rfl, by rw [wordR_masked]; simp only [RW.bits, Kind.bits]; decide⟩
theorem hflagRd (l : Lane) (o : Addr) : Statement (.hflagRd l o) :=
  ⟨_, rfl, by rw [wordR_masked]; simp only [RW.bits, Kind.bits]; decide⟩
theorem hflagWr (l : Lane) (o : Addr) (d : Byte) : Statement (.hflagWr l o d) :=
  ⟨_, rfl, by rw [wordR_masked]; simp only [RW.bits, Kind.bits]; decide⟩
theorem dbSelfRd (l : Lane) (o : Addr) : Statement (.dbSelfRd l o) :=
  ⟨_, rfl, by rw [wordR_masked]; simp only [RW.bits, Kind.bits]; decide⟩
theorem dbSelfWr (l : Lane) (o : Addr) (d : Byte) : Statement (.dbSelfWr l o d) :=
  ⟨_, rfl, by rw [wordR_masked]; simp only [RW.bits, Kind.bits]; decide⟩
theorem dbPeerRd (l : Lane) (o : Addr) : Statement (.dbPeerRd l o) :=
  ⟨_, rfl, by rw [wordR_masked]; simp only [RW.bits, Kind.bits]; decide⟩
theorem dbPeerWr (l : Lane) (o : Addr) (d : Byte) : Statement (.dbPeerWr l o d) :=
  ⟨_, rfl, by rw [wordR_masked]; simp only [RW.bits, Kind.bits]; decide⟩
theorem sndMboxRd (l : Lane) (o : Addr) : Statement (.sndMboxRd l o) :=
  ⟨_, rfl, by rw [wordR_masked]; simp only [RW.bits, Kind.bits]; decide⟩
theorem sndMboxWr (l : Lane) (o : Addr) (d : Byte) : Statement (.sndMboxWr l o d) :=
  ⟨_, rfl, by rw [wordR_masked]; simp only [RW.bits, Kind.bits]; decide⟩
theorem sndRegRd (l : Lane) (o : Addr) : Statement (.sndRegRd l o) :=
  ⟨_, rfl, by rw [wordR_masked]; simp only [RW.bits, Kind.bits]; decide⟩
theorem sndRegWr (l : Lane) (o : Addr) (d : Byte) : Statement (.sndRegWr l o d) :=
  ⟨_, rfl, by rw [wordR_masked]; simp only [RW.bits, Kind.bits]; decide⟩
theorem inpRd (l : Lane) (r : RegionId) (o : Addr) : Statement (.inpRd l r o) :=
  ⟨_, rfl, by rw [wordR_masked]; simp only [RW.bits, Kind.bits]; decide⟩
theorem inpWr (l : Lane) (r : RegionId) (o : Addr) (d : Byte) : Statement (.inpWr l r o d) :=
  ⟨_, rfl, by rw [wordR_masked]; simp only [RW.bits, Kind.bits]; decide⟩
theorem chipRd (l : Lane) (r : RegionId) (o : Addr) : Statement (.chipRd l r o) :=
  ⟨_, rfl, by rw [wordR_masked]; simp only [RW.bits, Kind.bits]; decide⟩
theorem chipWr (l : Lane) (r : RegionId) (o : Addr) (d : Byte) : Statement (.chipWr l r o d) :=
  ⟨_, rfl, by rw [wordR_masked]; simp only [RW.bits, Kind.bits]; decide⟩

end Sys2Proof.Laws.TableRow
end

