-- ==== Sys2Proof/Laws/Profile.lean ====
section
/-! SUPPORT. Laws/Profile.lean: the region that an id names in a profile, and counting the lanes that see it. -/

namespace Sys2Proof.Machine

/-- The region that an id names is one of the profile's, under that id. -/
theorem mem_of_findRegion {p : Profile} {id : RegionId} {r : Region} (h : findRegion p id = some r) :
    r ∈ p.regions ∧ r.id = id :=
  ⟨List.mem_of_find?_eq_some h, by simpa using List.find?_some h⟩

/-- Where ids are unique, a region of the profile is the one that its id names. -/
theorem findRegion_of_mem {p : Profile} (hn : (p.regions.map (fun r => r.id)).Nodup) {r : Region} (hr : r ∈ p.regions) :
    findRegion p r.id = some r := by
  unfold findRegion
  generalize p.regions = l at hn hr
  induction l with
  | nil => exact nomatch hr
  | cons x l ih =>
    simp only [List.map_cons, List.nodup_cons, List.mem_map, not_exists, not_and] at hn
    rcases List.mem_cons.1 hr with rfl | hr
    · simp
    · have hx : (x.id == r.id) = false := by simpa using fun h => hn.1 r hr h.symm
      rw [List.find?_cons, hx]
      exact ih hn.2 hr

/-- At least two lanes are counted exactly where two different ones are listed. -/
theorem two_le_laneCount (v : List Lane) : 2 ≤ laneCount v ↔ ∃ l₁ ∈ v, ∃ l₂ ∈ v, l₁ ≠ l₂ := by
  unfold laneCount
  simp only [List.contains_iff_mem]
  constructor
  · intro h
    by_cases ha : Lane.a ∈ v
    · by_cases hb : Lane.b ∈ v
      · exact ⟨.a, ha, .b, hb, by decide⟩
      · by_cases hs : Lane.s ∈ v
        · exact ⟨.a, ha, .s, hs, by decide⟩
        · simp [ha, hb, hs] at h
    · by_cases hb : Lane.b ∈ v <;> by_cases hs : Lane.s ∈ v <;> simp [ha, hb, hs] at h
      exact ⟨.b, hb, .s, hs, by decide⟩
  · rintro ⟨l₁, h₁, l₂, h₂, hne⟩
    cases l₁ <;> cases l₂ <;> first | exact absurd rfl hne | (simp only [h₁, h₂, if_true]; split <;> omega)

end Sys2Proof.Machine
end

