-- ==== Sys2Proof/Tests/Slice0.lean ====
section
/-! SUPPORT. Tests/Slice0.lean: the model's own tests. Expected results come from spec/95_test_vectors.md, from the
examples of the rules, or from a hand reading of the encoding tables; each test names its source. At the end stands one
witness for every obligation that has hypotheses. -/

set_option Elab.async false

namespace Sys2Proof.Tests
open Sys2Proof.Machine

/-! ### Helpers -/

/-- The state that one step leaves. -/
def after (s : State) : Option State :=
  match step s with
  | .next t => some t
  | .fault _ => none
  | .refused _ => none

/-- A state presented with one format-T word. -/
def given (w : BitVec 32) (s : State) : State := { s with inbox := [.t w] }

/-- A state presented with one format-R word. -/
def givenR (w : BitVec 40) (s : State) : State := { s with inbox := [.r w] }

/-- S0 of 95_test_vectors.md. -/
abbrev s0 : State := State.reset

/-- S0 with the doorbell bits of the lanes A and B. -/
def doors (a b : Doorbell) : State := { s0 with doorA := a, doorB := b }

/-- S0 with SRS and MAILBOX. -/
def sound (srs : Nibble) (mailbox : Byte) : State := { s0 with srs := srs, mailbox := mailbox }

def idleDoor : Doorbell := ⟨false, false⟩
def armedDoor : Doorbell := ⟨true, false⟩
def queuedDoor : Doorbell := ⟨false, true⟩

/-- What two responses and doorbells are, for the doorbell vectors. -/
def doorView (s : State) : Option Response × Doorbell × Doorbell := (s.out, s.doorA, s.doorB)

/-- The response, SRS and MAILBOX, for the sound vectors. -/
def soundView (s : State) : Option Response × Nibble × Byte := (s.out, s.srs, s.mailbox)

/-- The response and the memory. -/
def memView (s : State) : Option Response × List Host.Cell := (s.out, s.mem)

/-! ### WellFormed: each check refuses an ill-formed term -/

theorem test_wf_busRd_addr : (Instr.busRd .a 0x8000).wellFormed 15 = false ∧ (Instr.busRd .a 0x7FFF).wellFormed 15 = true := by
  decide
theorem test_wf_busWr_addr : (Instr.busWr .s 0x8000 0).wellFormed 15 = false ∧ (Instr.busWr .s 0x8000 0).wellFormed 16 = true := by
  decide
theorem test_wf_routed_region : (Routed.mk .rd .a .dflt 1 0 0).wellFormed = false ∧
    (Routed.mk .rd .a .ext 1 0 0).wellFormed = true := by decide
theorem test_wf_routed_data : (Routed.mk .rd .a .rom 0 0 1).wellFormed = false ∧
    (Routed.mk .wr .a .rom 0 0 1).wellFormed = true := by decide

/-! ### Well-formed profiles: EX is one (95_test_vectors.md 0), and each check of R87, R101, R114 refuses a variant -/

theorem test_profile_ex : wfProfile exProfile = true := by decide +kernel

theorem test_profile_ranges :
    wfRanges { exProfile with gridW := 0 } = false ∧ wfRanges { exProfile with gridH := 0 } = false ∧
    wfRanges { exProfile with visW := 0 } = false ∧ wfRanges { exProfile with visH := 0 } = false ∧
    wfRanges { exProfile with layers := [{ exLayer with count := 0 }] } = false := by decide

theorem test_profile_regions :
    wfRegions { exProfile with regions := ⟨0, 1, .ram, [.b]⟩ :: exRegions } = false ∧
    wfRegions { exProfile with regions := ⟨9, 0, .ram, [.b]⟩ :: exRegions } = false ∧
    wfRegions { exProfile with regions := ⟨9, 0x10001, .ram, [.b]⟩ :: exRegions } = false ∧
    wfRegions { exProfile with regions := ⟨9, 0x10000, .ram, [.b]⟩ :: exRegions } = true := by decide

/-- Items 2 to 5 of R87. -/
theorem test_profile_entries :
    wfEntry exProfile .a ⟨5, 4, .ext, 0⟩ = false ∧ wfEntry exProfile .a ⟨5, 0x10000, .ext, 0⟩ = false ∧
    wfEntry exProfile .a ⟨5, 5, .dflt, 0⟩ = false ∧
    wfEntry exProfile .a ⟨5, 5, .rom, 1⟩ = false ∧ wfEntry exProfile .a ⟨5, 5, .rom, 3⟩ = false ∧
    wfEntry exProfile .a ⟨5, 5, .rom, 15⟩ = false ∧
    wfEntry exProfile .a ⟨5, 5, .ram, 0⟩ = false ∧ wfEntry exProfile .a ⟨5, 5, .ram, 4⟩ = false ∧
    wfEntry exProfile .s ⟨5, 5, .shared, 4⟩ = false ∧ wfEntry exProfile .s ⟨5, 5, .shared, 1⟩ = false := by decide

/-- Items 6 to 8 of R87. -/
theorem test_profile_io_entries :
    wfEntry exProfile .s ⟨5, 5, .dbSelf, 0⟩ = false ∧ wfEntry exProfile .s ⟨5, 5, .dbPeer, 0⟩ = false ∧
    wfEntry exProfile .a ⟨5, 7, .inport, 10⟩ = false ∧ wfEntry exProfile .a ⟨5, 6, .inport, 10⟩ = true ∧
    wfEntry exProfile .a ⟨5, 5, .hardflag, 1⟩ = false ∧ wfEntry exProfile .a ⟨5, 5, .dbSelf, 1⟩ = false ∧
    wfEntry exProfile .a ⟨5, 5, .dbPeer, 1⟩ = false ∧ wfEntry exProfile .a ⟨5, 5, .sndMbox, 1⟩ = false ∧
    wfEntry exProfile .a ⟨5, 5, .sndReg, 1⟩ = false := by decide

/-- R101. -/
theorem test_profile_tiles :
    wfTiles { exProfile with vram := 0 } = false ∧ wfTiles { exProfile with tilemapBase := 0xFF9 } = false ∧
    wfTiles { exProfile with attrBase := 0xFF9 } = false ∧ wfTiles { exProfile with scrollxOff := 0x1000 } = false ∧
    wfTiles { exProfile with scrollyOff := 0x1000 } = false ∧
    wfTiles { exProfile with scrollxExt := some (0x1000, 0) } = false ∧
    wfTiles { exProfile with scrollyExt := some (0x1000, 0) } = false ∧ wfTiles { exProfile with cell := 9 } = false ∧
    wfTiles { exProfile with tcShift := 5 } = false ∧ wfTiles { exProfile with colorXor := 16 } = false ∧
    wfTiles { exProfile with tileCount := 0 } = false ∧ wfTiles { exProfile with tilePens := 0 } = false ∧
    wfTiles { exProfile with tilePens := 3 } = false := by decide +kernel

/-- R114. -/
theorem test_profile_sprites :
    wfSprites { exProfile with layers := [] } = false ∧
    wfSprites { exProfile with layers := [exLayer, exLayer, exLayer] } = false ∧
    wfSprites { exProfile with layers := [{ exLayer with tableBase := 0xFF9 }] } = false ∧
    wfSprites { exProfile with layers := [{ exLayer with size := 24 }] } = false ∧
    wfSprites { exProfile with layers := [{ exLayer with colorBits := 5 }] } = false ∧
    wfSprites { exProfile with layers := [{ exLayer with sprPens := 3 }] } = false ∧
    wfSprites { exProfile with layers := [exLayer, exLayer], layerOrder := (0x1000, 0) } = false ∧
    wfSprites { exProfile with shadowPen := 2 } = false ∧ wfSprites { exProfile with shadowPen := 0 } = false := by
  decide +kernel

/-- R87, R126, R139: an ill-formed profile is refused at power-on, with RF6. -/
theorem test_powerOn_refuses : profileRefusal { exProfile with regions := [] } = some .illFormedProfile ∧
    (State.powerOn { exProfile with regions := [] }).refused = true ∧ profileRefusal exProfile = none := by decide +kernel

/-! ### Decoding: for every constructor a word written out from the encoding tables (R46, R48, R50, opcode_table.json) -/

-- format T: OP, LANE, RSV, ADDR, DATA
theorem test_decode_busRd : decode 16 (.t 0b0000_10_00_0110000000000001_00000000) = .ok (.busRd .s 0x6001) := by rfl
theorem test_decode_busWr : decode 16 (.t 0b0001_01_00_1101100000010000_01110111) = .ok (.busWr .b 0xD810 0x77) := by rfl
theorem test_decode_chipDone : decode 16 (.t 0b0010_00_00_0000000000000000_00000001) = .ok (.chipDone 1) := by rfl
theorem test_decode_frame : decode 16 (.t 0b0011_00_00_0000000000000000_00000000) = .ok .frame := by rfl
theorem test_decode_reset : decode 16 (.t 0b0100_00_00_0000000000000000_00000000) = .ok .reset := by rfl
-- format R: OP, LANE, KIND, REGION, RSV, OFFSET, DATA
theorem test_decode_romRd :
    decode 16 (.r 0b0000_00_0000_0101_00_0101111111111111_00000000) = .ok (.romRd .a 5 0x5FFF) := by rfl
theorem test_decode_romWr :
    decode 16 (.r 0b0001_01_0000_0011_00_0000000000000001_10011001) = .ok (.romWr .b 3 1 0x99) := by rfl
theorem test_decode_ramRd :
    decode 16 (.r 0b0000_10_0001_0100_00_0000011111111111_00000000) = .ok (.ramRd .s 4 0x7FF) := by rfl
theorem test_decode_ramWr :
    decode 16 (.r 0b0001_10_0001_0100_00_0000000000000010_00010010) = .ok (.ramWr .s 4 2 0x12) := by rfl
theorem test_decode_shrRd :
    decode 16 (.r 0b0000_00_0010_0001_00_0000000000010000_00000000) = .ok (.shrRd .a 1 0x10) := by rfl
theorem test_decode_shrWr :
    decode 16 (.r 0b0001_01_0010_0001_00_0000000000010000_01110111) = .ok (.shrWr .b 1 0x10 0x77) := by rfl
theorem test_decode_dfltRd :
    decode 16 (.r 0b0000_00_0011_0000_00_1111100000000000_00000000) = .ok (.dfltRd .a 0xF800) := by rfl
theorem test_decode_dfltWr :
    decode 16 (.r 0b0001_10_0011_0000_00_1111111111111111_00010010) = .ok (.dfltWr .s 0xFFFF 0x12) := by rfl
theorem test_decode_hflagRd :
    decode 16 (.r 0b0000_00_0100_0000_00_0000000000000000_00000000) = .ok (.hflagRd .a 0) := by rfl
theorem test_decode_hflagWr :
    decode 16 (.r 0b0001_01_0100_0000_00_0000000000000011_11111111) = .ok (.hflagWr .b 3 0xFF) := by rfl
theorem test_decode_dbSelfRd :
    decode 16 (.r 0b0000_00_0101_0000_00_0000000000000000_00000000) = .ok (.dbSelfRd .a 0) := by rfl
theorem test_decode_dbSelfWr :
    decode 16 (.r 0b0001_01_0101_0000_00_0000000000000000_10101011) = .ok (.dbSelfWr .b 0 0xAB) := by rfl
theorem test_decode_dbPeerRd :
    decode 16 (.r 0b0000_01_0110_0000_00_0000000000000000_00000000) = .ok (.dbPeerRd .b 0) := by rfl
theorem test_decode_dbPeerWr :
    decode 16 (.r 0b0001_00_0110_0000_00_0000000000000000_01010101) = .ok (.dbPeerWr .a 0 0x55) := by rfl
theorem test_decode_sndMboxRd :
    decode 16 (.r 0b0000_10_0111_0000_00_0000000000000000_00000000) = .ok (.sndMboxRd .s 0) := by rfl
theorem test_decode_sndMboxWr :
    decode 16 (.r 0b0001_00_0111_0000_00_0000000000000000_01000010) = .ok (.sndMboxWr .a 0 0x42) := by rfl
theorem test_decode_sndRegRd :
    decode 16 (.r 0b0000_00_1000_0000_00_0000000000000000_00000000) = .ok (.sndRegRd .a 0) := by rfl
theorem test_decode_sndRegWr :
    decode 16 (.r 0b0001_10_1000_0000_00_0000000000000000_11101111) = .ok (.sndRegWr .s 0 0xEF) := by rfl
theorem test_decode_inpRd :
    decode 16 (.r 0b0000_00_1001_0010_00_0000000000001001_00000000) = .ok (.inpRd .a 2 9) := by rfl
theorem test_decode_inpWr :
    decode 16 (.r 0b0001_01_1001_0000_00_0000000000000011_00000001) = .ok (.inpWr .b 0 3 1) := by rfl
theorem test_decode_chipRd :
    decode 16 (.r 0b0000_10_1010_1111_00_0000000000000001_00000000) = .ok (.chipRd .s 15 1) := by rfl
theorem test_decode_chipWr :
    decode 16 (.r 0b0001_10_1010_0000_00_0000000000000001_00000111) = .ok (.chipWr .s 0 1 7) := by rfl

/-- The refused words of 95_test_vectors.md 2.1. -/
theorem test_decode_refuses :
    decode 16 (.t 0x50000000) = .error (.refused .reservedOp) ∧ decode 16 (.t 0xF0000000) = .error (.refused .reservedOp) ∧
    decode 16 (.t 0x0C000000) = .error (.refused .reservedLane) ∧
    decode 16 (.t 0x01000000) = .error (.refused .reservedField) ∧
    decode 16 (.t 0x00600001) = .error (.refused .fieldNotZero) ∧
    decode 16 (.t 0x20000002) = .error (.refused .fieldNotZero) ∧
    decode 16 (.t 0x34000000) = .error (.refused .fieldNotZero) ∧
    decode 16 (.t 0x40000001) = .error (.refused .fieldNotZero) ∧
    decode 15 (.t 0x00800000) = .error (.refused .addressTooWide) := ⟨rfl, rfl, rfl, rfl, rfl, rfl, rfl, rfl, rfl⟩

/-- R52: KIND 11 and KIND 15, with the other fields in order or not. -/
theorem test_decode_refuses_kind :
    decode 16 (.r 0x02C0000000) = .error (.refused .reservedKind) ∧
    decode 16 (.r 0x03C0000000) = .error (.refused .reservedKind) ∧
    decode 16 (.r 0xFFFFFFFFFF) = .error (.refused .reservedKind) := ⟨rfl, rfl, rfl⟩

/-- R50's other fields: LANE 3, RSV 1, OP 2, DATA on a read, REGION of a kind that has none. -/
theorem test_decode_not_routed :
    decode 16 (.r 0x0C00000000) = .error .notRouted ∧ decode 16 (.r 0x0001000000) = .error .notRouted ∧
    decode 16 (.r 0x2000000000) = .error .notRouted ∧ decode 16 (.r 0x0000000001) = .error .notRouted ∧
    decode 16 (.r 0x00C4000000) = .error .notRouted := ⟨rfl, rfl, rfl, rfl, rfl⟩

/-- The format-R words of 95_test_vectors.md 2.1, that the decoder builds under EX. -/
theorem test_routed_words :
    wordR (routeAccess exProfile .rd .a 0x8010 0) = 0x0084001000 ∧
    wordR (routeAccess exProfile .wr .b 0x7000 0) = 0x1540000000 ∧
    wordR (routeAccess exProfile .rd .a 0x6000 0) = 0x01C0000000 ∧
    wordR (routeAccess exProfile .rd .a 0xD003 0) = 0x0240000300 ∧
    wordR (routeAccess exProfile .wr .s 0xA001 7) = 0x1A80000107 ∧
    wordR (routeAccess exProfile .rd .a 0xF800 0) = 0x00C0F80000 := by decide

/-- The variant of 95_test_vectors.md 2.4: with the bank absent, 0xE000 goes to the default store. -/
theorem test_route_hardflag_absent :
    route { exProfile with hardFlagsEn := false } .a 0xE000 = (.dflt, 0, 0xE000) := by decide

/-- The script lines of R54, and the pseudo-instruction POLL of P2. -/
theorem test_script :
    scriptLine (.busWr .a 0x6000 0x42) = some "WR A, 0x6000, 0x42" ∧ scriptLine (.chipDone 1) = some "DONE 1" ∧
    expand exProfile (.poll .a 1) = some (.busRd .a 0xD001) ∧ expand exProfile (.poll .a 4) = none := by decide

/-- POLL of a port below, at each end of, and beyond the first INPORT entry, with a later entry that would reach it
(notes/assumptions/15.md). -/
theorem test_script_poll_reach :
    [1, 2, 4, 5].map (fun q => expand { exProfile with mapA := [⟨0xD000, 0xD002, .inport, 2⟩, ⟨0xE000, 0xE00B, .inport, 0⟩] }
      (.poll .a q)) = [none, some (.busRd .a 0xD000), some (.busRd .a 0xD002), none] := by decide

/-- The edge of the ADDR field under a 17-bit address (notes/assumptions/14.md): 0xFFFF assembles, 0x10000 does not. -/
theorem test_script_wide_start :
    expand { exProfile with addrW := 17, mapA := [⟨0xFFFF, 0xFFFF, .dbSelf, 0⟩] } (.arm .a) = some (.busWr .a 0xFFFF 0) ∧
    expand { exProfile with addrW := 17, mapA := [⟨0x10000, 0x10000, .dbSelf, 0⟩] } (.arm .a) = none ∧
    expand { exProfile with addrW := 17, mapA := [⟨0xFFFF, 0x10000, .inport, 0⟩] } (.poll .a 0) = some (.busRd .a 0xFFFF) ∧
    expand { exProfile with addrW := 17, mapA := [⟨0xFFFF, 0x10000, .inport, 0⟩] } (.poll .a 1) = none := by decide

/-! ### One step each, from 95_test_vectors.md 1 and 2 -/

/-- 2.3 row 4: the mailbox entry wins over the ROM entry around it. -/
theorem test_busRd_first_match :
    (after (given 0x08600000 (sound 0b1111 0x42))).map soundView = some (some ⟨some 0x42, []⟩, 0, 0) := by decide +kernel
/-- 2.4 row 9: DEF[B] does not alias DEF[A]. -/
theorem test_busRd_default :
    (after (given 0x04F80000 { s0 with mem := [(16 + 32 * 0xF800, 0x12)] })).map (fun s => s.out) =
      some (some ⟨some 0x00, []⟩) := by decide +kernel
/-- 2.4 row 10: a window longer than its region mirrors it; region 1, offset 0x010. -/
theorem test_busWr_mirror :
    (after (given 0x14D81077 s0)).map memView = some (some ⟨none, []⟩, [(1 + 32 * 0x010, 0x77)]) := by decide +kernel
/-- 2.4 row 7. -/
theorem test_busWr_default :
    (after (given 0x10F80012 s0)).map memView = some (some ⟨none, []⟩, [(16 + 32 * 0xF800, 0x12)]) := by decide +kernel
/-- 2.3 row 13. -/
theorem test_chipDone_1 :
    (after (given 0x20000001 (sound 0b1100 9))).map soundView = some (some ⟨none, []⟩, 0b1110, 9) := by decide +kernel
/-- 2.3 row 12: two completions coalesce. -/
theorem test_chipDone_0_again :
    (after (given 0x20000000 (sound 0b0001 9))).map soundView = some (some ⟨none, []⟩, 0b0001, 9) := by decide +kernel
/-- 2.8: RESET keeps memory and SHADOW. -/
theorem test_reset :
    let s := { doors armedDoor queuedDoor with srs := 0b1011, mailbox := 0x42, mem := [(1, 0x5A)], shadow := true }
    (after (given 0x40000000 s)).map doorView = some (some ⟨none, []⟩, idleDoor, idleDoor) ∧
    (after (given 0x40000000 s)).map soundView = some (some ⟨none, []⟩, 0, 0) ∧
    (after (given 0x40000000 s)).map (fun t => (t.mem, t.shadow)) = some ([(1, 0x5A)], true) := by decide +kernel
/-- 2.8: REFUSED is set, nothing else, and RESET keeps it. -/
theorem test_refusal :
    (after (given 0x50000000 (sound 0b1010 7))).map (fun s => (s.refused, soundView s)) =
      some (true, none, 0b1010, 7) ∧
    (after (given 0x40000000 { s0 with refused := true })).map (fun s => s.refused) = some true := by decide +kernel

/-- R52 and R126: KIND 11 sets REFUSED. -/
theorem test_refusal_kind : (after (givenR 0x02C0000000 s0)).map (fun s => (s.refused, s.out)) = some (true, none) := by
  decide +kernel

/-- R63, R126: a directly built doorbell access of lane S is not among the refusals and changes no doorbell bit. -/
theorem test_dbPeerRd_by_s :
    (after (givenR 0b0000_10_0110_0000_00_0000000000000000_00000000 (doors armedDoor idleDoor))).map
      (fun s => (s.refused, doorView s)) = some (false, some ⟨some 0xFF, []⟩, armedDoor, idleDoor) := by decide +kernel

/-- R126: a directly built read beyond its region is not among the refusals; its byte is whatever the outside lists. -/
theorem test_ramRd_beyond :
    (after (givenR 0b0000_10_0001_0100_00_0000100000000000_00000000
      { s0 with answers := [(.absentByte (4 + 32 * 0x800), 0xA5)] })).map (fun s => (s.refused, s.out)) =
      some (false, some ⟨some 0xA5, []⟩) := by decide +kernel

/-- 2.4 row 1. -/
theorem test_romRd :
    (after (givenR 0b0000_00_0000_0000_00_0000000000000000_00000000 s0)).map (fun s => s.out) =
      some (some ⟨some 0x3E, []⟩) := by decide +kernel
/-- 2.4 row 2. -/
theorem test_romWr :
    (after (givenR 0b0001_00_0000_0000_00_0000000000000000_10011001 s0)).map memView = some (some ⟨none, []⟩, []) := by
  decide +kernel
/-- R82, at the last byte of region 4. -/
theorem test_ramRd :
    (after (givenR 0b0000_10_0001_0100_00_0000011111111111_00000000 { s0 with mem := [(4 + 32 * 0x7FF, 0x5A)] })).map
      (fun s => s.out) = some (some ⟨some 0x5A, []⟩) := by decide +kernel
/-- R83: writing what an unlisted address reads as takes the cell away. -/
theorem test_ramWr_zero :
    (after (givenR 0b0001_10_0001_0100_00_0000000000000010_00000000 { s0 with mem := [(4 + 32 * 2, 0x5A)] })).map
      memView = some (some ⟨none, []⟩, []) := by decide +kernel
/-- 2.4 row 11. -/
theorem test_shrRd :
    (after (givenR 0x0084001000 { s0 with mem := [(1 + 32 * 0x010, 0x77)] })).map (fun s => s.out) =
      some (some ⟨some 0x77, []⟩) := by decide +kernel
/-- R83: the later write stays; the cells stay sorted. -/
theorem test_shrWr :
    (after (givenR 0b0001_01_0010_0001_00_0000000000010000_01110111
      { s0 with mem := [(1, 0x5A), (1 + 32 * 0x010, 0x11), (16 + 32 * 0xF800, 0x12)] })).map memView =
      some (some ⟨none, []⟩, [(1, 0x5A), (1 + 32 * 0x010, 0x77), (16 + 32 * 0xF800, 0x12)]) := by decide +kernel
/-- 2.4 row 8. -/
theorem test_dfltRd :
    (after (givenR 0x00C0F80000 { s0 with mem := [(16 + 32 * 0xF800, 0x12)] })).map (fun s => s.out) =
      some (some ⟨some 0x12, []⟩) := by decide +kernel
/-- R84, by lane S. -/
theorem test_dfltWr :
    (after (givenR 0b0001_10_0011_0000_00_1111111111111111_00010010 s0)).map memView =
      some (some ⟨none, []⟩, [(18 + 32 * 0xFFFF, 0x12)]) := by decide +kernel
/-- 2.4 row 5. -/
theorem test_hflagRd : (after (given 0x00E00000 s0)).map (fun s => s.out) = some (some ⟨some 0xFF, []⟩) := by decide +kernel
/-- 2.4 row 6. -/
theorem test_hflagWr : (after (given 0x10E00000 s0)).map memView = some (some ⟨none, []⟩, []) := by decide +kernel

/-- 2.2 row 9. -/
theorem test_dbSelfRd :
    (after (given 0x00F00000 (doors armedDoor armedDoor))).map doorView =
      some (some ⟨some 0xFF, []⟩, armedDoor, armedDoor) := by decide +kernel
/-- 2.2 row 2: the data has no effect, arming twice equals arming once. -/
theorem test_dbSelfWr_arms :
    (after (given 0x10F000AB (doors armedDoor idleDoor))).map doorView =
      some (some ⟨none, []⟩, armedDoor, idleDoor) := by decide +kernel
/-- 2.2 row 3: the queued interrupt is taken and the lane is not armed. -/
theorem test_dbSelfWr_takes :
    (after (given 0x10F00000 (doors queuedDoor idleDoor))).map doorView =
      some (some ⟨none, [.irq .a]⟩, idleDoor, idleDoor) := by decide +kernel
/-- W8a. -/
theorem test_dbPeerRd_interrupts :
    (after (given 0x04700100 (doors armedDoor idleDoor))).map doorView =
      some (some ⟨some 0xFF, [.irq .a]⟩, idleDoor, idleDoor) := by decide +kernel
/-- 2.2 row 11: coalesced, and A's own bit is untouched. -/
theorem test_dbPeerRd_coalesces :
    (after (given 0x00F00100 (doors armedDoor queuedDoor))).map doorView =
      some (some ⟨some 0xFF, []⟩, armedDoor, queuedDoor) := by decide +kernel
/-- 2.2 row 10. -/
theorem test_dbPeerWr :
    (after (given 0x10F00155 (doors idleDoor queuedDoor))).map doorView =
      some (some ⟨none, []⟩, idleDoor, queuedDoor) := by decide +kernel

/-- 2.3 row 4, as a format-R word. -/
theorem test_sndMboxRd :
    (after (givenR 0b0000_10_0111_0000_00_0000000000000000_00000000 (sound 0b1111 0x42))).map soundView =
      some (some ⟨some 0x42, []⟩, 0, 0) := by decide +kernel
/-- 2.3 row 3: zero is posted like any value, and bits 0 and 1 stay. -/
theorem test_sndMboxWr :
    (after (given 0x10600000 (sound 0b0011 0x42))).map soundView = some (some ⟨none, []⟩, 0b1111, 0) := by decide +kernel
/-- 2.3 row 10. -/
theorem test_sndRegRd :
    (after (given 0x00600100 (sound 0b1010 7))).map soundView = some (some ⟨some 0x0A, []⟩, 0b1010, 7) := by decide +kernel
/-- 2.3 row 7: 0x30 keeps the chip bits and clears the others. -/
theorem test_sndRegWr :
    (after (given 0x18600130 (sound 0b1111 7))).map soundView = some (some ⟨none, []⟩, 0b0011, 7) := by decide +kernel

/-- The transform order vector of 2.7: rotary first, then the busy mask. -/
theorem test_inpRd_order :
    (after (given 0x00D00100 { s0 with
      profile := { exProfile with soundBusyBit := 0x01, rotaryMode := exProfile.rotaryMode.set 1 .way8 },
      answers := [(.input 1, 0xF5)] })).map (fun s => s.out) = some (some ⟨some 0x74, []⟩) := by decide +kernel
/-- 2.7 row 12: delta +8 becomes -8. -/
theorem test_inpRd_way12 :
    (after (given 0x00D00300 { s0 with answers := [(.input 3, 0x80)] })).map (fun s => (s.out, s.rot0, s.rot1)) =
      some (some ⟨some 0x40, []⟩, ⟨8, 4⟩, ⟨0, 0⟩) := by decide +kernel
/-- The end of 2.7. -/
theorem test_inpWr :
    (after (given 0x10D00300 { s0 with rot0 := ⟨5, 7⟩ })).map (fun s => (s.out, s.rot0, s.mem)) =
      some (some ⟨none, []⟩, ⟨5, 7⟩, []) := by decide +kernel
/-- 2.4 row 14. -/
theorem test_chipRd :
    (after (given 0x08A00000 { s0 with answers := [(.extRead 0 0, 0x5C)] })).map (fun s => s.out) =
      some (some ⟨some 0x5C, [.extRd 0 0]⟩) := by decide +kernel
/-- 2.4 row 13. -/
theorem test_chipWr :
    (after (given 0x18A00107 s0)).map memView = some (some ⟨none, [.extWr 0 1 7]⟩, []) := by decide +kernel

/-- The VRAM bytes that P3 writes: the tilemap, the scroll value and the sprite entries of region 2. -/
def p3Bytes : List Host.Cell :=
  [(2 + 32 * 0x000, 0x01), (2 + 32 * 0x005, 0x02), (2 + 32 * 0x010, 0x02), (2 + 32 * 0x015, 0x13),
    (2 + 32 * 0x020, 0x08), (2 + 32 * 0x100, 0x08), (2 + 32 * 0x101, 0x01), (2 + 32 * 0x102, 0x08)] ++
  [(2 + 32 * 0x103, 0x05), (2 + 32 * 0x105, 0x03), (2 + 32 * 0x106, 0xF8), (2 + 32 * 0x107, 0x80)]

/-- P3, first FRAME: the four quadrants at two pixels each, DIRTY, and the mode. -/
theorem test_frame_mode_a :
    let t := after (given 0x30000000 { s0 with mem := p3Bytes })
    t.map (fun s => [(0, 0), (0, 1), (0, 8), (7, 15), (8, 0), (8, 1), (8, 8), (15, 15)].map
        (fun q : Nat × Nat => pixelAt s.frame q.1 q.2)) = some [0, 67, 0, 0, 12, 67, 85, 85] ∧
    t.map (fun s => (s.dirty.getD 0 none, s.dirty.getD 5 none)) = some (some (0x01, 0x02), some (0x02, 0x13)) ∧
    t.map (fun s => (s.shadow, s.out)) = some (true, some ⟨none, [.frameOut]⟩) := by
  decide +kernel
/-- P3, second FRAME: mode B shows the background under sprite 0. -/
theorem test_frame_mode_b :
    (after (given 0x30000000 { s0 with mem := p3Bytes, shadow := true })).map (fun s =>
      ([(0, 1), (8, 0), (8, 1), (8, 8), (15, 15)].map (fun q : Nat × Nat => pixelAt s.frame q.1 q.2), s.shadow)) =
      some ([67, 12, 67, 0, 0], false) := by decide +kernel

/-- The decode vectors of 2.5 and 2.6. -/
theorem test_tile_fields :
    tilePixel exProfile (0x01, 0x02) 0 0 = 9 ∧ tilePixel exProfile (0x02, 0x13) 0 0 = 12 ∧
    tilePixel exProfile (0x03, 0x1F) 0 0 = 61 ∧ tilePixel exProfile (0xFF, 0x00) 7 7 = 3 ∧
    tileColour { exProfile with colorXor := 15 } (0, 0x02) = 13 := by decide
theorem test_sprite_fields :
    wrapCoord 16 0 511 = -1 ∧ wrapCoord 32 0 480 = -32 ∧ wrapCoord 16 0 495 = 495 ∧ wrapCoord 16 (-20) 10 = -10 ∧
    wrapCoord 16 16 504 = 8 ∧ spriteTile exLayer ⟨0, 1, 0, 0x25⟩ = 3 ∧ spriteTile exLayer ⟨0, 3, 0, 0x2F⟩ = 1 ∧
    spriteColour exLayer ⟨0, 3, 0, 0x2F⟩ = 7 := by decide
/-- The layer-order vectors of 2.6. -/
theorem test_layer_order :
    let big := { exLayer with cbase := 0, size := 32 }
    let p := { exProfile with layers := [exLayer, big] }
    drawOrder p (fun _ => 0x00) = [big, exLayer] ∧ drawOrder p (fun _ => 0x01) = [exLayer, big] ∧
    drawOrder p (fun _ => 0xFE) = [big, exLayer] := by decide +kernel
/-- W6 and P5: the dial through one revolution and two more positions. -/
theorem test_rotary_revolution :
    rotaryRun [0, 1, 2, 3, 4, 5, 6, 7, 8, 9, 10, 11, 12, 13, 14, 15, 0, 1] = ⟨1, 5⟩ ∧
    rotaryStep ⟨8, 4⟩ 0 = ⟨0, 8⟩ ∧ rotaryStep ⟨5, 7⟩ 5 = ⟨5, 7⟩ ∧ rotaryStep ⟨0, 11⟩ 1 = ⟨1, 0⟩ := by decide

/-- A table row's word runs as the first transaction after reset. -/
theorem test_withFetchWord :
    (after (State.reset.withFetchWord 32 0x40000000)).map (fun s => s.out) = some (some ⟨none, []⟩) ∧
    (after (State.reset.withFetchWord 40 0x02C0000000)).map (fun s => s.refused) = some true ∧
    (after (State.reset.withFetchWord 40 0x0084000000)).map (fun s => s.out) = some (some ⟨some 0, []⟩) := by
  decide +kernel

/-! ### Witnesses: for each statement with hypotheses, inputs that meet them all; each clause at the ends of its range -/

/-- S0 with one RAM byte and one default byte listed. -/
def stored : State := { s0 with mem := [(1 + 32 * 0x7FF, 0x77), (18 + 32 * 0xFFFF, 0x12)] }

theorem stored_memoryOk : MemoryOk stored := by
  refine ⟨by decide +kernel, fun c hc => ?_⟩
  simp only [stored, List.mem_cons, List.not_mem_nil, or_false] at hc
  rcases hc with rfl | rfl
  · exact ⟨.region 1, 0x7FF, rfl, by decide +kernel, by decide +kernel⟩
  · exact ⟨.dflt .s, 0xFFFF, rfl, by decide +kernel, by decide +kernel⟩

theorem s0_renderShape : RenderShape s0 :=
  ⟨blankSurface_shape _ _, blankSurface_shape _ _, by decide +kernel⟩

theorem s0_dirtyCoherent : DirtyCoherent s0 := by
  intro i hi c hc
  simp only [s0, State.reset, State.powerOn, List.getD_eq_getElem?_getD, List.getElem?_replicate] at hc
  split at hc <;> simp at hc

theorem witness_StepRunsDecodedInstruction :
    (given 0x10600042 s0).inbox = [.t 0x10600042] ∧ decode s0.profile.addrW (.t 0x10600042) = .ok (.busWr .a 0x6000 0x42) :=
  ⟨rfl, rfl⟩

/-- Each of R51's eight items at its smallest word, and good words beside them. -/
theorem witness_MalformedWordsAndOnlyTheyAreRefused :
    (given 0x50000000 s0).inbox = [.t 0x50000000] ∧ s0.profile.addrW = 16 ∧
    MalformedT 16 0x50000000 ∧ MalformedT 16 0x0C000000 ∧ MalformedT 16 0x01000000 ∧ MalformedT 16 0x00600001 ∧
    MalformedT 16 0x20000100 ∧ MalformedT 16 0x20000002 ∧ MalformedT 16 0x40000001 ∧ MalformedT 15 0x00800000 ∧
    ¬MalformedT 15 0x007FFF00 ∧ ¬MalformedT 16 0x18FFFFFF ∧ ¬MalformedT 16 0x20000001 ∧ ¬MalformedT 16 0x40000000 :=
  ⟨rfl, rfl, by simp [MalformedT], by simp [MalformedT], by simp [MalformedT], by simp [MalformedT],
    by simp [MalformedT], by simp [MalformedT], by simp [MalformedT], by simp [MalformedT], by simp [MalformedT],
    by simp [MalformedT], by simp [MalformedT], by simp [MalformedT]⟩

theorem witness_ReservedKindsNeverBuiltAndRefused :
    (givenR 0x02C0000000 s0).inbox = [.r 0x02C0000000] ∧ 11 ≤ (0x02C0000000 : BitVec 40).toNat / 2 ^ 30 % 16 ∧
    (givenR 0x03C0000000 s0).inbox = [.r 0x03C0000000] ∧ 11 ≤ (0x03C0000000 : BitVec 40).toNat / 2 ^ 30 % 16 :=
  ⟨rfl, by decide, rfl, by decide⟩

theorem witness_StepWithoutPacketIsIdle : { s0 with out := some ⟨some 5, []⟩ }.inbox = [] := rfl

theorem witness_DecodeOfEncodeIsTheInstruction :
    (Instr.busWr .s 0xFFFF 0xFF).wellFormed 16 = true ∧ (Instr.busRd .a 0x7FFF).wellFormed 15 = true ∧
    (Instr.inpRd .b 15 0xFFFF).wellFormed 16 = true ∧ (Instr.dbSelfWr .s 0xFFFF 0xFF).wellFormed 16 = true := by decide

theorem witness_DecodedWordsAreCanonical :
    decode 16 (.t 0x18FFFFFF) = .ok (.busWr .s 0xFFFF 0xFF) ∧ decode 16 (.r 0x1A80000107) = .ok (.chipWr .s 0 1 7) :=
  ⟨rfl, rfl⟩

/-- Lane A of EX: the mailbox entry before the ROM entry that spans it, a region entry at its two ends, the flag bank,
and an address that no entry claims. -/
theorem witness_FirstClaimingEntryRoutes :
    exProfile.map .a = [] ++ ⟨0x6000, 0x6000, .sndMbox, 0⟩ :: exMapA.drop 1 ∧
    exProfile.map .a = exMapA.take 3 ++ ⟨0x8000, 0x87FF, .shared, 1⟩ :: exMapA.drop 4 ∧
    (∀ e' ∈ exMapA.take 3, ∀ a ∈ [0x8000, 0x87FF],
      ¬((e'.kind = .hardflag → exProfile.hardFlagsEn = true) ∧ e'.start ≤ a ∧ a ≤ e'.stop)) ∧
    exProfile.map .a = exMapA.take 6 ++ ⟨0xE000, 0xE000, .hardflag, 0⟩ :: exMapA.drop 7 ∧
    (∀ e' ∈ exMapA.take 6,
      ¬((e'.kind = .hardflag → exProfile.hardFlagsEn = true) ∧ e'.start ≤ 0xE000 ∧ 0xE000 ≤ e'.stop)) ∧
    (∀ e ∈ exProfile.map .a, ∀ a ∈ [0x8800, 0xFFFF],
      ¬((e.kind = .hardflag → exProfile.hardFlagsEn = true) ∧ e.start ≤ a ∧ a ≤ e.stop)) := by
  refine ⟨rfl, rfl, ?_, rfl, ?_, ?_⟩ <;> decide

theorem witness_BusAccessRunsItsRoutedWord :
    wfProfile s0.profile = true ∧ (0xFFFF : Addr).toNat < 2 ^ s0.profile.addrW ∧ (0 : Addr).toNat < 2 ^ s0.profile.addrW := by
  decide +kernel

theorem witness_EveryAccessCompletes :
    wfProfile s0.profile = true ∧ (0xFFFF : Addr).toNat < 2 ^ s0.profile.addrW ∧ (0 : Addr).toNat < 2 ^ s0.profile.addrW := by
  decide +kernel

theorem witness_RegionReadsReturnTheByte :
    hasByte stored.profile (.region 1) (0x7FF : Addr).toNat = true ∧
    hasByte stored.profile (.region 0) (0x7FFF : Addr).toNat = true := by decide +kernel

theorem witness_RomReadsReturnTheImage :
    MemoryOk stored ∧ findRegion stored.profile 0 = some ⟨0, 0x8000, .rom, [.a]⟩ ∧ (0x7FFF : Addr).toNat < 0x8000 :=
  ⟨stored_memoryOk, rfl, by decide⟩

theorem witness_RomWritesAreIgnored :
    hasByte stored.profile (.region 5) (0x1FFF : Addr).toNat = true ∧ writable stored.profile (.region 5) = false := by
  decide +kernel

theorem witness_RegionWritesStoreTheByte :
    MemoryOk stored ∧ hasByte stored.profile (.region 1) (0x7FF : Addr).toNat = true ∧
    writable stored.profile (.region 1) = true :=
  ⟨stored_memoryOk, by decide +kernel, by decide +kernel⟩

theorem witness_DefaultStoreReadsAndWrites :
    (0xFFFF : Addr).toNat < 2 ^ stored.profile.addrW ∧ MemoryOk stored := ⟨by decide, stored_memoryOk⟩

/-- The first offset beyond a region, a region that is absent, the first address beyond a 15-bit default region, and the
first port beyond the 12. -/
theorem witness_AccessesBeyondTheRouterChangeNothing :
    regionLen s0.profile 1 ≤ (0x800 : Addr).toNat ∧ regionLen s0.profile 15 ≤ (0 : Addr).toNat ∧
    2 ^ { s0 with profile := { exProfile with addrW := 15 } }.profile.addrW ≤ (0x8000 : Addr).toNat ∧
    12 ≤ (11 : RegionId).toNat + (1 : Addr).toNat ∧ 12 ≤ (0 : RegionId).toNat + (12 : Addr).toNat := by decide

theorem witness_HardFlagsReadOnesWhenPresent : (route exProfile .a 0xE000).1 = .hardflag := by decide +kernel

theorem witness_ChipAccessesAreForwarded :
    { s0 with answers := [(.extRead 0 0, 0x5C)] }.answers = (.extRead 0 0, 0x5C) :: [] := rfl

/-- Both branches of an arming write. -/
theorem witness_ArmingWriteArmsOrTakesTheRequest :
    (door (doors queuedDoor idleDoor) .a).pending = true ∧ (door (doors queuedDoor idleDoor) .b).pending = false := ⟨rfl, rfl⟩

/-- Both branches of a notify read. -/
theorem witness_NotifyReadInterruptsOrQueues :
    (door (doors armedDoor queuedDoor) Main.b.peer).enable = true ∧
    (door (doors armedDoor queuedDoor) Main.a.peer).enable = false := ⟨rfl, rfl⟩

/-- The four rows, and an access of each kind that changes none. -/
theorem witness_DoorbellTransitionTable :
    (∀ p e : Bool, ((door (doors ⟨e, p⟩ idleDoor) .a).pending, (door (doors ⟨e, p⟩ idleDoor) .a).enable) = (p, e)) ∧
    (∃ t, exec (.dbSelfRd .a 0) (doors armedDoor queuedDoor) = .next t) ∧
    (∃ t, exec (.dbPeerWr .b 0 0xFF) (doors armedDoor queuedDoor) = .next t) ∧
    (∃ t, exec (.busRd .s 0x6000) (doors armedDoor queuedDoor) = .next t) ∧
    (∃ t, exec (.busWr .s 0xF000 0) (doors armedDoor queuedDoor) = .next t) :=
  ⟨fun _ _ => rfl, ⟨_, rfl⟩, ⟨_, rfl⟩, ⟨_, rfl⟩, ⟨_, rfl⟩⟩

theorem witness_DoorbellBitsChangeOnlyByDoorbellsAndAreNeverRead :
    ∃ t, step (given 0x10F00000 s0) = .next t ∧ door t .a ≠ door (given 0x10F00000 s0) .a := by
  refine ⟨_, rfl, ?_⟩
  decide +kernel

theorem doors_exclusive : DoorbellExclusive (given 0x10F00000 (doors queuedDoor armedDoor)) := by
  intro m
  cases m <;> decide +kernel

theorem witness_DoorbellExclusionIsKept :
    DoorbellExclusive (given 0x10F00000 (doors queuedDoor armedDoor)) ∧
    ∃ t, step (given 0x10F00000 (doors queuedDoor armedDoor)) = .next t := ⟨doors_exclusive, _, rfl⟩

/-- Lane B notifies A twice; then A's arming write is next. -/
theorem witness_RequestsCoalesceToOneInterrupt :
    let s := { s0 with inbox := [.t 0x04700100, .t 0x04700100, .t 0x10F00000] }
    (door s .a).enable = false ∧ (∃ t, run 2 s = .next t ∧ stepArms .a t = true) ∧
    (∀ u ∈ origins 2 s, stepArms .a u = false ∧ nextInstr u ≠ some .reset) ∧
    (∃ u ∈ origins 2 s, stepRequests .a u = true) := by
  refine ⟨rfl, ⟨_, rfl, by decide +kernel⟩, ?_, ?_⟩ <;> decide +kernel

/-- Each of the two sources. -/
theorem witness_InterruptsHaveExactlyTwoSources :
    ((∃ t, step (given 0x04700100 (doors armedDoor idleDoor)) = .next t) ∧
      stepRequests .a (given 0x04700100 (doors armedDoor idleDoor)) = true ∧
      (door (given 0x04700100 (doors armedDoor idleDoor)) .a).enable = true) ∧
    ((∃ t, step (given 0x10F00000 (doors queuedDoor idleDoor)) = .next t) ∧
      stepArms .a (given 0x10F00000 (doors queuedDoor idleDoor)) = true ∧
      (door (given 0x10F00000 (doors queuedDoor idleDoor)) .a).pending = true) := by
  refine ⟨⟨⟨_, rfl⟩, ?_, rfl⟩, ⟨⟨_, rfl⟩, ?_, rfl⟩⟩ <;> decide +kernel

theorem witness_AtMostOneInterruptPerStep : ∃ t, step (given 0x10F00000 (doors queuedDoor armedDoor)) = .next t :=
  ⟨_, rfl⟩

theorem witness_NoInterruptWithoutRearming :
    (DoorbellExclusive (given 0x10F00000 (doors queuedDoor armedDoor)) ∧
      ∃ t, step (given 0x10F00000 (doors queuedDoor armedDoor)) = .next t ∧ irqCount .a t = 1) ∧
    (door { s0 with inbox := [.t 0x04700100, .t 0x04700100] } .a).enable = false ∧
    (∀ u ∈ origins 2 { s0 with inbox := [.t 0x04700100, .t 0x04700100] }, stepArms .a u = false) :=
  ⟨⟨doors_exclusive, _, rfl, by decide +kernel⟩, rfl, by decide +kernel⟩

/-- The first and the last port, and a port of each rotary mode. -/
theorem witness_InputReadPipeline :
    (0 : Fin 12).val = (0 : RegionId).toNat + (0 : Addr).toNat ∧ (11 : Fin 12).val = (11 : RegionId).toNat + (0 : Addr).toNat ∧
    (11 : Fin 12).val = (0 : RegionId).toNat + (11 : Addr).toNat ∧
    s0.profile.rotaryMode.get 0 = .none ∧ s0.profile.rotaryMode.get 2 = .way8 ∧
    s0.profile.rotaryMode.get 3 = .way12 .p0 := ⟨rfl, rfl, rfl, rfl, rfl, rfl⟩

/-- Port 1, EX's BUSY_PORT, read by a main lane while SRS bit 2 is 0; and a read by lane S. -/
theorem witness_BusyInjectionClearsExactlyTheMask :
    let s := { sound 0b1011 0 with answers := [(.input 1, 0xFF)] }
    (1 : Fin 12).val = (0 : RegionId).toNat + (1 : Addr).toNat ∧ s.profile.rotaryMode.get 1 = .none ∧
    s.answers = (.input (s.profile.inputPortMap.get 1), 0xFF) :: [] ∧ (1 : Fin 12) = s.profile.busyPort ∧
    Lane.a ≠ .s ∧ s.srs.getLsbD 2 = false ∧ (s.srs ||| 4).getLsbD 2 = true ∧ (0 : Fin 12) ≠ s.profile.busyPort := by
  decide

theorem witness_EightWayDecode :
    (0 : Fin 8).val = (0x1F : Byte).toNat / 16 / 2 ∧ (7 : Fin 8).val = (0xFF : Byte).toNat / 16 / 2 := by decide

theorem witness_InputWritesAreIgnored :
    (11 : RegionId).toNat + (0 : Addr).toNat < 12 ∧ (0 : RegionId).toNat + (11 : Addr).toNat < 12 := by decide

theorem witness_FrameBringsDirtyUpToDate : RenderShape s0 ∧ 7 < s0.profile.gridW * s0.profile.gridH :=
  ⟨s0_renderShape, by decide⟩

theorem witness_UnchangedTilemapIsNotRedrawn :
    ∃ t u : State, RenderShape s0 ∧ exec .frame s0 = .next t ∧ u.profile = t.profile ∧ u.dirty = t.dirty ∧
      u.scratch = t.scratch ∧ u.srs ≠ t.srs ∧
      ∀ i < cellCount s0.profile, cellAt s0.profile (vramByte u) i = cellAt s0.profile (vramByte s0) i :=
  ⟨_, { spriteFrame (tilePass { s0 with shadow := !s0.shadow }) with srs := 9 }, s0_renderShape, rfl, rfl, rfl, rfl,
    by decide +kernel, fun _ _ => rfl⟩

theorem witness_DirtyCacheNeverChangesTheOutput : RenderShape s0 ∧ DirtyCoherent s0 := ⟨s0_renderShape, s0_dirtyCoherent⟩

theorem witness_FramePixelsAreTopmostSpriteOverScrolledTiles :
    15 < s0.profile.visH ∧ 15 < s0.profile.visW ∧ s0.shadow = false := by decide

theorem witness_SpriteCoordinatesWrapAtTheEdge :
    exLayer.size ≤ 512 ∧ { exLayer with size := 512 }.size ≤ 512 ∧ { exLayer with size := 32 }.size ≤ 512 := by decide

/-- Two layers with the bit at 0 and at 1, and EX's one layer. -/
theorem witness_LayerOrderBitPicksTheTopLayer :
    { exProfile with layers := [exLayer, { exLayer with size := 32 }] }.layers = [exLayer, { exLayer with size := 32 }] ∧
    (0xFE : Byte).getLsbD exProfile.layerOrder.2.val = false ∧ (0x01 : Byte).getLsbD exProfile.layerOrder.2.val = true ∧
    exProfile.layers = [exLayer] := by decide

theorem witness_DecodedTilesStayInTheirTables :
    wfProfile exProfile = true ∧ 7 < exProfile.cell ∧ exLayer ∈ exProfile.layers ∧ 15 < exLayer.size := by
  decide +kernel

/-- Two states that differ in SRS, MAILBOX, the doorbell bits and a byte outside VRAM. -/
theorem witness_RenderReadsNothingButVram :
    ∃ s' t t' : State, s'.profile = stored.profile ∧ s'.dirty = stored.dirty ∧ s'.scratch = stored.scratch ∧
      s'.shadow = stored.shadow ∧ s'.mem ≠ stored.mem ∧ s'.srs ≠ stored.srs ∧
      (∀ off, readBank s' (.region stored.profile.vram) off = readBank stored (.region stored.profile.vram) off) ∧
      exec .frame stored = .next t ∧ exec .frame s' = .next t' := by
  refine ⟨{ stored with mem := [(1, 0x5A)], srs := 9, doorA := armedDoor }, _, _, rfl, rfl, rfl, rfl, by decide +kernel,
    by decide +kernel, fun off => ?_, rfl, rfl⟩
  have h1 : ∀ n : Nat, n % 32 ≠ 2 → ¬n = 2 + 32 * off := fun n hn h => hn (by omega)
  simp [readBank, readCell, lookupCell, Bank.cellAddr, Bank.code, stored, exProfile, State.reset, State.powerOn, h1]

/-- A FRAME, a refused word and a format-R word, none of them a word of no format. -/
theorem witness_TogglePhaseCountsFrames :
    ∀ w, Packet.r w ∈ [Packet.t 0x30000000, .t 0x50000000, .r 0x0084001000] → ¬NoRoutedWord w := by
  simp [NoRoutedWord]

theorem witness_RenderStateStaysCoherent :
    RenderShape (given 0x30000000 s0) ∧ DirtyCoherent (given 0x30000000 s0) ∧
    ∃ t, step (given 0x30000000 s0) = .next t := ⟨s0_renderShape, s0_dirtyCoherent, _, rfl⟩

theorem witness_MemoryStaysCanonical :
    MemoryOk (given 0x10F80012 stored) ∧ ∃ t, step (given 0x10F80012 stored) = .next t := ⟨stored_memoryOk, _, rfl⟩

/-- Lane A at 0x8010 and lane B at 0xC010 both reach byte 0x010 of region 1. -/
theorem witness_ReadReturnsTheLatestWrite :
    MemoryOk stored ∧ wfProfile stored.profile = true ∧
    (0x8010 : Addr).toNat < 2 ^ stored.profile.addrW ∧ (0xC010 : Addr).toNat < 2 ^ stored.profile.addrW ∧
    bankOf (routeAccess stored.profile .wr .a 0x8010 0x77) = some (.region 1) ∧
    writable stored.profile (.region 1) = true ∧
    bankOf (routeAccess stored.profile .rd .b 0xC010 0) = some (.region 1) ∧
    (routeAccess stored.profile .rd .b 0xC010 0).offset = (routeAccess stored.profile .wr .a 0x8010 0x77).offset :=
  ⟨stored_memoryOk, by decide +kernel, by decide, by decide, by decide +kernel, by decide +kernel, by decide +kernel,
    by decide +kernel⟩

/-- A memory that differs from `stored` in a byte that lane A does not see: the last of DEF[S]. -/
theorem witness_LanesReachOnlyVisibleBytes :
    wfProfile stored.profile = true ∧ (0xFFFF : Addr).toNat < 2 ^ stored.profile.addrW ∧ MemoryOk stored ∧
    (∀ bank off, visibleBank stored.profile .a bank = true →
      readBank { stored with mem := [(1 + 32 * 0x7FF, 0x77)] } bank off = readBank stored bank off) ∧
    visibleBank stored.profile .a (.dflt .s) = false := by
  refine ⟨by decide +kernel, by decide, stored_memoryOk, fun bank off h => ?_, by decide +kernel⟩
  by_cases hc : bank.cellAddr off = 18 + 32 * 0xFFFF
  · have hb : bank = .dflt .s := (cellAddr_injective (b' := .dflt .s) (off' := 0xFFFF) hc).1
    subst hb
    exact absurd h (by decide +kernel)
  · simp [readBank, readCell, lookupCell, stored, Ne.symm hc]

/-- Each check of R87 fails in a variant of EX, at the edge where it can. -/
theorem witness_PowerOnState :
    FailsCheck { exProfile with regions := ⟨0, 1, .ram, [.b]⟩ :: exRegions } ∧
    FailsCheck { exProfile with regions := ⟨9, 0x10001, .ram, [.b]⟩ :: exRegions } ∧
    FailsCheck { exProfile with mapB := [⟨5, 0x10000, .ext, 0⟩] } ∧ FailsCheck { exProfile with mapB := [⟨5, 4, .ext, 0⟩] } ∧
    FailsCheck { exProfile with mapB := [⟨5, 5, .dflt, 0⟩] } ∧ FailsCheck { exProfile with mapB := [⟨5, 5, .rom, 0⟩] } ∧
    FailsCheck { exProfile with mapB := [⟨5, 5, .ram, 4⟩] } ∧ FailsCheck { exProfile with mapS := [⟨5, 5, .shared, 4⟩] } ∧
    FailsCheck { exProfile with mapS := [⟨5, 5, .dbPeer, 0⟩] } ∧ FailsCheck { exProfile with mapS := [⟨5, 6, .inport, 11⟩] } ∧
    FailsCheck { exProfile with mapS := [⟨5, 5, .sndReg, 1⟩] } :=
  ⟨.sameRegionId (by decide), .regionLength ⟨9, 0x10001, .ram, [.b]⟩ (by simp) (by decide),
    .entryRange .b _ (.head _) (by decide), .entryRange .b _ (.head _) (by decide), .defaultEntry .b _ (.head _) rfl,
    .romEntry .b _ (.head _) rfl (by decide), .ramEntry .b _ (.head _) (.inl rfl) (by decide),
    .sharedEntry .s _ (.head _) rfl (by decide), .doorbellOfS _ (.head _) (.inr rfl),
    .portRange .s _ (.head _) rfl (by decide), .regionNotZero .s _ (.head _) (by decide) (by decide)⟩

/-- Each check of R101 and R114 fails in a variant of EX, which itself is in the ranges of the types. -/
theorem witness_PowerOnState_render :
    FailsCheck { exProfile with vram := 0 } ∧ FailsCheck { exProfile with tilemapBase := 0xFF9 } ∧
    FailsCheck { exProfile with scrollyOff := 0x1000 } ∧ FailsCheck { exProfile with scrollyExt := some (0x1000, 0) } ∧
    FailsCheck { exProfile with colorXor := 16 } ∧ FailsCheck { exProfile with tilePens := 0 } ∧
    FailsCheck { exProfile with tilePens := 3 } ∧ FailsCheck { exProfile with layers := [exLayer, exLayer, exLayer] } ∧
    FailsCheck { exProfile with layers := [{ exLayer with tableBase := 0xFF9 }] } ∧
    FailsCheck { exProfile with layers := [{ exLayer with sprPens := 3 }] } ∧
    FailsCheck { exProfile with layers := [exLayer, exLayer], layerOrder := (0x1000, 0) } ∧
    FailsCheck { exProfile with shadowPen := 2 } ∧ InRanges exProfile :=
  ⟨.vramKind (by decide), .tilemapRange (by decide), .scrollRange (by decide), .scrollExtRange 0x1000 0 (.inr rfl) (by decide),
    .cellFormat (by decide), .tileCounts (by decide), .tilePen 3 7 7 (by decide) (by decide) (by decide) (by decide),
    .layerCount (by decide), .layerFormat _ (.head _) (by decide),
    .spritePen _ (.head _) 3 0 1 (by decide) (by decide) (by decide) (by decide),
    .layerOrderRange rfl (by decide), .shadowPen (by decide), by simp [InRanges, exProfile, exLayer]⟩

/-- A step with the mark set before, one whose packet is refused, and one whose packet is not. -/
theorem witness_ProfileIsFixedAndRefusalsAreTheListedOnes :
    (∃ t, step (given 0x40000000 { s0 with refused := true }) = .next t) ∧ (∃ t, step (given 0x50000000 s0) = .next t) ∧
    (∃ t, step (given 0x40000000 s0) = .next t) ∧ RefusedPacket 16 (.t 0x50000000) ∧ RefusedPacket 16 (.r 0x02C0000000) ∧
    ¬RefusedPacket 16 (.t 0x40000000) ∧ ¬RefusedPacket 16 (.r 0x0280000000) ∧ UnrefusedWellFormed s0 :=
  ⟨⟨_, rfl⟩, ⟨_, rfl⟩, ⟨_, rfl⟩, by simp [RefusedPacket, MalformedT], by simp [RefusedPacket],
    by simp [RefusedPacket, MalformedT], by simp [RefusedPacket], fun _ => by decide +kernel⟩

/-- Each reason for being no word of format R, at its smallest field value, and good words beside them. -/
theorem witness_OnlyWordsOfNoFormatStop :
    (givenR 0x2000000000 s0).inbox = [.r 0x2000000000] ∧ NoRoutedWord 0x2000000000 ∧ NoRoutedWord 0x0C00000000 ∧
    NoRoutedWord 0x0001000000 ∧ NoRoutedWord 0x0000000001 ∧ NoRoutedWord 0x00C4000000 ∧ NoRoutedWord 0x0204000000 ∧
    ¬NoRoutedWord 0x1000000001 ∧ ¬NoRoutedWord 0x0084001000 ∧ ¬NoRoutedWord 0x0244000000 ∧ ¬NoRoutedWord 0x22C0000000 ∧
    (given 0x30000000 s0).inbox = [.t 0x30000000] :=
  ⟨rfl, by simp [NoRoutedWord], by simp [NoRoutedWord], by simp [NoRoutedWord], by simp [NoRoutedWord],
    by simp [NoRoutedWord], by simp [NoRoutedWord], by simp [NoRoutedWord], by simp [NoRoutedWord],
    by simp [NoRoutedWord], by simp [NoRoutedWord], rfl⟩

end Sys2Proof.Tests
end

/-! SUPPORT. Malformed words: the eight items of R51 are the checks of the format-T decoder, a word that passes
them is the word of the transaction it decodes to, and what a step does with either. -/

namespace Sys2Proof.Machine

/-- R51's items, on the fields read as numbers, are the five checks that the decoder makes on the fields. -/
theorem malformedT_iff (addrW : Nat) (w : BitVec 32) :
    MalformedT addrW w ↔
      5 ≤ (opT w).toNat ∨ ((opT w).toNat ≤ 1 ∧ laneT w = 3) ∨ rsvT w ≠ 0 ∨ mustBeZeroT w = true ∨
        2 ^ addrW ≤ (addrT w).toNat := by
  obtain ⟨hop, hlane, hrsv, haddr, hdata⟩ := fieldsT_toNat w
  have hhigh : ((dataT w).extractLsb' 1 7).toNat = (dataT w).toNat / 2 := by
    have := (dataT w).isLt
    simp only [BitVec.extractLsb'_toNat, Nat.shiftRight_eq_div_pow]
    omega
  simp only [MalformedT, mustBeZeroT_iff, ← hop, ← hlane, ← hrsv, ← haddr, ← hdata, ne_eq, ← BitVec.toNat_inj, hhigh,
    BitVec.ofNat_eq_ofNat, BitVec.toNat_ofNat]
  omega

/-- Items 4 to 7 of R51, as the zeros that a word has when none of them holds. -/
theorem zeros_of_mustBeZeroT {w : BitVec 32} (h : mustBeZeroT w = false) :
    ((opT w).toNat = 0 → dataT w = 0) ∧
    ((opT w).toNat = 2 → laneT w = 0 ∧ addrT w = 0 ∧ (dataT w).extractLsb' 1 7 = 0) ∧
    (3 ≤ (opT w).toNat → laneT w = 0 ∧ addrT w = 0 ∧ dataT w = 0) := by
  have h' := mt (mustBeZeroT_iff w).2 (by simp only [h, Bool.false_eq_true, not_false_eq_true])
  simp only [not_or, not_and, ne_eq, Decidable.not_not] at h'
  exact h'

/-- A word that decodes is the word of the transaction it decodes to. -/
theorem encode_of_decodeT {addrW : Nat} {w : BitVec 32} {i : Instr} (h : decodeT addrW w = .ok i) :
    encode i = .t w := by
  obtain ⟨hrsv, hz, -, hi⟩ := decodeT_ok h
  obtain ⟨hread, hchip, hrest⟩ := zeros_of_mustBeZeroT hz
  have hw := wordT_fields hrsv
  obtain ⟨l, hop, hl, rfl⟩ | ⟨l, hop, hl, rfl⟩ | ⟨hop, rfl⟩ | ⟨hop, rfl⟩ | ⟨hop, rfl⟩ := hi
  · rw [hop, hl, hread (by simp [hop])] at hw
    exact congrArg Packet.t hw
  · rw [hop, hl] at hw
    exact congrArg Packet.t hw
  · obtain ⟨hl, ha, hd⟩ := hchip (by simp [hop])
    rw [hop, hl, ha, ← low_bit hd] at hw
    exact congrArg Packet.t hw
  · obtain ⟨hl, ha, hd⟩ := hrest (by simp [hop])
    rw [hop, hl, ha, hd] at hw
    exact congrArg Packet.t hw
  · obtain ⟨hl, ha, hd⟩ := hrest (by simp [hop])
    rw [hop, hl, ha, hd] at hw
    exact congrArg Packet.t hw

/-- A word with one of R51's faults decodes to nothing. -/
theorem not_malformedT_of_decodeT {addrW : Nat} {w : BitVec 32} {i : Instr} (h : decodeT addrW w = .ok i) :
    ¬MalformedT addrW w := by
  obtain ⟨hrsv, hz, ha, hi⟩ := decodeT_ok h
  obtain ⟨hop, hlane⟩ : (opT w).toNat < 5 ∧ ¬((opT w).toNat ≤ 1 ∧ laneT w = 3) := by
    obtain ⟨l, hop, hl, -⟩ | ⟨l, hop, hl, -⟩ | ⟨hop, -⟩ | ⟨hop, -⟩ | ⟨hop, -⟩ := hi
    · exact ⟨by simp [hop], fun h3 => lane_bits_ne_three l (hl.symm.trans h3.2)⟩
    · exact ⟨by simp [hop], fun h3 => lane_bits_ne_three l (hl.symm.trans h3.2)⟩
    all_goals simp [hop]
  simp only [malformedT_iff, not_or, Nat.not_le, ne_eq, Decidable.not_not, Bool.not_eq_true]
  exact ⟨hop, hlane, hrsv, hz, ha⟩

/-- A word without any of R51's faults decodes to a transaction. -/
theorem decodeT_of_not_malformedT {addrW : Nat} {w : BitVec 32} (h : ¬MalformedT addrW w) :
    ∃ i, decodeT addrW w = .ok i := by
  simp only [malformedT_iff, not_or, Nat.not_le, ne_eq, Decidable.not_not, Bool.not_eq_true] at h
  obtain ⟨hop, hlane, hrsv, hz, ha⟩ := h
  have lane_of_op (hop : (opT w).toNat ≤ 1) : ∃ l, laneOfBits (laneT w) = some l :=
    Option.ne_none_iff_exists'.1 fun hl => hlane ⟨hop, laneOfBits_eq_none.1 hl⟩
  have hd := decodeT_wordT hop hlane (by rwa [wordT_fields hrsv]) ha (d := dataT w)
  rw [wordT_fields hrsv] at hd
  rw [hd]
  obtain h0 | h1 | h2 | h3 | h4 : (opT w).toNat = 0 ∨ (opT w).toNat = 1 ∨ (opT w).toNat = 2 ∨ (opT w).toNat = 3 ∨
    (opT w).toNat = 4 := by omega
  · obtain ⟨l, hl⟩ := lane_of_op (by omega)
    exact ⟨.busRd l (addrT w), by simp only [h0, hl]⟩
  · obtain ⟨l, hl⟩ := lane_of_op (by omega)
    exact ⟨.busWr l (addrT w) (dataT w), by simp only [h1, hl]⟩
  · exact ⟨.chipDone ((dataT w).extractLsb' 0 1), by simp only [h2]⟩
  · exact ⟨.frame, by simp only [h3]⟩
  · exact ⟨.reset, by simp only [h4]⟩

/-- A step whose next packet the decoder refuses is the refusal. -/
theorem step_of_refused {s : State} {packet : Packet} {rest : List Packet} {r : Reason}
    (hin : s.inbox = packet :: rest) (hd : decode s.profile.addrW packet = .error (.refused r)) :
    step s = .next (refuse (takePacket s rest)) := by
  simp only [step, hin, hd]

/-- A step whose next packet decodes to an operation runs it on the state that the packet has left. -/
theorem step_of_decoded {s : State} {packet : Packet} {rest : List Packet} {i : Instr}
    (hin : s.inbox = packet :: rest) (hd : decode s.profile.addrW packet = .ok i) :
    step s = exec i (takePacket s rest) := by
  simp only [step, hin, hd]

/-- Settles O2: R51's items are the decoder's checks, and a word that passes them is its transaction's word. -/
theorem malformedWordsAndOnlyTheyAreRefused : Obligations.MalformedWordsAndOnlyTheyAreRefused := by
  intro s w rest hin
  constructor
  · intro hbad
    cases hd : decodeT s.profile.addrW w with
    | ok i => exact absurd hbad (not_malformedT_of_decodeT hd)
    | error r => exact step_of_refused (r := r) hin (by simp only [decode, hd])
  · intro hgood
    obtain ⟨i, hd⟩ := decodeT_of_not_malformedT hgood
    exact ⟨i, encode_of_decodeT hd, step_of_decoded hin (by simp only [decode, hd])⟩

end Sys2Proof.Machine

/-! SUPPORT. The doorbell: R57's and R58's branches on the bits of one lane, the transition table of R63, what a step
does to a lane, the exclusion of R61, and the coalescing of R62 along a run. -/

namespace Sys2Proof.Machine

/-! ### The two bits of a lane -/

theorem doorSelfWrite_of_pending {d : Doorbell} (h : d.pending = true) : doorSelfWrite d = (⟨d.enable, false⟩, true) :=
  if_pos h

theorem doorSelfWrite_of_not_pending {d : Doorbell} (h : d.pending = false) :
    doorSelfWrite d = (⟨true, false⟩, false) := by
  simp [doorSelfWrite, h]

theorem doorNotified_of_armed {d : Doorbell} (h : d.enable = true) : doorNotified d = (⟨false, d.pending⟩, true) :=
  if_pos h

theorem doorNotified_of_not_armed {d : Doorbell} (h : d.enable = false) :
    doorNotified d = (⟨false, true⟩, false) := by
  simp [doorNotified, h]

/-- After an arming write no request is queued, whether it took one or found none. -/
theorem pending_doorSelfWrite (d : Doorbell) : (doorSelfWrite d).1.pending = false := by
  cases h : d.pending with
  | true => rw [doorSelfWrite_of_pending h]
  | false => rw [doorSelfWrite_of_not_pending h]

/-- After a notification the lane is not armed, whether it was or not. -/
theorem enable_doorNotified (d : Doorbell) : (doorNotified d).1.enable = false := by
  cases h : d.enable with
  | true => rw [doorNotified_of_armed h]
  | false => rw [doorNotified_of_not_armed h]

/-- The two bits of a lane that is not armed are those of PENDING alone. -/
theorem doorbell_eq_of_not_armed {d : Doorbell} (h : d.enable = false) : d = ⟨false, d.pending⟩ := by
  rw [← h]

/-! ### Doorbell operations -/

theorem irqCount_answerRead (m : Main) (s : State) (v : Byte) (ev : List Event) :
    irqCount m (answerRead s v ev) = ev.count (.irq m) := rfl

theorem irqCount_answerDone (m : Main) (s : State) (ev : List Event) :
    irqCount m (answerDone s ev) = ev.count (.irq m) := rfl

/-- Settles O20: the two branches of the write on the lane's bits, with the frame of `setDoor`. -/
theorem armingWriteArmsOrTakesTheRequest : Obligations.ArmingWriteArmsOrTakesTheRequest := by
  intro s m off d
  refine ⟨_, exec_dbSelfWr m off d s, by cases m <;> rfl, ?_, fun hp => ?_, fun hp => ?_⟩
  · simp only [door_answerDone, door_setDoor_other _ _ (peer_ne m)]
  · simp [doorSelfWrite_of_pending hp, doorEvents, deliver]
  · simp [doorSelfWrite_of_not_pending hp, doorEvents]

/-- Settles O21: the two branches of the notification on the peer's bits, with the frame of `setDoor`. -/
theorem notifyReadInterruptsOrQueues : Obligations.NotifyReadInterruptsOrQueues := by
  intro s m off
  have hexec := exec_dbPeerRd m.peer off s
  rw [peer_peer] at hexec
  refine ⟨_, hexec, by cases m <;> rfl, ?_, fun he => ?_, fun he => ?_⟩
  · simp only [door_answerRead, door_setDoor_other _ _ (peer_ne m).symm]
  · simp [doorNotified_of_armed he, doorEvents, deliver]
  · simp [doorNotified_of_not_armed he, doorEvents]

/-- Settles O22: each access only answers. -/
theorem otherDoorbellAccessesDoNothing : Obligations.OtherDoorbellAccessesDoNothing :=
  fun _ _ _ _ => ⟨rfl, rfl⟩

/-- A routed access by lane S stands for no arming write of a main lane, no request for one and no reset, so it leaves
the doorbell bits of every lane (R57, R58: the doorbell kinds are the main lanes'). -/
theorem doorAfter_toInstr_of_lane_s (m : Main) {r : Routed} (h : r.lane = .s) (d : Doorbell) :
    doorAfter m r.toInstr d = d := by
  obtain ⟨op, l, k, reg, off, v⟩ := r
  cases (h : l = .s)
  cases op <;> cases k <;> cases m <;> rfl

/-- What every operation does to a lane's doorbell bits and how many interrupts it delivers to the lane, by the operation
that it performs. -/
theorem exec_door_performed (m : Main) {i : Instr} {s t : State} (h : exec i s = .next t) :
    door t m = doorAfter m (performed s.profile i) (door s m) ∧
      irqCount m t = irqsOf m (performed s.profile i) (door s m) :=
  exec_door m (performed_not_bus _ i).1 (performed_not_bus _ i).2 ((exec_performed i s).trans h)

/-- Settles O23: the table's rows are the four values of a lane's two bits; DB_SELF_RD and DB_PEER_WR only answer, and
what lane S performs is a routed access of its own. -/
theorem doorbellTransitionTable : Obligations.DoorbellTransitionTable := by
  constructor
  · intro s m off d
    refine ⟨_, _, exec_dbSelfWr m off d s, exec_dbPeerRd m off s, ?_⟩
    simp only [door_answerDone, door_answerRead, door_setDoor_same, irqCount_answerDone, irqCount_answerRead,
      count_doorEvents, if_true]
    obtain ⟨e, p⟩ := door s m
    refine ⟨?_, ?_, ?_, ?_⟩ <;> (rintro ⟨⟩; exact ⟨rfl, rfl, rfl, rfl⟩)
  · rintro s t m l a off d (h | h | h | h)
    · cases h; exact door_answerRead s _ _ m
    · cases h; exact door_answerDone s _ m
    · exact (exec_door_performed m h).1.trans (doorAfter_toInstr_of_lane_s m rfl _)
    · exact (exec_door_performed m h).1.trans (doorAfter_toInstr_of_lane_s m rfl _)

/-! ### Steps -/

/-- An operation answers a next state, so a step that performs one does too. -/
theorem step_next_of_nextPerformed {s : State} {i : Instr} (h : nextPerformed s = some i) : ∃ t, step s = .next t := by
  obtain ⟨packet, rest, -, hs⟩ := step_of_nextPerformed h
  obtain ⟨t, ht, -⟩ := exec_change i (takePacket s rest)
  exact ⟨t, hs.trans ht⟩

/-- No routed access stands for a reset. -/
theorem toInstr_ne_reset (r : Routed) : r.toInstr ≠ .reset := by
  obtain ⟨op, l, k, reg, off, v⟩ := r
  cases op <;> cases k <;> simp [Routed.toInstr]

/-- Only RESET itself performs a reset. -/
theorem nextInstr_of_performs_reset {s : State} (h : nextPerformed s = some .reset) : nextInstr s = some .reset := by
  unfold nextPerformed at h
  obtain ⟨i, hi, hp⟩ := Option.map_eq_some_iff.1 h
  cases i with
  | busRd l a => exact absurd hp (toInstr_ne_reset _)
  | busWr l a v => exact absurd hp (toInstr_ne_reset _)
  | _ => exact hi.trans (congrArg some hp)

/-- A step that performs a lane's arming write answers, and does to the lane what the write does. -/
theorem step_of_stepArms {m : Main} {s : State} (ha : stepArms m s = true) :
    ∃ t, step s = .next t ∧ door t m = (doorSelfWrite (door s m)).1 ∧
      irqCount m t = (doorSelfWrite (door s m)).2.toNat := by
  obtain ⟨i, hi, hia⟩ := (Option.any_eq_true _ _).1 ha
  obtain ⟨t, ht⟩ := step_next_of_nextPerformed hi
  obtain ⟨hdoor, hirq⟩ := step_door m ht
  simp only [hi, doorAfter, irqsOf, hia, if_true] at hdoor hirq
  exact ⟨t, ht, hdoor, hirq⟩

/-- A step that performs no arming write by a lane and no reset notifies the lane if it performs a request for it, and
else leaves the lane alone. -/
theorem step_door_of_not_arms {m : Main} {s t : State} (h : step s = .next t) (ha : stepArms m s = false)
    (hr : nextInstr s ≠ some .reset) :
    door t m = (if stepRequests m s then (doorNotified (door s m)).1 else door s m) ∧
      irqCount m t = if stepRequests m s then (doorNotified (door s m)).2.toNat else 0 := by
  obtain ⟨hdoor, hirq⟩ := step_door m h
  unfold stepArms at ha
  unfold stepRequests
  cases hi : nextPerformed s with
  | none => simpa [hi] using And.intro hdoor hirq
  | some i =>
    have hni : i ≠ .reset := fun e => hr (nextInstr_of_performs_reset (hi.trans (congrArg some e)))
    simp only [hi, Option.any_some] at ha hdoor hirq ⊢
    simp only [doorAfter, irqsOf, ha, hni, Bool.false_eq_true, if_false] at hdoor hirq
    exact ⟨hdoor, hirq⟩

/-- A step that performs no arming write by a lane that is not armed, and no reset, delivers it nothing and leaves it not
armed, with a request queued if one was or the step performs one. -/
theorem step_door_of_not_armed {m : Main} {s t : State} (h : step s = .next t) (ha : stepArms m s = false)
    (hr : nextInstr s ≠ some .reset) (he : (door s m).enable = false) :
    door t m = ⟨false, (door s m).pending || stepRequests m s⟩ ∧ irqCount m t = 0 := by
  obtain ⟨hdoor, hirq⟩ := step_door_of_not_arms h ha hr
  rw [hdoor, hirq, doorNotified_of_not_armed he]
  cases stepRequests m s with
  | true => simp
  | false => simpa using doorbell_eq_of_not_armed he

/-! ### The exclusion of R61 -/

/-- An operation keeps the exclusion: each of the two doorbell changes clears one of the bits, whatever they were. -/
theorem Change.doorbellExclusive {s t : State} (h : Change s t) (hs : DoorbellExclusive s) : DoorbellExclusive t := by
  intro m
  obtain hd | hd | hd | hd := h.door m <;> rw [hd]
  · exact hs m
  · exact fun ⟨_, hp⟩ => Bool.false_ne_true ((pending_doorSelfWrite _).symm.trans hp)
  · exact fun ⟨he, _⟩ => Bool.false_ne_true ((enable_doorNotified _).symm.trans he)
  · exact fun ⟨he, _⟩ => Bool.false_ne_true he

/-- The exclusion depends on the doorbell bits only. -/
theorem DoorbellExclusive.congr {s t : State} (hs : DoorbellExclusive s) (h : ∀ m, door t m = door s m) :
    DoorbellExclusive t :=
  fun m => (h m).symm ▸ hs m

theorem doorbellExclusive_powerOn (p : Profile) : DoorbellExclusive (State.powerOn p) := by
  intro m
  cases m <;> exact fun ⟨he, _⟩ => Bool.false_ne_true he

/-- Settles O25: both bits are clear at power-on; an idle or refused step leaves them, and an operation keeps the
exclusion. -/
theorem doorbellExclusionIsKept : Obligations.DoorbellExclusionIsKept := by
  refine ⟨doorbellExclusive_powerOn, fun s t hs h => ?_⟩
  obtain rfl | ⟨packet, rest, -, rfl | hc⟩ := step_change h
  · exact hs.congr (door_idle s)
  · exact hs.congr fun m => (door_refuse _ m).trans (door_takePacket s rest m)
  · exact hc.doorbellExclusive (hs.congr (door_takePacket s rest))

/-! ### Runs -/

/-- A run of at least one step starts with a step that answers. -/
theorem run_succ_next {n : Nat} {s t : State} (h : run (n + 1) s = .next t) :
    ∃ u, step s = .next u ∧ run n u = .next t := by
  unfold run at h
  split at h
  · exact ⟨_, ‹_›, h⟩
  · exact nomatch h
  · exact nomatch h

theorem origins_succ {n : Nat} {s u : State} (h : step s = .next u) : origins (n + 1) s = s :: origins n u := by
  simp only [origins, h]

theorem trace_succ {n : Nat} {s u : State} (h : step s = .next u) : trace (n + 1) s = u :: trace n u := by
  simp only [trace, h]

/-- A run without an arming write by a lane that is not armed, and without a reset, delivers the lane nothing and leaves
it not armed, with a request queued if one was or the run performs one: requests coalesce (R62). -/
theorem run_door_of_not_armed {m : Main} {n : Nat} {s t : State} (he : (door s m).enable = false)
    (hrun : run n s = .next t) (hquiet : ∀ u ∈ origins n s, stepArms m u = false ∧ nextInstr u ≠ some .reset) :
    door t m = ⟨false, (door s m).pending || (origins n s).any (stepRequests m)⟩ ∧
      ∀ u ∈ trace n s, irqCount m u = 0 := by
  induction n generalizing s with
  | zero =>
    cases hrun
    exact ⟨by simpa [origins] using doorbell_eq_of_not_armed he, by simp [trace]⟩
  | succ n ih =>
    obtain ⟨u, hstep, hrest⟩ := run_succ_next hrun
    rw [origins_succ hstep] at hquiet ⊢
    rw [trace_succ hstep]
    obtain ⟨⟨harm, hreset⟩, hquiet⟩ := List.forall_mem_cons.1 hquiet
    obtain ⟨hdoor, hirq⟩ := step_door_of_not_armed hstep harm hreset he
    obtain ⟨hend, hnone⟩ := ih (by rw [hdoor]) hrest hquiet
    refine ⟨?_, List.forall_mem_cons.2 ⟨hirq, hnone⟩⟩
    rw [hend, hdoor, List.any_cons, Bool.or_assoc]

/-- Settles O26: the run ends with exactly PENDING set, and the arming write takes that one request. -/
theorem requestsCoalesceToOneInterrupt : Obligations.RequestsCoalesceToOneInterrupt := by
  intro m n s t he hrun hquiet hreq
  obtain ⟨hdoor, hnone⟩ := run_door_of_not_armed he hrun hquiet
  rw [List.any_eq_true.2 hreq, Bool.or_true] at hdoor
  refine ⟨hdoor, hnone, fun harm => ?_⟩
  obtain ⟨u, hstep, hu, hirq⟩ := step_of_stepArms harm
  rw [hdoor] at hu hirq
  exact ⟨u, hstep, hirq, hu⟩

end Sys2Proof.Machine

/-! SUPPORT. Sound: what each update of SRS does to its bits, and what the five transactions of R66 to R70 answer. -/

namespace Sys2Proof.Machine

/-! ### The bits of SRS -/

/-- Bits 0 and 1 of the mask 0b1100 are 0, so a post leaves them (R66). -/
theorem getLsbD_srsPosted_low (srs : Nibble) {i : Nat} (hi : i < 2) : (srsPosted srs).getLsbD i = srs.getLsbD i := by
  have hmask : ∀ i < 2, (0b1100 : Nibble).getLsbD i = false := by decide
  rw [srsPosted, BitVec.getLsbD_or, hmask i hi, Bool.or_false]

/-- Bits 2 and 3 of the mask 0b1100 are 1, so a post sets them (R66). -/
theorem getLsbD_srsPosted_high (srs : Nibble) {i : Nat} (h2 : 2 ≤ i) (h4 : i < 4) :
    (srsPosted srs).getLsbD i = true := by
  have hmask : ∀ i < 4, 2 ≤ i → (0b1100 : Nibble).getLsbD i = true := by decide
  rw [srsPosted, BitVec.getLsbD_or, hmask i h4 h2, Bool.or_true]

/-- A mask write keeps a bit where the data bit four above it is 1 (R68). -/
theorem getLsbD_srsMasked (srs : Nibble) (d : Byte) {i : Nat} (hi : i < 4) :
    (srsMasked srs d).getLsbD i = (srs.getLsbD i && d.getLsbD (4 + i)) := by
  rw [srsMasked, BitVec.getLsbD_and, BitVec.getLsbD_extractLsb', decide_eq_true hi, Bool.true_and]

/-- Completion of chip `c` sets bit `c` (R70). -/
theorem getLsbD_srsChipDone (srs : Nibble) (c : BitVec 1) {i : Nat} (hi : i < 4) :
    (srsChipDone srs c).getLsbD i = (srs.getLsbD i || decide (i = c.toNat)) := by
  have hbit : ∀ c : BitVec 1, ∀ i < 4, ((1 <<< c.toNat : Nat) : Nibble).getLsbD i = decide (i = c.toNat) := by decide
  rw [srsChipDone, BitVec.getLsbD_or, hbit c i hi]

/-- The byte of a status read is SRS as a number, so its upper nibble is 0 (R69). -/
theorem toNat_srsByte (srs : Nibble) : (srsByte srs).toNat = srs.toNat :=
  BitVec.toNat_setWidth_of_le (by decide)

/-! ### Sound operations -/

theorem exec_sndMboxWr (l : Lane) (off : Addr) (d : Byte) (s : State) :
    exec (.sndMboxWr l off d) s = .next (answerDone { s with mailbox := d, srs := srsPosted s.srs } []) := rfl

theorem exec_sndMboxRd (l : Lane) (off : Addr) (s : State) :
    exec (.sndMboxRd l off) s = .next (answerRead { s with mailbox := 0, srs := 0 } s.mailbox []) := rfl

theorem exec_sndRegWr (l : Lane) (off : Addr) (d : Byte) (s : State) :
    exec (.sndRegWr l off d) s = .next (answerDone { s with srs := srsMasked s.srs d } []) := rfl

theorem exec_sndRegRd (l : Lane) (off : Addr) (s : State) :
    exec (.sndRegRd l off) s = .next (answerRead s (srsByte s.srs) []) := rfl

theorem exec_chipDone (c : BitVec 1) (s : State) :
    exec (.chipDone c) s = .next (answerDone { s with srs := srsChipDone s.srs c } []) := rfl

/-- Settles O30: MAILBOX takes the data, and the mask of the post leaves bits 0 and 1 and sets bits 2 and 3. -/
theorem postStoresTheCommand : Obligations.PostStoresTheCommand :=
  fun s l off d => ⟨_, exec_sndMboxWr l off d s, rfl,
    getLsbD_srsPosted_low s.srs (by decide), getLsbD_srsPosted_low s.srs (by decide),
    getLsbD_srsPosted_high s.srs (by decide) (by decide), getLsbD_srsPosted_high s.srs (by decide) (by decide)⟩

/-- Settles O31: the answer is the mailbox of the state before the clear. -/
theorem mailboxReadAcknowledges : Obligations.MailboxReadAcknowledges :=
  fun s l off => exec_sndMboxRd l off s

/-- Settles O32: bit by bit, the mask is the upper nibble of the data. -/
theorem statusWriteMasks : Obligations.StatusWriteMasks :=
  fun s l off d => ⟨_, exec_sndRegWr l off d s, rfl, fun _ hi => getLsbD_srsMasked s.srs d hi⟩

/-- Settles O33: the byte answered is SRS zero-extended. -/
theorem statusReadIsZeroExtended : Obligations.StatusReadIsZeroExtended :=
  fun s l off => ⟨srsByte s.srs, toNat_srsByte s.srs, exec_sndRegRd l off s⟩

/-- Settles O34: bit by bit, the mask is 1 at the chip's number alone. -/
theorem chipCompletionSetsItsBit : Obligations.ChipCompletionSetsItsBit :=
  fun s c => ⟨_, exec_chipDone c s, rfl, fun _ hi => getLsbD_srsChipDone s.srs c hi⟩

end Sys2Proof.Machine

/-! SUPPORT. The router: the first claiming entry decides the route, a bus transaction runs the word of its route and
answers, and what reads and writes of a bank with the byte do. -/

namespace Sys2Proof.Machine

/-! ### Routes -/

/-- The first entry in list order that claims an address routes it (R76). -/
theorem route_of_first_claim {p : Profile} {l : Lane} {a : Addr} {before after : List MapEntry} {e : MapEntry}
    (hmap : p.map l = before ++ e :: after) (hbefore : ∀ e' ∈ before, ¬claims p e' a.toNat = true)
    (he : claims p e a.toNat = true) :
    route p l a = (e.kind, e.region, BitVec.ofNat 16 (entryOffset p e a.toNat)) := by
  have hfind : (p.map l).find? (fun e => claims p e a.toNat) = some e := by
    rw [hmap, List.find?_append, List.find?_eq_none.2 hbefore, Option.none_or, List.find?_cons, he]
  simp only [route, hfind]

/-- An address that no entry claims goes to the default store (R76). -/
theorem route_of_no_claim {p : Profile} {l : Lane} {a : Addr} (h : ∀ e ∈ p.map l, ¬claims p e a.toNat = true) :
    route p l a = (.dflt, 0, a) := by
  obtain ⟨-, hr⟩ | ⟨e, he, hc, -⟩ := route_cases p l a
  · exact hr
  · exact absurd hc (h e he)

/-- R77's two cases: modulo the region's length for the kinds with a region behind them, else the distance. -/
theorem entryOffset_eq (p : Profile) (e : MapEntry) (n : Nat) :
    entryOffset p e n =
      if e.kind = .rom ∨ e.kind = .ram ∨ e.kind = .shared then (n - e.start) % regionLen p e.region
      else n - e.start := by
  unfold entryOffset
  cases e.kind <;> rfl

/-- Settles O9: the statement's condition is `claims`, and the OFFSET field holds the entry's offset whole. -/
theorem firstClaimingEntryRoutes : Obligations.FirstClaimingEntryRoutes := by
  unfold Obligations.FirstClaimingEntryRoutes
  simp only [← claims_iff]
  refine ⟨fun p l a before after e hmap hbefore he => ?_, fun p l a => route_of_no_claim⟩
  rw [route_of_first_claim hmap hbefore he]
  exact ⟨rfl, rfl, (toNat_entryOffset p e a).trans (entryOffset_eq p e a.toNat)⟩

/-! ### Bus transactions -/

/-- The word of a routed access that the address decoder builds decodes to the operation that the multiplexer runs. -/
theorem decode_routeAccess {s : State} (hwf : wfProfile s.profile = true) (op : RW) (l : Lane) {a : Addr}
    (ha : a.toNat < 2 ^ s.profile.addrW) (d : Byte) :
    ∃ i, decode s.profile.addrW (.r (wordR (routeAccess s.profile op l a d))) = .ok i ∧
      multiplex (routeAccess s.profile op l a d) s = exec i s :=
  ⟨_, decode_wordR (routeAccess_ok hwf op l ha d).1, multiplex_eq_exec _ s⟩

/-- Settles O10: a bus transaction is the multiplexer on its routed access. -/
theorem busAccessRunsItsRoutedWord : Obligations.BusAccessRunsItsRoutedWord :=
  fun _ l _ d hwf ha => ⟨decode_routeAccess hwf .rd l ha 0, decode_routeAccess hwf .wr l ha d⟩

theorem bankRead_answers (b : Bank) (off : Addr) (s : State) :
    ∃ u v ev, bankRead b off s = .next (answerRead u v ev) := by
  unfold bankRead
  split <;> exact ⟨_, _, _, rfl⟩

theorem bankWrite_answers (b : Bank) (off : Addr) (d : Byte) (s : State) :
    ∃ u ev, bankWrite b off d s = .next (answerDone u ev) := by
  unfold bankWrite
  split <;> exact ⟨_, _, rfl⟩

theorem execDbSelfWr_answers (l : Lane) (off : Addr) (d : Byte) (s : State) :
    ∃ u ev, execDbSelfWr l off d s = .next (answerDone u ev) := by
  unfold execDbSelfWr
  split <;> exact ⟨_, _, rfl⟩

theorem execDbPeerRd_answers (l : Lane) (off : Addr) (s : State) :
    ∃ u v ev, execDbPeerRd l off s = .next (answerRead u v ev) := by
  unfold execDbPeerRd
  split <;> exact ⟨_, _, _, rfl⟩

theorem execInpRd_answers (l : Lane) (firstPort : RegionId) (off : Addr) (s : State) :
    ∃ u v ev, execInpRd l firstPort off s = .next (answerRead u v ev) := by
  unfold execInpRd
  split <;> exact ⟨_, _, _, rfl⟩

/-- Every routed read answers with a byte (R49). -/
theorem multiplex_rd_answers {r : Routed} (hop : r.op = .rd) (s : State) :
    ∃ u v ev, multiplex r s = .next (answerRead u v ev) := by
  obtain ⟨op, l, k, reg, off, d⟩ := r
  cases (hop : op = .rd)
  cases k with
  | rom => exact bankRead_answers _ off s
  | ram => exact bankRead_answers _ off s
  | shared => exact bankRead_answers _ off s
  | dflt => exact bankRead_answers _ off s
  | dbPeer => exact execDbPeerRd_answers l off s
  | inport => exact execInpRd_answers l reg off s
  | _ => exact ⟨_, _, _, rfl⟩

/-- Every routed write answers without a byte (R49). -/
theorem multiplex_wr_answers {r : Routed} (hop : r.op = .wr) (s : State) :
    ∃ u ev, multiplex r s = .next (answerDone u ev) := by
  obtain ⟨op, l, k, reg, off, d⟩ := r
  cases (hop : op = .wr)
  cases k with
  | ram => exact bankWrite_answers _ off d s
  | shared => exact bankWrite_answers _ off d s
  | dflt => exact bankWrite_answers _ off d s
  | dbSelf => exact execDbSelfWr_answers l off d s
  | _ => exact ⟨_, _, rfl⟩

/-- No routed access touches the REFUSED mark. -/
theorem multiplex_refused {r : Routed} {s t : State} (h : multiplex r s = .next t) : t.refused = s.refused := by
  obtain ⟨u, hu, hc⟩ := multiplex_change r s
  cases hu.symm.trans h
  exact hc.refused

/-- Settles O11: the routed access of a bus transaction answers, and no operation touches REFUSED. -/
theorem everyAccessCompletes : Obligations.EveryAccessCompletes := by
  intro s l a d _ _
  obtain ⟨u, v, ev, hr⟩ := multiplex_rd_answers (r := routeAccess s.profile .rd l a 0) rfl s
  obtain ⟨u', ev', hw⟩ := multiplex_wr_answers (r := routeAccess s.profile .wr l a d) rfl s
  exact ⟨⟨_, v, ev, hr, multiplex_refused hr, rfl⟩, ⟨_, ev', hw, multiplex_refused hw, rfl⟩⟩

/-! ### Reads and writes of a bank -/

/-- A ROM region reads as the profile's image, for memory lists no byte of it (R80). -/
theorem readBank_of_not_writable {s : State} (hs : MemoryOk s) {b : Bank} (hw : writable s.profile b = false)
    (off : Nat) : readBank s b off = initByte s.profile (b.cellAddr off) := by
  rw [readBank, readCell, lookup_rom hs hw, Option.getD_none]

/-- A read of a bank's byte answers it. -/
theorem bankRead_of_hasByte {s : State} {b : Bank} {off : Addr} (h : hasByte s.profile b off.toNat = true) :
    bankRead b off s = .next (answerRead s (readBank s b off.toNat) []) :=
  if_pos h

/-- A write of a bank's byte writes it. -/
theorem bankWrite_of_hasByte {s : State} {b : Bank} {off : Addr} (h : hasByte s.profile b off.toNat = true) (d : Byte) :
    bankWrite b off d s = .next (answerDone (writeBank s b off.toNat d) []) :=
  if_pos h

/-- A write to a bank changes the memory alone. -/
theorem writeBank_eq (s : State) (b : Bank) (off : Nat) (d : Byte) :
    writeBank s b off d = { s with mem := (writeBank s b off d).mem } := by
  unfold writeBank
  split <;> rfl

/-- A write of a byte that a bank has and stores: the byte is the data, every other byte of every bank is as before, and
nothing but the memory and the response differs. -/
theorem bankWrite_stores {s : State} (hs : MemoryOk s) {b : Bank} {off : Addr} (d : Byte)
    (hb : hasByte s.profile b off.toNat = true) (hw : writable s.profile b = true) :
    ∃ t : State, bankWrite b off d s = .next t ∧ t = { s with mem := t.mem, out := some ⟨none, []⟩ } ∧
      ∀ (bank : Bank) (o : Nat), readBank t bank o = if bank = b ∧ o = off.toNat then d else readBank s bank o :=
  ⟨_, bankWrite_of_hasByte hb d, congrArg (answerDone · []) (writeBank_eq s b off.toNat d),
    readBank_writeBank (wf_rising hs.1) hw⟩

/-- Settles O13: a ROM region is not writable, so its bytes are the image's. -/
theorem romReadsReturnTheImage : Obligations.RomReadsReturnTheImage := by
  intro s l r off rec hs hf hk hlt
  have hb : hasByte s.profile (.region r) off.toNat = true := by simpa only [hasByte, regionLen, hf, decide_eq_true_eq]
  have hw : writable s.profile (.region r) = false := by simp only [writable, hf, hk]; rfl
  rw [← readBank_of_not_writable hs hw]
  exact bankRead_of_hasByte hb

/-- Settles O15: RAM_WR and SHR_WR are the one write of the region's bank. -/
theorem regionWritesStoreTheByte : Obligations.RegionWritesStoreTheByte := by
  intro s l r off d hs hb hw
  obtain ⟨t, ht, hframe, hread⟩ := bankWrite_stores hs d hb hw
  exact ⟨t, ht, ht, hframe, hread⟩

/-- Settles O16: a lane's default store is a bank of its own, and it is writable. -/
theorem defaultStoreReadsAndWrites : Obligations.DefaultStoreReadsAndWrites := by
  intro s l off d ha
  have hb : hasByte s.profile (.dflt l) off.toNat = true := decide_eq_true ha
  exact ⟨bankRead_of_hasByte hb, fun hs => bankWrite_stores hs d hb rfl⟩

end Sys2Proof.Machine

/-! SUPPORT. Frames: what FRAME leaves in DIRTY, SCRATCH and FRAME, and the fields of tilemap cells and sprite entries as
arithmetic on their bytes. -/

namespace Sys2Proof.Machine

/-! ### DIRTY and SCRATCH after a FRAME -/

/-- What a FRAME that answers `t` leaves in the caches; it does not change the profile. -/
theorem caches_of_exec_frame {s t : State} (h : exec .frame s = .next t) :
    t.profile = s.profile ∧ t.dirty = (walked s).1 ∧ t.scratch = (walked s).2 := by
  obtain ⟨u, hu, hdirty, hscratch, -, hframe⟩ := exec_frame s
  cases hu.symm.trans h
  exact ⟨by rw [hframe], hdirty, hscratch⟩

/-- Where DIRTY has the profile's size, the walk of a FRAME leaves every slot up to date (R94). -/
theorem walked_upToDate {s : State} (hs : RenderShape s) :
    ∀ i < cellCount s.profile, (walked s).1.getD i none = some (cellAt s.profile (vramByte s) i) :=
  tileWalk_dirty (vramByte s) hs.2.2

/-- A slot that is not INVALID is one that DIRTY has. -/
theorem getElem?_of_getD_none {dirty : List DirtySlot} {i : Nat} {c : Byte × Byte} (h : dirty.getD i none = some c) :
    dirty[i]? = some (some c) := by
  rw [List.getD_eq_getElem?_getD, Option.getD_eq_iff] at h
  obtain hslot | ⟨-, hnone⟩ := h
  · exact hslot
  · exact nomatch hnone

/-- Settles O42: the walk visits every cell, and a visit leaves the cell's slot up to date. -/
theorem frameBringsDirtyUpToDate : Obligations.FrameBringsDirtyUpToDate := by
  intro s hs
  obtain ⟨t, ht, hdirty, -⟩ := exec_frame s
  refine ⟨t, ht, fun i hi => ?_⟩
  rw [hdirty]
  exact getElem?_of_getD_none (walked_upToDate hs i hi)

/-- Settles O43: the slots that the first FRAME brought up to date are up to date for the second, whose walk then hits at
every cell. -/
theorem unchangedTilemapIsNotRedrawn : Obligations.UnchangedTilemapIsNotRedrawn := by
  intro s t u hs ht hprofile hdirty _ hcells
  obtain ⟨htp, htd, -⟩ := caches_of_exec_frame ht
  have hup : u.profile = s.profile := hprofile.trans htp
  have hhit : ∀ i < cellCount u.profile, u.dirty.getD i none = some (cellAt u.profile (vramByte u) i) := by
    rw [hup, hdirty, htd]
    intro i hi
    rw [hcells i hi]
    exact walked_upToDate hs i hi
  have hwalk : walked u = (u.dirty, u.scratch) := tileWalk_hits hhit
  obtain ⟨v, hv, hvd, hvs, -⟩ := exec_frame u
  rw [hwalk] at hvd hvs
  exact ⟨hhit, v, hv, hvd, hvs⟩

/-- Settles O44: the walk keeps DIRTY coherent with SCRATCH and leaves every slot up to date, so each cell's pixels are
those of its raw bytes of now. -/
theorem dirtyCacheNeverChangesTheOutput : Obligations.DirtyCacheNeverChangesTheOutput := by
  rintro s ⟨hscratch, -, hdirty⟩ hcoherent
  obtain ⟨-, hshape, hcoh, hnow⟩ := tileWalk_law (vramByte s) (st := (s.dirty, s.scratch)) hdirty hscratch hcoherent
  obtain ⟨t, ht, -, hts, -⟩ := exec_frame s
  exact ⟨t, ht, hts.trans (scratch_eq_fullRedraw hshape hcoh hnow)⟩

/-! ### The pixels of a FRAME -/

/-- The scrolled copy has the shape of FRAME. -/
theorem scrolledCopy_shape (p : Profile) (vram : Nat → Byte) (scratch : Surface) :
    HasShape (scrolledCopy p vram scratch) p.visH p.visW :=
  makeSurface_shape _ _ _

/-- A pixel of the scrolled copy is the pixel of the torus at the place moved by the scroll values (R97). -/
theorem pixelAt_scrolledCopy {p : Profile} (vram : Nat → Byte) (scratch : Surface) {y x : Nat} (hy : y < p.visH)
    (hx : x < p.visW) :
    pixelAt (scrolledCopy p vram scratch) y x =
      pixelAt scratch ((y + scrollValue vram p.scrollyOff p.scrollyExt) % (p.gridH * p.cell))
        ((x + scrollValue vram p.scrollxOff p.scrollxExt) % (p.gridW * p.cell)) :=
  pixelAt_makeSurface _ hy hx

/-- The transparent pens in the mode of the flipped SHADOW (R107). -/
theorem transparentPens_flipped (p : Profile) (shadow : Bool) :
    transparentPens p (!shadow) = if shadow = false then [p.transPen] else [p.transPen, p.shadowPen] := by
  cases shadow <;> rfl

/-- Settles O45: the sprite passes paint over the scrolled copy, and the last stroke at a pixel is seen. -/
theorem framePixelsAreTopmostSpriteOverScrolledTiles : Obligations.FramePixelsAreTopmostSpriteOverScrolledTiles := by
  intro s
  obtain ⟨t, ht, -, hscratch, hframe, -⟩ := exec_frame s
  refine ⟨t, ht, fun y hy x hx => ?_⟩
  rw [transparentPens_flipped, ← hscratch] at hframe
  have htiles := pixelAt_scrolledCopy (vramByte s) t.scratch hy hx
  rw [scrollValue_eq, scrollValue_eq] at htiles
  rw [hframe, (spritePasses_law (vramByte s) _ (scrolledCopy_shape s.profile (vramByte s) t.scratch) hy hx).2]
  exact congrArg _ htiles

/-! ### The fields of cells and entries -/

/-- The tile index as division by a power of two (R92). -/
theorem tileIndex_eq (p : Profile) (code attr : Byte) :
    tileIndex p (code, attr) =
      (code.toNat + (attr.toNat / 2 ^ p.tbShift &&& p.tbMask) * p.tbStride) % p.tileCount := by
  rw [tileIndex, Nat.shiftRight_eq_div_pow]

/-- The colour selector as division by a power of two, and its four bits as a remainder (R92). -/
theorem tileColour_eq (p : Profile) (code attr : Byte) :
    tileColour p (code, attr) = (attr.toNat / 2 ^ p.tcShift % 16) ^^^ p.colorXor := by
  have hlow : ∀ n : Nat, n &&& 0xF = n % 16 := fun n => Nat.and_two_pow_sub_one_eq_mod n 4
  rw [tileColour, Nat.shiftRight_eq_div_pow, hlow]

/-- The low COLOR_BITS bits of the attribute as a remainder (R106). -/
theorem spriteColour_eq (L : SpriteLayer) (e : SpriteEntry) :
    spriteColour L e = e.at8.toNat % 2 ^ L.colorBits := by
  rw [spriteColour, Nat.one_shiftLeft, Nat.and_two_pow_sub_one_eq_mod]

/-- A bit times a number is the number where the bit is set. -/
theorem bitOf_mul (v : Byte) (b : Fin 8) (n : Nat) : bitOf v b * n = if v.getLsbD b.val then n else 0 := by
  unfold bitOf
  cases v.getLsbD b.val <;> simp

/-- Adding the strides of the set bank bits one by one is adding their sum (R105). -/
theorem foldr_bank_strides (v : Byte) (tile : Nat) (banks : List (Fin 8 × Nat)) :
    banks.foldr (fun b sum => (if v.getLsbD b.1.val then b.2 else 0) + sum) tile =
      tile + (banks.map fun b => bitOf v b.1 * b.2).sum := by
  induction banks with
  | nil => rfl
  | cons b banks ih => rw [List.foldr_cons, ih, List.map_cons, List.sum_cons, bitOf_mul]; omega

/-- The tile of an entry, each set bank bit adding its stride (R105). -/
theorem spriteTile_eq (L : SpriteLayer) (e : SpriteEntry) :
    spriteTile L e =
      L.banks.foldr (fun b sum => (if e.at8.getLsbD b.1.val then b.2 else 0) + sum) e.t8.toNat % L.sprTiles := by
  rw [spriteTile, foldr_bank_strides]

/-- Settles O47: each field is its shift or mask read as a quotient or a remainder, and the addresses are the model's. -/
theorem tileAndSpriteFieldsAreRead : Obligations.TileAndSpriteFieldsAreRead := by
  refine ⟨tileIndex_eq, tileColour_eq, fun _ _ _ => rfl, fun p code attr py px => ?_,
    fun _ _ _ => ⟨rfl, rfl, rfl, rfl⟩, fun L e pen => ?_, spriteColour_eq, spriteTile_eq⟩
  · rw [tilePixel, tileColour_eq, tileIndex_eq]
  · rw [spriteValue, spriteColour_eq]

end Sys2Proof.Machine

/-! SUPPORT. Sprites: the coordinates of an entry, and which layer the layer-order bit puts on top. -/

namespace Sys2Proof.Machine

/-- A 9-bit coordinate as a sum of integers (R104). -/
theorem coord9_cast (v8 at8 : Byte) (hi : Fin 8) : (coord9 v8 at8 hi : Int) = v8.toNat + 256 * bitOf at8 hi := by
  have hsum := coord9_eq v8 at8 hi
  omega

/-- Where the edge wrap puts a coordinate, given by its byte and its high bit (R104). -/
theorem wrapCoord_coord9_law {size : Nat} (h : size ≤ 512) (off : Int) (v8 at8 : Byte) (hi : Fin 8) :
    -(size : Int) ≤ wrapCoord size off (coord9 v8 at8 hi) ∧ wrapCoord size off (coord9 v8 at8 hi) < 512 - size ∧
      (wrapCoord size off (coord9 v8 at8 hi) - (v8.toNat + 256 * bitOf at8 hi + off)) % 512 = 0 := by
  rw [← coord9_cast]
  exact wrapCoord_law size off (coord9 v8 at8 hi) h

/-- Settles O46: each coordinate is the edge wrap of a byte and its high bit. -/
theorem spriteCoordinatesWrapAtTheEdge : Obligations.SpriteCoordinatesWrapAtTheEdge := fun L e h =>
  ⟨wrapCoord_coord9_law h L.xOff e.x8 e.at8 L.xhiBit, wrapCoord_coord9_law h L.yOff e.y8 e.at8 L.yhiBit⟩

/-- The order of two layers' passes as a case on the layer-order bit: the layer on top is drawn last (R111). -/
theorem drawOrder_pair {p : Profile} (vram : Nat → Byte) {small big : SpriteLayer} (hp : p.layers = [small, big]) :
    drawOrder p vram =
      if (vram p.layerOrder.1).getLsbD p.layerOrder.2.val then [small, big] else [big, small] := by
  rw [drawOrder, hp, bitOf]
  cases (vram p.layerOrder.1).getLsbD p.layerOrder.2.val <;> rfl

/-- One layer is drawn whatever the layer-order bit (R111). -/
theorem drawOrder_single {p : Profile} (vram : Nat → Byte) {only : SpriteLayer} (hp : p.layers = [only]) :
    drawOrder p vram = [only] := by
  rw [drawOrder, hp]

/-- Of two layers, the one drawn last shows where it shows anything, and the other elsewhere. -/
theorem spritesShow_pair {p : Profile} {vram : Nat → Byte} (pens : List Nat) {first last : SpriteLayer} (y x : Nat)
    (h : drawOrder p vram = [first, last]) :
    spritesShow p vram pens y x = (layerShows vram pens last y x).or (layerShows vram pens first y x) := by
  have hlastFirst : [first, last].reverse = [last] ++ [first] := rfl
  rw [spritesShow, h, hlastFirst, List.findSome?_append, List.findSome?_singleton, List.findSome?_singleton]

/-- Settles O48: the bit picks the order of the two passes, and the layer drawn last is on top. -/
theorem layerOrderBitPicksTheTopLayer : Obligations.LayerOrderBitPicksTheTopLayer := by
  refine ⟨fun p vram pens small big y x hp => ⟨fun hbit => ?_, fun hbit => ?_⟩, fun p vram pens only y x hp => ?_⟩
  · exact spritesShow_pair pens y x ((drawOrder_pair vram hp).trans (if_neg (Bool.eq_false_iff.mp hbit)))
  · exact spritesShow_pair pens y x ((drawOrder_pair vram hp).trans (if_pos hbit))
  · rw [spritesShow, drawOrder_single vram hp, List.reverse_singleton, List.findSome?_singleton]

end Sys2Proof.Machine

/-! SUPPORT. Input: the pipeline of an input read, the busy injection bit by bit, the 8-way decode, and the 12-way decoder
along a smooth rotation. -/

namespace Sys2Proof.Machine

/-! ### Input reads and writes -/

/-- The logical input that feeds a port. -/
def inputSource (s : State) (port : Fin 12) : DrawSource := .input (s.profile.inputPortMap.get port)

/-- The byte of a port after its rotary transform, with the state the draw and the transform leave (R115). -/
def decodedInput (s : State) (port : Fin 12) : Byte × State :=
  rotaryTransform port (drawByte s (inputSource s port)) (afterDraw s (inputSource s port))

section RotaryModes
variable {s : State} {port : Fin 12}

/-- A port without rotary decode passes the raw byte (R115). -/
theorem decodedInput_none (hmode : s.profile.rotaryMode.get port = .none) :
    decodedInput s port = (drawByte s (inputSource s port), afterDraw s (inputSource s port)) := by
  rw [decodedInput, rotaryTransform, afterDraw_profile, hmode]

/-- A WAY8 port decodes the byte and moves no decoder (R118). -/
theorem decodedInput_way8 (hmode : s.profile.rotaryMode.get port = .way8) :
    decodedInput s port =
      (rot8 s.profile (drawByte s (inputSource s port)), afterDraw s (inputSource s port)) := by
  rw [decodedInput, rotaryTransform, afterDraw_profile, hmode]

/-- A WAY12 port steps its player's decoder and decodes the byte by the new count (R119). -/
theorem decodedInput_way12 {q : Player} (hmode : s.profile.rotaryMode.get port = .way12 q) :
    decodedInput s port =
      (rot12Byte s.profile (rotaryStep (rotary s q) (dial (drawByte s (inputSource s port))))
          (drawByte s (inputSource s port)),
        setRotary (afterDraw s (inputSource s port)) q
          (rotaryStep (rotary s q) (dial (drawByte s (inputSource s port))))) := by
  rw [decodedInput, rotaryTransform, afterDraw_profile, hmode]
  dsimp only
  rw [rotary_afterDraw]

end RotaryModes

/-- Whatever the port's mode, decoding an input changes the two decoders and uses up a draw, and nothing else (R115). -/
theorem decodedInput_frame (s : State) (port : Fin 12) :
    (decodedInput s port).2 =
      { s with rot0 := (decodedInput s port).2.rot0, rot1 := (decodedInput s port).2.rot1,
               answers := (decodedInput s port).2.answers, nDraws := (decodedInput s port).2.nDraws } := by
  cases hmode : s.profile.rotaryMode.get port with
  | none => rw [decodedInput_none hmode]; rfl
  | way8 => rw [decodedInput_way8 hmode]; rfl
  | way12 q => rw [decodedInput_way12 hmode]; cases q <;> rfl

/-- An input read answers the decoded byte after the busy injection (R115). -/
theorem exec_inpRd {p0 : RegionId} {off : Addr} {port : Fin 12} (l : Lane) (s : State)
    (hport : port.val = p0.toNat + off.toNat) :
    exec (.inpRd l p0 off) s =
      .next (answerRead (decodedInput s port).2 (injectBusy l port (decodedInput s port).1 s) []) := by
  change execInpRd l p0 off s = _
  rw [execInpRd, portOf_eq hport]
  rfl

theorem exec_inpWr (l : Lane) (p0 : RegionId) (off : Addr) (d : Byte) (s : State) :
    exec (.inpWr l p0 off d) s = .next (answerDone s []) := rfl

/-- Settles O35: the drawn byte goes through the port's transform, of which there is one case per rotary mode, and then
through the busy injection. -/
theorem inputReadPipeline : Obligations.InputReadPipeline := by
  intro s l p0 off port hport
  refine ⟨_, _, (decodedInput s port).1, exec_inpRd l s hport, rfl, ?_, fun hmode => ?_, fun hmode => ?_,
    fun q hmode => ?_, ?_⟩
  · rw [decodedInput_frame]
    rfl
  · rw [decodedInput_none hmode]
    exact ⟨rfl, fun q => by rw [rotary_answerRead, rotary_afterDraw]⟩
  · rw [decodedInput_way8 hmode]
    exact ⟨rfl, fun q => by rw [rotary_answerRead, rotary_afterDraw]⟩
  · rw [decodedInput_way12 hmode, rotary_answerRead, rotary_setRotary_same]
    refine ⟨rfl, rfl, fun q' hq => ?_⟩
    rw [rotary_answerRead, rotary_setRotary_other _ _ hq, rotary_afterDraw]
  · rw [← injectBusy_eq]
    rfl

/-- A listed answer of the source at the head is the byte drawn. -/
theorem drawByte_head {s : State} {src : DrawSource} {v : Byte} {rest : List (DrawSource × Byte)}
    (hanswers : s.answers = (src, v) :: rest) : drawByte s src = v := by
  rw [drawByte, hanswers, takeAnswer, if_pos rfl]

/-- Bit by bit, `clearBusy` clears the mask and passes the rest (R117). -/
theorem getLsbD_clearBusy (p : Profile) (v : Byte) {i : Nat} (hi : i < 8) :
    (clearBusy p v).getLsbD i = (v.getLsbD i && !p.soundBusyBit.getLsbD i) := by
  rw [clearBusy, BitVec.getLsbD_and, BitVec.getLsbD_not, decide_eq_true hi, Bool.true_and]

/-- Settles O36: without a rotary transform the decoded byte is the raw one, so the injection alone decides the answer. -/
theorem busyInjectionClearsExactlyTheMask : Obligations.BusyInjectionClearsExactlyTheMask := by
  intro s l p0 off port raw rest hport hmode hanswers
  have hraw : (decodedInput s port).1 = raw := by
    rw [decodedInput_none hmode]
    exact drawByte_head hanswers
  refine ⟨_, injectBusy l port raw s, exec_inpRd l s hport, by rw [hraw]; rfl, fun hp hl hb i hi => ?_, fun h => ?_⟩
  · rw [injectBusy_eq, if_pos ⟨hp, hl, hb⟩]
    exact getLsbD_clearBusy s.profile raw hi
  · rw [injectBusy_eq, if_neg]
    rintro ⟨hp, hl, hb⟩
    obtain hp' | hl' | hb' := h
    · exact hp' hp
    · exact hl hl'
    · exact Bool.false_ne_true (hb.symm.trans hb')

/-- Settles O37: the table entry is picked by half the upper nibble. -/
theorem eightWayDecode : Obligations.EightWayDecode := by
  rintro p raw ⟨k, hlt⟩ hk
  obtain rfl : k = (dial raw).toNat / 2 := by rw [dial_toNat]; exact hk
  exact withCode_toNat (p.rot8Table.get ⟨_, hlt⟩) raw

/-- Settles O40: the answer of a write is empty and changes only the response. -/
theorem inputWritesAreIgnored : Obligations.InputWritesAreIgnored :=
  fun s l p0 off d _ => exec_inpWr l p0 off d s

/-! ### A smooth rotation -/

/-- The decoder once the dial has moved smoothly from 0 up to `n` (R120). -/
def smoothRotary (n : Nat) : Rotary := ⟨BitVec.ofNat 4 n, Fin.ofNat 12 n⟩

/-- One position up is a movement of +1, the one from 15 to 0 included (R119). -/
theorem dialDelta_succ (n : Nat) : dialDelta (BitVec.ofNat 4 (n + 1)) (BitVec.ofNat 4 n) = 1 := by
  unfold dialDelta
  simp only [BitVec.toNat_ofNat]
  omega

/-- A movement of +1 moves the count by 1 modulo 12. -/
theorem rotaryStep_smoothRotary (n : Nat) :
    rotaryStep (smoothRotary n) (BitVec.ofNat 4 (n + 1)) = smoothRotary (n + 1) := by
  have hcnt : ((((n % 12 : Nat) : Int) + 1) % 12).toNat % 12 = (n + 1) % 12 := by omega
  rw [rotaryStep, smoothRotary, dialDelta_succ]
  exact congrArg _ (Fin.ext hcnt)

/-- The decoder follows a smooth rotation of any length (R120). -/
theorem rotaryRun_smooth (n : Nat) :
    rotaryRun ((List.range (n + 1)).map (BitVec.ofNat 4)) = smoothRotary n := by
  induction n with
  | zero => rfl
  | succ n ih =>
    rw [List.range_succ, List.map_append, rotaryRun, List.foldl_append, ← rotaryRun, ih]
    exact rotaryStep_smoothRotary n

/-- Settles O39, by induction on the number of polls: each one after the first moves the count by 1. -/
theorem smoothRotationCountsUp : Obligations.SmoothRotationCountsUp := by
  intro n
  rw [rotaryRun_smooth]
  exact ⟨rfl, BitVec.toNat_ofNat n 4, rfl, dialDelta_succ n⟩

end Sys2Proof.Machine

/-! SUPPORT. Interrupts: the two sources of R127, the bound of R128 on one transaction, and R129's re-arming, along
a run too. -/

namespace Sys2Proof.Machine

/-! ### When a doorbell change fires -/

/-- An arming write delivers an interrupt exactly when a request is queued (R57). -/
theorem fires_doorSelfWrite (d : Doorbell) : (doorSelfWrite d).2 = d.pending := by
  cases h : d.pending with
  | true => rw [doorSelfWrite_of_pending h]
  | false => rw [doorSelfWrite_of_not_pending h]

/-- A notification delivers an interrupt exactly when the lane is armed (R58). -/
theorem fires_doorNotified (d : Doorbell) : (doorNotified d).2 = d.enable := by
  cases h : d.enable with
  | true => rw [doorNotified_of_armed h]
  | false => rw [doorNotified_of_not_armed h]

/-! ### What a step delivers to a lane -/

/-- An operation that requests an interrupt of a lane is no arming write by it: the two have different names. -/
theorem isArming_of_isRequestFor {m : Main} {i : Instr} (h : isRequestFor m i = true) : isArming m i = false := by
  cases i with
  | dbSelfWr l off d => exact nomatch h
  | _ => rfl

/-- A step that performs a request for a lane performs no arming write by it. -/
theorem stepArms_of_stepRequests {m : Main} {s : State} (h : stepRequests m s = true) : stepArms m s = false := by
  obtain ⟨i, hi, hreq⟩ := (Option.any_eq_true _ _).1 h
  rw [stepArms, hi, Option.any_some, isArming_of_isRequestFor hreq]

theorem nextPerformed_of_reset {s : State} (h : nextInstr s = some .reset) : nextPerformed s = some .reset := by
  rw [nextPerformed, h]
  rfl

/-- The interrupts of a step to a lane: one if the step performs the lane's arming write with a request queued, or a
request for the lane while it is armed, and else none (R127). -/
theorem irqCount_of_step (m : Main) {s t : State} (h : step s = .next t) :
    irqCount m t = if stepArms m s then (door s m).pending.toNat
      else if stepRequests m s then (door s m).enable.toNat else 0 := by
  obtain ⟨-, hirq⟩ := step_door m h
  rw [hirq, stepArms, stepRequests]
  cases nextPerformed s with
  | none => rfl
  | some i => simp only [irqsOf, Option.any_some, fires_doorSelfWrite, fires_doorNotified]

/-- A step delivers one interrupt to a lane exactly by one of R127's two sources. -/
theorem irqCount_eq_one_iff (m : Main) {s t : State} (h : step s = .next t) :
    irqCount m t = 1 ↔ (stepRequests m s = true ∧ (door s m).enable = true) ∨
      (stepArms m s = true ∧ (door s m).pending = true) := by
  rw [irqCount_of_step m h]
  cases hreq : stepRequests m s with
  | true => simp [stepArms_of_stepRequests hreq, Bool.toNat_eq_one]
  | false => cases stepArms m s <;> simp [Bool.toNat_eq_one]

/-! ### What a step that delivers leaves in the bits -/

/-- The bits of a lane after a step that performs the lane's arming write. -/
theorem door_of_stepArms {m : Main} {s t : State} (h : step s = .next t) (ha : stepArms m s = true) :
    door t m = (doorSelfWrite (door s m)).1 := by
  obtain ⟨t', ht', hdoor, -⟩ := step_of_stepArms ha
  cases h.symm.trans ht'
  exact hdoor

/-- The bits of a lane after a step that performs a request for it. -/
theorem door_of_stepRequests {m : Main} {s t : State} (h : step s = .next t) (hr : stepRequests m s = true) :
    door t m = (doorNotified (door s m)).1 := by
  have hreset : nextInstr s ≠ some .reset := by
    intro e
    simp [stepRequests, nextPerformed_of_reset e, isRequestFor] at hr
  obtain ⟨hdoor, -⟩ := step_door_of_not_arms h (stepArms_of_stepRequests hr) hreset
  rw [hdoor, if_pos hr]

/-- Settles O27: the interrupts of a step counted by its source; a notification leaves ENABLE clear, and an arming write
PENDING. -/
theorem interruptsHaveExactlyTwoSources : Obligations.InterruptsHaveExactlyTwoSources := by
  intro s t m h
  refine ⟨irqCount_eq_one_iff m h, fun hr _ => ?_, fun ha _ => ?_⟩
  · rw [door_of_stepRequests h hr, enable_doorNotified]
  · rw [door_of_stepArms h ha, pending_doorSelfWrite]

/-! ### Both lanes together -/

/-- A response without an interrupt in it delivers none. -/
theorem irqTotal_eq_zero_of_quiet {t : State} {v : Option Byte} {ev : List Event} (hout : t.out = some ⟨v, ev⟩)
    (quiet : ∀ m, Event.irq m ∉ ev) : irqTotal t = 0 := by
  simp only [irqTotal, irqCount, eventsOf, hout, List.count_eq_zero.2 (quiet _)]

theorem irqTotal_le_one_of_quiet {t : State} {v : Option Byte} {ev : List Event} (hout : t.out = some ⟨v, ev⟩)
    (quiet : ∀ m, Event.irq m ∉ ev) : irqTotal t ≤ 1 :=
  irqTotal_eq_zero_of_quiet hout quiet ▸ Nat.zero_le 1

/-- A doorbell change interrupts its own lane, at most once, and not the other. -/
theorem count_doorEvents_total_le_one (m : Main) (fires : Bool) :
    (doorEvents m fires).count (.irq .a) + (doorEvents m fires).count (.irq .b) ≤ 1 := by
  rw [count_doorEvents, count_doorEvents]
  cases m <;> simpa using Bool.toNat_le fires

/-- An operation delivers at most one interrupt: only the two doorbell changes deliver any, each to the one lane it is
of. -/
theorem Change.irqTotal_le_one {s t : State} (h : Change s t) : irqTotal t ≤ 1 := by
  cases h with
  | armed m => exact count_doorEvents_total_le_one m _
  | notified m => exact count_doorEvents_total_le_one m _
  | respond v ev quiet => exact irqTotal_le_one_of_quiet rfl quiet
  | drew src v ev quiet => exact irqTotal_le_one_of_quiet rfl quiet
  | _ => exact irqTotal_le_one_of_quiet rfl (by simp)

/-- Settles O28: an idle or refused step has no response, and an operation delivers at most one interrupt. -/
theorem atMostOneInterruptPerStep : Obligations.AtMostOneInterruptPerStep := by
  intro s t h
  obtain rfl | ⟨packet, rest, -, rfl | hc⟩ := step_change h
  · exact Nat.zero_le 1
  · exact Nat.zero_le 1
  · exact hc.irqTotal_le_one

/-! ### Re-arming -/

/-- Under the exclusion of R61, a delivery leaves both bits clear: the bit that caused it is cleared, and the other was
clear before. -/
theorem door_of_delivery {m : Main} {s t : State} (hs : DoorbellExclusive s) (h : step s = .next t)
    (hirq : irqCount m t = 1) : door t m = ⟨false, false⟩ := by
  obtain ⟨hr, he⟩ | ⟨ha, hp⟩ := (irqCount_eq_one_iff m h).1 hirq
  · have hp : (door s m).pending = false := Bool.eq_false_iff.2 fun hp => hs m ⟨he, hp⟩
    rw [door_of_stepRequests h hr, doorNotified_of_armed he, hp]
  · have he : (door s m).enable = false := Bool.eq_false_iff.2 fun he => hs m ⟨he, hp⟩
    rw [door_of_stepArms h ha, doorSelfWrite_of_pending hp, he]

/-- A step that performs no arming write by a lane that is not armed leaves it not armed and delivers it nothing; a
RESET is such a step too. -/
theorem step_of_not_armed {m : Main} {s t : State} (h : step s = .next t) (ha : stepArms m s = false)
    (he : (door s m).enable = false) : (door t m).enable = false ∧ irqCount m t = 0 := by
  by_cases hr : nextInstr s = some .reset
  · obtain ⟨hdoor, hirq⟩ := step_door m h
    rw [nextPerformed_of_reset hr] at hdoor hirq
    exact ⟨congrArg Doorbell.enable hdoor, hirq⟩
  · obtain ⟨hdoor, hirq⟩ := step_door_of_not_armed h ha hr he
    exact ⟨congrArg Doorbell.enable hdoor, hirq⟩

/-- What a run's steps have in common: an invariant that a step keeps while it meets a condition gives its consequence
at every state that the run passes through. -/
theorem forall_mem_trace {inv cond post : State → Prop}
    (hstep : ∀ {s t}, step s = .next t → cond s → inv s → inv t ∧ post t) {n : Nat} {s : State} (hs : inv s)
    (hcond : ∀ u ∈ origins n s, cond u) : ∀ u ∈ trace n s, post u := by
  induction n generalizing s with
  | zero => simp [trace]
  | succ n ih =>
    cases h : step s with
    | next t =>
      rw [origins_succ h] at hcond
      obtain ⟨hc, hrest⟩ := List.forall_mem_cons.1 hcond
      obtain ⟨ht, hpost⟩ := hstep h hc hs
      rw [trace_succ h]
      exact List.forall_mem_cons.2 ⟨hpost, ih ht hrest⟩
    | fault r => simp [trace, h]
    | refused r => simp [trace, h]

/-- Settles O29: the delivery of one step, and the lane not armed as the invariant of the run. -/
theorem noInterruptWithoutRearming : Obligations.NoInterruptWithoutRearming :=
  ⟨fun _ _ _ hs h hirq => door_of_delivery hs h hirq,
    fun m _ _ he hquiet => forall_mem_trace (inv := fun s => (door s m).enable = false) step_of_not_armed he hquiet⟩

end Sys2Proof.Machine

/-! SUPPORT. Power-on and reset: what RESET clears, and the well-formedness of a profile as the check-by-check list of
R87, R101 and R114, from which the REFUSED mark of the power-on state follows. -/

namespace Sys2Proof.Machine

/-! ### Reset -/

theorem exec_reset (s : State) : exec .reset s =
    .next (answerDone { s with doorA := ⟨false, false⟩, doorB := ⟨false, false⟩, srs := 0, mailbox := 0 } []) := rfl

/-- Settles O56: RESET's next state is the old one with the doorbell bits and the sound state cleared, and an empty
answer. -/
theorem machineResetClearsDoorbellAndSound : Obligations.MachineResetClearsDoorbellAndSound :=
  fun s => ⟨_, exec_reset s, rfl, fun m => by cases m <;> exact ⟨rfl, rfl⟩⟩

/-! ### The checks of a profile

The structures below deny the constructors of `FailsCheck` one by one; the lemmas tie them to the model's Boolean checks. -/

/-- R87 check 1. -/
structure RegionsOk (p : Profile) : Prop where
  ids : (p.regions.map (fun r => r.id)).Nodup
  length : ∀ r ∈ p.regions, ¬(r.len = 0 ∨ 2 ^ p.addrW < r.len)

/-- R87 checks 2 to 8 for one entry of a lane's map. -/
structure EntryOk (p : Profile) (l : Lane) (e : MapEntry) : Prop where
  range : ¬(e.stop < e.start ∨ 2 ^ p.addrW ≤ e.stop)
  notDefault : e.kind ≠ .dflt
  rom : e.kind = .rom → ¬∀ r ∈ p.regions, r.id = e.region → ¬(r.kind = .rom ∧ l ∈ r.visibleTo)
  ram : e.kind = .ram ∨ e.kind = .shared → ¬∀ r ∈ p.regions, r.id = e.region → ¬(r.kind = .ram ∧ l ∈ r.visibleTo)
  shared : e.kind = .shared →
    ¬∀ r ∈ p.regions, r.id = e.region → ∀ l₁ ∈ r.visibleTo, ∀ l₂ ∈ r.visibleTo, l₁ = l₂
  doorbell : l = .s → ¬(e.kind = .dbSelf ∨ e.kind = .dbPeer)
  port : e.kind = .inport → ¬11 < e.region.toNat + (e.stop - e.start)
  regionZero : e.kind ∈ [Kind.hardflag, .dbSelf, .dbPeer, .sndMbox, .sndReg] → e.region = 0

/-- R101. -/
structure TilesOk (p : Profile) : Prop where
  vram : ¬∀ r ∈ p.regions, r.id = p.vram → r.kind ≠ .ram
  tilemap : ¬(regionLen p p.vram < p.tilemapBase + p.gridW * p.gridH ∨
    regionLen p p.vram < p.attrBase + p.gridW * p.gridH)
  scroll : ¬(regionLen p p.vram ≤ p.scrollxOff ∨ regionLen p p.vram ≤ p.scrollyOff)
  scrollExt : ∀ o b, p.scrollxExt = some (o, b) ∨ p.scrollyExt = some (o, b) → ¬regionLen p p.vram ≤ o
  format : ¬((p.cell ≠ 8 ∧ p.cell ≠ 16) ∨ 4 < p.tcShift ∨ 16 ≤ p.colorXor)
  counts : ¬(p.tileCount = 0 ∨ p.tilePens = 0)
  pens : ∀ t py px, t < p.tileCount → py < p.cell → px < p.cell → ¬p.tilePens ≤ penAt p.tileBitmap t py px

/-- R114 checks 2 and 3 for one layer. -/
structure LayerOk (p : Profile) (L : SpriteLayer) : Prop where
  format : ¬(regionLen p p.vram < L.tableBase + 4 * L.count ∨ (L.size ≠ 16 ∧ L.size ≠ 32) ∨
    (L.colorBits ≠ 3 ∧ L.colorBits ≠ 4))
  pens : ∀ t py px, t < L.sprTiles → py < L.size → px < L.size → ¬L.sprPens ≤ penAt L.bitmap t py px

/-- R114. -/
structure SpritesOk (p : Profile) : Prop where
  count : ¬(p.layers.length ≠ 1 ∧ p.layers.length ≠ 2)
  layer : ∀ L ∈ p.layers, LayerOk p L
  order : p.layers.length = 2 → ¬regionLen p p.vram ≤ p.layerOrder.1
  shadow : ((p.shadowPen : Int) - p.transPen).natAbs = 1

/-- No check fails exactly where each of them is denied. -/
theorem not_failsCheck_iff (p : Profile) :
    ¬FailsCheck p ↔ RegionsOk p ∧ (∀ l, ∀ e ∈ p.map l, EntryOk p l e) ∧ TilesOk p ∧ SpritesOk p := by
  constructor
  · intro hf
    exact ⟨
      { ids := Decidable.not_not.1 fun h => hf (.sameRegionId h)
        length := fun r hr h => hf (.regionLength r hr h) },
      fun l e he =>
        { range := fun h => hf (.entryRange l e he h)
          notDefault := fun h => hf (.defaultEntry l e he h)
          rom := fun hk h => hf (.romEntry l e he hk h)
          ram := fun hk h => hf (.ramEntry l e he hk h)
          shared := fun hk h => hf (.sharedEntry l e he hk h)
          doorbell := fun hl h => hf (.doorbellOfS e (by rwa [hl] at he) h)
          port := fun hk h => hf (.portRange l e he hk h)
          regionZero := fun hk => Decidable.not_not.1 fun h => hf (.regionNotZero l e he hk h) },
      { vram := fun h => hf (.vramKind h)
        tilemap := fun h => hf (.tilemapRange h)
        scroll := fun h => hf (.scrollRange h)
        scrollExt := fun o b he h => hf (.scrollExtRange o b he h)
        format := fun h => hf (.cellFormat h)
        counts := fun h => hf (.tileCounts h)
        pens := fun t py px ht hy hx h => hf (.tilePen t py px ht hy hx h) },
      { count := fun h => hf (.layerCount h)
        layer := fun L hL =>
          { format := fun h => hf (.layerFormat L hL h)
            pens := fun t py px ht hy hx h => hf (.spritePen L hL t py px ht hy hx h) }
        order := fun hn h => hf (.layerOrderRange hn h)
        shadow := Decidable.not_not.1 fun h => hf (.shadowPen h) }⟩
  · rintro ⟨regions, entries, tiles, sprites⟩ hf
    cases hf with
    | sameRegionId h => exact h regions.ids
    | regionLength r hr h => exact regions.length r hr h
    | entryRange l e he h => exact (entries l e he).range h
    | defaultEntry l e he h => exact (entries l e he).notDefault h
    | romEntry l e he hk h => exact (entries l e he).rom hk h
    | ramEntry l e he hk h => exact (entries l e he).ram hk h
    | sharedEntry l e he hk h => exact (entries l e he).shared hk h
    | doorbellOfS e he h => exact (entries .s e he).doorbell rfl h
    | portRange l e he hk h => exact (entries l e he).port hk h
    | regionNotZero l e he hk h => exact h ((entries l e he).regionZero hk)
    | vramKind h => exact tiles.vram h
    | tilemapRange h => exact tiles.tilemap h
    | scrollRange h => exact tiles.scroll h
    | scrollExtRange o b he h => exact tiles.scrollExt o b he h
    | cellFormat h => exact tiles.format h
    | tileCounts h => exact tiles.counts h
    | tilePen t py px ht hy hx h => exact tiles.pens t py px ht hy hx h
    | layerCount h => exact sprites.count h
    | layerFormat L hL h => exact (sprites.layer L hL).format h
    | spritePen L hL t py px ht hy hx h => exact (sprites.layer L hL).pens t py px ht hy hx h
    | layerOrderRange hn h => exact sprites.order hn h
    | shadowPen h => exact h sprites.shadow

/-! ### The Boolean checks -/

/-- Where ids are unique, the region that an id names meets a condition exactly where not every region of that id fails
it. -/
theorem exists_findRegion_iff {p : Profile} (hids : (p.regions.map (fun r => r.id)).Nodup) (id : RegionId)
    (cond : Region → Prop) :
    (∃ r, findRegion p id = some r ∧ cond r) ↔ ¬∀ r ∈ p.regions, r.id = id → ¬cond r := by
  constructor
  · rintro ⟨r, hf, hc⟩ hall
    obtain ⟨hr, hid⟩ := mem_of_findRegion hf
    exact hall r hr hid hc
  · intro h
    refine Classical.byContradiction fun hnone => h fun r hr hid hc => hnone ⟨r, ?_, hc⟩
    rw [← hid]
    exact findRegion_of_mem hids hr

theorem wfRanges_iff (p : Profile) : wfRanges p = true ↔ InRanges p := by
  simp [wfRanges, InRanges, and_assoc]

theorem wfRegions_iff (p : Profile) : wfRegions p = true ↔ RegionsOk p := by
  simp only [wfRegions, Bool.and_eq_true, decide_eq_true_eq, List.all_eq_true]
  constructor
  · rintro ⟨hids, hlen⟩
    exact ⟨hids, fun r hr h => by have := hlen r hr; omega⟩
  · rintro ⟨hids, hlen⟩
    exact ⟨hids, fun r hr => by have := hlen r hr; omega⟩

theorem pensBelow_iff (table : BitmapTable) (count size pens : Nat) :
    pensBelow table count size pens = true ↔
      ∀ t py px, t < count → py < size → px < size → ¬pens ≤ penAt table t py px := by
  simp only [pensBelow, List.all_eq_true, List.mem_range, decide_eq_true_eq, Nat.not_le]
  exact ⟨fun h t py px ht hy hx => h t ht py hy px hx, fun h t ht py hy px hx => h t py px ht hy hx⟩

theorem wfMaps_iff (p : Profile) : wfMaps p = true ↔ ∀ l, ∀ e ∈ p.map l, wfEntry p l e = true := by
  simp only [wfMaps, Bool.and_eq_true, List.all_eq_true]
  constructor
  · rintro ⟨⟨ha, hb⟩, hs⟩ l
    cases l with
    | a => exact ha
    | b => exact hb
    | s => exact hs
  · exact fun h => ⟨⟨h .a, h .b⟩, h .s⟩

theorem writable_region_iff (p : Profile) (id : RegionId) :
    writable p (.region id) = true ↔ ∃ r, findRegion p id = some r ∧ r.kind = .ram := by
  simp only [writable]
  cases findRegion p id with
  | none => simp
  | some r => simp

theorem inVram_iff (p : Profile) (off : Nat) : inVram p off = true ↔ ¬regionLen p p.vram ≤ off := by
  simp [inVram]

theorem wfTiles_iff {p : Profile} (hp : RegionsOk p) : wfTiles p = true ↔ TilesOk p := by
  simp only [wfTiles, Bool.and_eq_true, Bool.or_eq_true, decide_eq_true_eq, beq_iff_eq, Option.all_eq_true, inVram_iff,
    pensBelow_iff, writable_region_iff, exists_findRegion_iff hp.ids]
  constructor
  · rintro ⟨⟨⟨⟨⟨vram, tilemap⟩, ⟨scroll, hx⟩, hy⟩, format⟩, counts⟩, pens⟩
    refine ⟨vram, by omega, by omega, fun o b he => ?_, by omega, by omega, pens⟩
    obtain he | he := he
    · exact hx _ he
    · exact hy _ he
  · rintro ⟨vram, tilemap, scroll, scrollExt, format, counts, pens⟩
    exact ⟨⟨⟨⟨⟨vram, by omega⟩, ⟨by omega, fun e he => scrollExt e.1 e.2 (.inl he)⟩,
      fun e he => scrollExt e.1 e.2 (.inr he)⟩, by omega⟩, by omega⟩, pens⟩

theorem wfLayer_iff (p : Profile) (L : SpriteLayer) : wfLayer p L = true ↔ LayerOk p L := by
  simp only [wfLayer, Bool.and_eq_true, Bool.or_eq_true, decide_eq_true_eq, beq_iff_eq, pensBelow_iff]
  constructor
  · rintro ⟨format, pens⟩
    exact ⟨by omega, pens⟩
  · rintro ⟨format, pens⟩
    exact ⟨by omega, pens⟩

theorem wfSprites_iff (p : Profile) : wfSprites p = true ↔ SpritesOk p := by
  simp only [wfSprites, Bool.and_eq_true, Bool.or_eq_true, beq_iff_eq, List.all_eq_true, wfLayer_iff, inVram_iff]
  constructor
  · rintro ⟨⟨⟨count, layer⟩, order⟩, shadow⟩
    exact ⟨by omega, layer, by omega, by omega⟩
  · rintro ⟨count, layer, order, shadow⟩
    exact ⟨⟨⟨by omega, layer⟩, by omega⟩, by omega⟩

/-- Two lanes or more are not counted exactly where all the listed ones are the same. -/
theorem not_two_le_laneCount (v : List Lane) : ¬2 ≤ laneCount v ↔ ∀ l₁ ∈ v, ∀ l₂ ∈ v, l₁ = l₂ := by
  simp only [two_le_laneCount, not_exists, not_and, ne_eq, Decidable.not_not]

/-- R87's checks 2 to 8 of an entry, each with the kinds that it is about. -/
theorem wfEntry_iff_find (p : Profile) (l : Lane) (e : MapEntry) :
    wfEntry p l e = true ↔
      (e.start ≤ e.stop ∧ e.stop < 2 ^ p.addrW) ∧
      e.kind ≠ .dflt ∧
      (e.kind = .rom → ∃ r, findRegion p e.region = some r ∧ r.kind = .rom ∧ l ∈ r.visibleTo) ∧
      (e.kind = .ram ∨ e.kind = .shared → ∃ r, findRegion p e.region = some r ∧ r.kind = .ram ∧ l ∈ r.visibleTo) ∧
      (e.kind = .shared → ∃ r, findRegion p e.region = some r ∧ 2 ≤ laneCount r.visibleTo) ∧
      (l = .s → ¬(e.kind = .dbSelf ∨ e.kind = .dbPeer)) ∧
      (e.kind = .inport → ¬11 < e.region.toNat + (e.stop - e.start)) ∧
      (e.kind ∈ [Kind.hardflag, .dbSelf, .dbPeer, .sndMbox, .sndReg] → e.region = 0) := by
  simp only [wfEntry, Bool.and_eq_true, decide_eq_true_eq]
  refine and_congr_right fun _ => ?_
  cases e.kind with
  | rom => cases findRegion p e.region <;> simp
  | ram => cases findRegion p e.region <;> simp
  | shared => cases findRegion p e.region <;> simp
  | dbSelf => simp [and_comm]
  | dbPeer => simp [and_comm]
  | _ => simp

theorem wfEntry_iff {p : Profile} (hp : RegionsOk p) (l : Lane) (e : MapEntry) :
    wfEntry p l e = true ↔ EntryOk p l e := by
  simp only [wfEntry_iff_find, exists_findRegion_iff hp.ids, not_two_le_laneCount]
  constructor
  · rintro ⟨range, notDefault, rom, ram, shared, doorbell, port, regionZero⟩
    exact ⟨by omega, notDefault, rom, ram, shared, doorbell, port, regionZero⟩
  · rintro ⟨range, notDefault, rom, ram, shared, doorbell, port, regionZero⟩
    exact ⟨by omega, notDefault, rom, ram, shared, doorbell, port, regionZero⟩

/-- A profile is well-formed exactly where it is in the ranges of its types and no check fails (R87, R101, R114). -/
theorem wfProfile_iff (p : Profile) : wfProfile p = true ↔ InRanges p ∧ ¬FailsCheck p := by
  simp only [wfProfile, Bool.and_eq_true, and_assoc, wfRanges_iff, wfRegions_iff, wfMaps_iff, wfSprites_iff,
    not_failsCheck_iff]
  refine and_congr_right fun _ => and_congr_right fun hp => ?_
  simp only [wfEntry_iff hp, wfTiles_iff hp]

/-! ### Power-on -/

/-- The REFUSED mark of the power-on state is clear exactly where the profile is well-formed (R139). -/
theorem refused_powerOn (p : Profile) : (State.powerOn p).refused = !wfProfile p := by
  simp only [State.powerOn, profileRefusal]
  cases wfProfile p <;> rfl

/-- Every pixel of a blank surface is 0, and so is one outside it. -/
theorem pixelAt_blankSurface (h w y x : Nat) : pixelAt (blankSurface h w) y x = 0 := by
  rw [pixelAt, blankSurface, List.getD_eq_getElem?_getD (l := List.replicate h _), List.getElem?_replicate]
  by_cases hy : y < h
  · rw [if_pos hy]
    exact getD_replicate_zero w x
  · rw [if_neg hy]
    rfl

/-- Settles O57: the elements are those of the power-on state, and the mark is clear exactly where the profile is in its
ranges and no check fails. -/
theorem powerOnState : Obligations.PowerOnState := by
  intro p
  have hmark : (State.powerOn p).refused = false ↔ wfProfile p = true := by rw [refused_powerOn, Bool.not_eq_false']
  refine ⟨rfl, fun m => by cases m <;> rfl, rfl, rfl, readBank_nil rfl, fun q => by cases q <;> rfl, fun i hi => ?_,
    fun y x => ⟨pixelAt_blankSurface _ _ y x, pixelAt_blankSurface _ _ y x⟩, rfl, fun hf => ?_, fun hr hf => ?_,
    fun _ => hmark⟩
  · exact List.getElem?_replicate_of_lt hi
  · rw [← Bool.not_eq_false, hmark, wfProfile_iff]
    exact fun h => h.2 hf
  · exact hmark.2 ((wfProfile_iff p).2 ⟨hr, hf⟩)

end Sys2Proof.Machine

/-! SUPPORT. Words: decoding undoes encoding and the other way round, which packets are refused and which are no word of
any format, and what a step does with each. -/

namespace Sys2Proof.Machine

/-! ### Decoding and encoding -/

/-- The decoder reads a format-T word by its table. -/
theorem decode_t_ok {addrW : Nat} {w : BitVec 32} {i : Instr} (h : decodeT addrW w = .ok i) :
    decode addrW (.t w) = .ok i := by
  simp only [decode, h]

/-- A format-T word that the decoder reads passes R51's checks. -/
theorem decodeT_of_decode_t {addrW : Nat} {w : BitVec 32} {i : Instr} (h : decode addrW (.t w) = .ok i) :
    decodeT addrW w = .ok i := by
  cases hd : decodeT addrW w with
  | ok j => exact congrArg Except.ok (Except.ok.inj ((decode_t_ok hd).symm.trans h))
  | error r => simp only [decode, hd, reduceCtorEq] at h

/-- R51's check of the LANE field passes the field of a lane, whatever OP is. -/
theorem not_reserved_lane (n : Nat) (l : Lane) : ¬(n ≤ 1 ∧ l.bits = 3) :=
  fun h => lane_bits_ne_three l h.2

/-- The format-T word of a well-formed transaction decodes to it: the five words pass R51's checks. -/
theorem decode_encode_of_not_routed {addrW : Nat} {i : Instr} (hr : i.routed = none)
    (hwf : i.wellFormed addrW = true) : decode addrW (encode i) = .ok i := by
  have hzero : (0 : Addr).toNat < 2 ^ addrW := Nat.two_pow_pos addrW
  have hchip : ∀ c : BitVec 1,
      (c.setWidth 8 : Byte).extractLsb' 1 7 = 0 ∧ (c.setWidth 8 : Byte).extractLsb' 0 1 = c := by decide
  cases i with
  | busRd l a =>
    refine decode_t_ok ((decodeT_wordT (by decide) (not_reserved_lane _ l) ?_ (of_decide_eq_true hwf)).trans ?_)
    · simp [mustBeZeroT]
    · simp
  | busWr l a d =>
    refine decode_t_ok ((decodeT_wordT (by decide) (not_reserved_lane _ l) ?_ (of_decide_eq_true hwf)).trans ?_)
    · simp [mustBeZeroT]
    · simp
  | chipDone c =>
    refine decode_t_ok ((decodeT_wordT (by decide) (by decide) ?_ hzero).trans ?_)
    · simpa [mustBeZeroT] using (hchip c).1
    · simpa using (hchip c).2
  | frame => exact decode_t_ok (decodeT_wordT (by decide) (by decide) (by decide) hzero)
  | reset => exact decode_t_ok (decodeT_wordT (by decide) (by decide) (by decide) hzero)
  | _ => exact nomatch hr

/-- Settles O6: a routed access is read back from its fields, and the five transactions pass R51's checks. -/
theorem decodeOfEncodeIsTheInstruction : Obligations.DecodeOfEncodeIsTheInstruction := by
  intro addrW i hwf
  cases hr : i.routed with
  | none => exact decode_encode_of_not_routed hr hwf
  | some r => rw [encode_routed hr, decode_wordR (wellFormed_routed addrW hr).1, toInstr_routed hr]

/-- A transaction that a word decodes to has an address of ADDR_W bits, if it has one. -/
theorem wellFormed_of_decodeT {addrW : Nat} {w : BitVec 32} {i : Instr} (h : decodeT addrW w = .ok i) :
    i.wellFormed addrW = true := by
  obtain ⟨-, -, ha, hi⟩ := decodeT_ok h
  obtain ⟨l, -, -, rfl⟩ | ⟨l, -, -, rfl⟩ | ⟨-, rfl⟩ | ⟨-, rfl⟩ | ⟨-, rfl⟩ := hi
  · exact decide_eq_true ha
  · exact decide_eq_true ha
  all_goals rfl

/-- Settles O7: a format-T word that passes the checks has no bit beside its fields, and a format-R word is the word of
its routed access. -/
theorem decodedWordsAreCanonical : Obligations.DecodedWordsAreCanonical := by
  intro addrW packet i h
  cases packet with
  | t w =>
    have hd := decodeT_of_decode_t h
    exact ⟨wellFormed_of_decodeT hd, encode_of_decodeT hd⟩
  | r w =>
    change decodeR w = .ok i at h
    obtain ⟨-, hd⟩ | ⟨r, hwf, hw, hd⟩ | ⟨-, -, hd⟩ := decodeR_cases w <;> rw [hd] at h
    · exact nomatch h
    · cases h
      have hr := routed_toInstr hwf
      exact ⟨(wellFormed_routed addrW hr).2, (encode_routed hr).trans (congrArg Packet.r hw)⟩
    · exact nomatch h

/-- Settles O5: the words run through the decoder. -/
theorem decoderReadsTheSpecsWords : Obligations.DecoderReadsTheSpecsWords :=
  ⟨rfl, rfl, rfl, rfl, rfl, rfl, rfl, rfl, rfl, rfl, rfl, rfl, rfl, rfl, rfl, rfl, rfl⟩

/-- Settles O8: the pseudo-instructions run through the assembler and the encoder. -/
theorem pseudoInstructionsExpandToTheSpecsWords : Obligations.PseudoInstructionsExpandToTheSpecsWords :=
  ⟨rfl, rfl, rfl, rfl, rfl, rfl, rfl, rfl, rfl, rfl⟩

/-! ### Refused packets and words of no format -/

/-- The decoder refuses a 40-bit word with a reserved KIND, and no other (R52). -/
theorem decodeR_refused_iff (w : BitVec 40) :
    (∃ r, decodeR w = .error (.refused r)) ↔ 11 ≤ (kindR w).toNat := by
  constructor
  · rintro ⟨r, h⟩
    obtain ⟨hk, -⟩ | ⟨r', -, -, hd⟩ | ⟨-, -, hd⟩ := decodeR_cases w
    · exact hk
    · rw [hd] at h
      exact nomatch h
    · rw [hd] at h
      exact nomatch h
  · exact fun hk => ⟨.reservedKind, if_pos hk⟩

/-- R126's packets are those that the decoder refuses. -/
theorem refusedPacket_iff (addrW : Nat) (packet : Packet) :
    RefusedPacket addrW packet ↔ ∃ r, decode addrW packet = .error (.refused r) := by
  cases packet with
  | t w =>
    constructor
    · intro hbad
      cases hd : decodeT addrW w with
      | ok i => exact absurd hbad (not_malformedT_of_decodeT hd)
      | error r => exact ⟨r, by simp only [decode, hd]⟩
    · rintro ⟨r, h⟩
      refine Classical.byContradiction fun hgood => ?_
      obtain ⟨i, hd⟩ := decodeT_of_not_malformedT hgood
      exact nomatch (decode_t_ok hd).symm.trans h
  | r w =>
    obtain ⟨-, -, hkind, -⟩ := fieldsR_toNat w
    rw [RefusedPacket, ← hkind]
    exact (decodeR_refused_iff w).symm

/-- R50's conditions on the fields read as numbers, as conditions on the fields. -/
theorem noRoutedWord_iff (w : BitVec 40) :
    NoRoutedWord w ↔ (kindR w).toNat ≤ 10 ∧
      (2 ≤ (opR w).toNat ∨ laneR w = 3 ∨ rsvR w ≠ 0 ∨ (opR w = 0 ∧ dataR w ≠ 0) ∨
        (3 ≤ (kindR w).toNat ∧ (kindR w).toNat ≤ 8 ∧ regionR w ≠ 0)) := by
  obtain ⟨hop, hlane, hkind, hregion, hrsv, -, hdata⟩ := fieldsR_toNat w
  simp only [NoRoutedWord, ← hop, ← hlane, ← hkind, ← hregion, ← hrsv, ← hdata, ne_eq, ← BitVec.toNat_inj,
    BitVec.ofNat_eq_ofNat, BitVec.toNat_ofNat]

/-- The kinds without a REGION field are those of KIND 3 to 8 (R50). -/
theorem usesRegion_eq_false_iff (k : Kind) : k.usesRegion = false ↔ 3 ≤ k.bits.toNat ∧ k.bits.toNat ≤ 8 := by
  cases k <;> decide

/-- The word of a well-formed routed access is a word of format R. -/
theorem not_noRoutedWord_wordR {r : Routed} (h : r.wellFormed = true) : ¬NoRoutedWord (wordR r) := by
  obtain ⟨op, l, k, reg, off, d⟩ := r
  simp only [Routed.wellFormed, Bool.and_eq_true, Bool.or_eq_true, beq_iff_eq] at h
  obtain ⟨hregion, hdata⟩ := h
  simp only [noRoutedWord_iff, opR_wordR, laneR_wordR, kindR_wordR, rsvR_wordR, dataR_wordR, regionR_wordR]
  rintro ⟨-, hop | hlane | hrsv | ⟨hop, hd⟩ | ⟨hlow, hhigh, hreg⟩⟩
  · cases op <;> exact absurd hop (by decide)
  · exact lane_bits_ne_three l hlane
  · exact hrsv rfl
  · cases op with
    | rd => exact hd (hdata.resolve_left (by decide))
    | wr => exact absurd hop (by decide)
  · have huses := (usesRegion_eq_false_iff k).2 ⟨hlow, hhigh⟩
    exact hreg (hregion.resolve_left (by simp [huses]))

/-- Every KIND code below 11 is that of a kind (R50). -/
theorem kindOfBits_of_lt {v : BitVec 4} (h : v.toNat ≤ 10) : ∃ k, kindOfBits v = some k := by
  have hcodes : ∀ v : BitVec 4, v.toNat ≤ 10 → (kindOfBits v).isSome = true := by decide
  exact Option.isSome_iff_exists.1 (hcodes v h)

/-- A word of format R has a routed access's fields. -/
theorem fieldsR_of_not_noRoutedWord {w : BitVec 40} (hk : (kindR w).toNat ≤ 10) (h : ¬NoRoutedWord w) :
    ∃ r : Routed, r.wellFormed = true ∧ wordR r = w := by
  rw [noRoutedWord_iff] at h
  simp only [hk, true_and, not_or, not_and, Nat.not_le, ne_eq, Decidable.not_not] at h
  obtain ⟨hop, hlane, hrsv, hdata, hregion⟩ := h
  obtain ⟨l, hl⟩ := Option.ne_none_iff_exists'.1 (mt laneOfBits_eq_none.1 hlane)
  obtain ⟨k, hkind⟩ := kindOfBits_of_lt hk
  have huses : k.usesRegion = true ∨ regionR w = 0 := by
    cases hu : k.usesRegion with
    | true => exact .inl rfl
    | false =>
      rw [usesRegion_eq_false_iff, kindOfBits_some hkind] at hu
      exact .inr (hregion hu.1 hu.2)
  obtain h0 | h1 : opR w = 0 ∨ opR w = 1 := by
    simp only [← BitVec.toNat_inj, BitVec.ofNat_eq_ofNat, BitVec.toNat_ofNat]; omega
  · refine ⟨⟨.rd, l, k, regionR w, offsetR w, dataR w⟩, ?_, wordR_of_fieldsR ?_⟩
    · simpa [Routed.wellFormed, hdata h0] using huses
    · simp [fieldsR, hl, hkind, hrsv, h0]
  · refine ⟨⟨.wr, l, k, regionR w, offsetR w, dataR w⟩, ?_, wordR_of_fieldsR ?_⟩
    · simpa [Routed.wellFormed] using huses
    · simp [fieldsR, hl, hkind, hrsv, h1]

/-- The 40-bit words that are no word of format R are those that the decoder rejects as such. -/
theorem decodeR_notRouted_iff (w : BitVec 40) : decodeR w = .error .notRouted ↔ NoRoutedWord w := by
  obtain ⟨hk, hd⟩ | ⟨r, hwf, rfl, hd⟩ | ⟨hk, hnone, hd⟩ := decodeR_cases w
  · have hno : ¬NoRoutedWord w := fun h => absurd ((noRoutedWord_iff w).1 h).1 (by omega)
    simp [hd, hno]
  · simp [hd, not_noRoutedWord_wordR hwf]
  · refine iff_of_true hd (Classical.byContradiction fun hno => ?_)
    obtain ⟨r, hwf, hw⟩ := fieldsR_of_not_noRoutedWord (by omega) hno
    exact hnone r hwf hw

/-- The decoder rejects only 40-bit words of no format. -/
theorem decode_notRouted_iff (addrW : Nat) (packet : Packet) :
    decode addrW packet = .error .notRouted ↔ ∃ w, packet = .r w ∧ NoRoutedWord w := by
  cases packet with
  | t w =>
    cases hd : decodeT addrW w <;> simp [decode, hd]
  | r w => simp [decode, decodeR_notRouted_iff]

/-- Settles O3: the router's word has the KIND of a kind, and the decoder checks KIND first. -/
theorem reservedKindsNeverBuiltAndRefused : Obligations.ReservedKindsNeverBuiltAndRefused := by
  constructor
  · intro p op l a d
    obtain ⟨-, -, hkind, -⟩ := fieldsR_toNat (wordR (routeAccess p op l a d))
    have hlt := kind_bits_lt (routeAccess p op l a d).kind
    rw [← hkind, kindR_wordR]
    omega
  · intro s w rest hin hk
    obtain ⟨r, hd⟩ := (refusedPacket_iff s.profile.addrW (.r w)).1 hk
    exact step_of_refused hin hd

/-! ### What a step does with a packet -/

/-- Settles O1: `takePacket` is the state that the packet has left. -/
theorem stepRunsDecodedInstruction : Obligations.StepRunsDecodedInstruction :=
  fun _ _ _ _ hin hd => step_of_decoded hin hd

/-- Settles O4: without a packet the step is `idle`. -/
theorem stepWithoutPacketIsIdle : Obligations.StepWithoutPacketIsIdle := by
  intro s hin
  obtain ⟨-, hs⟩ | ⟨packet, rest, hpacket, -⟩ := step_cases s
  · exact hs
  · exact nomatch hin.symm.trans hpacket

/-- A step whose next packet is no word of any format stops. -/
theorem step_of_notRouted {s : State} {packet : Packet} {rest : List Packet} (hin : s.inbox = packet :: rest)
    (hd : decode s.profile.addrW packet = .error .notRouted) : step s = .refused .notRoutedWord := by
  simp only [step, hin, hd]

/-- Settles O60: operations answer by one of their changes, none of which touches REFUSED, and a step stops exactly
where the decoder rejects the word. -/
theorem onlyWordsOfNoFormatStop : Obligations.OnlyWordsOfNoFormatStop := by
  refine ⟨fun i s => ?_, fun s hgood => ?_, fun s w rest hin hno => ?_⟩
  · obtain ⟨t, ht, hc⟩ := exec_change i s
    exact ⟨t, ht, hc.refused⟩
  · obtain ⟨-, hs⟩ | ⟨packet, rest, hin, ⟨i, t, -, hs, -⟩ | ⟨r, -, hs⟩ | ⟨hd, -⟩⟩ := step_cases s
    · exact ⟨_, hs⟩
    · exact ⟨t, hs⟩
    · exact ⟨_, hs⟩
    · obtain ⟨w, rfl, hno⟩ := (decode_notRouted_iff _ packet).1 hd
      exact absurd hno (hgood w rest hin)
  · exact step_of_notRouted hin ((decodeR_notRouted_iff w).2 hno)

/-- No step changes the profile (R13). -/
theorem step_profile {s t : State} (h : step s = .next t) : t.profile = s.profile := by
  obtain rfl | ⟨packet, rest, -, rfl | hc⟩ := step_change h
  · rfl
  · rfl
  · exact hc.fixed.1

/-- A step sets the REFUSED mark exactly at a packet that R126 refuses, and none takes it back (R28). -/
theorem step_refused_iff {s t : State} (h : step s = .next t) :
    t.refused = true ↔ s.refused = true ∨
      ∃ packet rest, s.inbox = packet :: rest ∧ RefusedPacket s.profile.addrW packet := by
  obtain ⟨hin, hs⟩ | ⟨packet, rest, hin, ⟨i, u, hd, hs, -, hc⟩ | ⟨r, hd, hs⟩ | ⟨-, hs⟩⟩ := step_cases s <;>
    rw [hs] at h <;> cases h
  · simp [hin]
  · have hgood : ¬RefusedPacket s.profile.addrW packet := by simp [refusedPacket_iff, hd]
    simp [hc.refused, hin, hgood]
  · have hbad : RefusedPacket s.profile.addrW packet := (refusedPacket_iff _ packet).2 ⟨r, hd⟩
    simp [hin, hbad]

/-- Settles O59: the mark and the profile after a step are those of the state before it and of the packet. -/
theorem profileIsFixedAndRefusalsAreTheListedOnes : Obligations.ProfileIsFixedAndRefusalsAreTheListedOnes := by
  intro s t h
  refine ⟨step_profile h, step_refused_iff h, fun hs ht => ?_⟩
  have hclear : s.refused = false :=
    Bool.eq_false_iff.2 fun hset => Bool.eq_false_iff.1 ht ((step_refused_iff h).2 (.inl hset))
  rw [step_profile h]
  exact hs hclear

end Sys2Proof.Machine

/-! SUPPORT. Memory: the memory's form along a step, reads and writes that reach no byte, what a routed access answers and
stores, and what a lane's accesses can reach. -/

namespace Sys2Proof.Machine

/-! ### The memory's form -/

/-- The memory's form depends on the profile and the memory only. -/
theorem MemoryOk.congr {s t : State} (hs : MemoryOk s) (hp : t.profile = s.profile) (hm : t.mem = s.mem) :
    MemoryOk t := by
  unfold MemoryOk
  rw [hp, hm]
  exact hs

/-- An operation keeps the memory's form: it writes at most one byte, which exists. -/
theorem Change.memoryOk {s t : State} (h : Change s t) (hs : MemoryOk s) : MemoryOk t := by
  obtain hm | ⟨b, off, d, hb, hm⟩ := h.mem
  · exact hs.congr h.fixed.1 hm
  · exact memoryOk_writeBank hs hb h.fixed.1 hm

/-- Settles O53: an idle or refused step leaves the memory, and an operation writes at most one byte that exists. -/
theorem memoryStaysCanonical : Obligations.MemoryStaysCanonical := by
  intro s t hs h
  obtain rfl | ⟨packet, rest, -, rfl | hc⟩ := step_change h
  · exact hs.congr rfl rfl
  · exact hs.congr rfl rfl
  · exact hc.memoryOk (hs.congr rfl rfl)

/-! ### Single accesses -/

/-- Settles O12: the three reads are the one read of the region's bank. -/
theorem regionReadsReturnTheByte : Obligations.RegionReadsReturnTheByte :=
  fun _ _ _ _ hb => ⟨bankRead_of_hasByte hb, bankRead_of_hasByte hb, bankRead_of_hasByte hb⟩

/-- A write of a byte that a bank has but does not store changes nothing. -/
theorem bankWrite_of_not_writable {s : State} {b : Bank} {off : Addr} (d : Byte)
    (hb : hasByte s.profile b off.toNat = true) (hw : writable s.profile b = false) :
    bankWrite b off d s = .next (answerDone s []) := by
  rw [bankWrite_of_hasByte hb, writeBank_of_not_writable hw]

/-- Settles O14: ROM_WR only answers, and a region's bank that is not writable stores nothing. -/
theorem romWritesAreIgnored : Obligations.RomWritesAreIgnored :=
  ⟨fun _ _ _ _ _ => rfl,
    fun _ _ _ _ d hb hw => ⟨bankWrite_of_not_writable d hb hw, bankWrite_of_not_writable d hb hw⟩⟩

/-- A read where a bank has no byte answers a drawn one. -/
theorem bankRead_of_absent {s : State} {b : Bank} {off : Addr} (h : hasByte s.profile b off.toNat = false) :
    bankRead b off s = .next (answerDrawn s (.absentByte (b.cellAddr off.toNat))) :=
  if_neg (Bool.eq_false_iff.1 h)

/-- A write where a bank has no byte only answers. -/
theorem bankWrite_of_absent {s : State} {b : Bank} {off : Addr} (h : hasByte s.profile b off.toNat = false) (d : Byte) :
    bankWrite b off d s = .next (answerDone s []) :=
  if_neg (Bool.eq_false_iff.1 h)

/-- An input read beyond the 12 ports answers a drawn byte. -/
theorem exec_inpRd_of_absent {p0 : RegionId} {off : Addr} (l : Lane) (s : State) (h : 12 ≤ p0.toNat + off.toNat) :
    exec (.inpRd l p0 off) s = .next (answerDrawn s (.absentPort (p0.toNat + off.toNat))) := by
  change execInpRd l p0 off s = _
  rw [execInpRd, portOf_none h]

/-- Settles O17: a bank without the byte and a port beyond the 12 give a drawn byte and store nothing, and lane S has no
doorbell. -/
theorem accessesBeyondTheRouterChangeNothing : Obligations.AccessesBeyondTheRouterChangeNothing := by
  refine ⟨fun s l r off d h => ?_, fun s l off d h => ?_, fun s l p0 off d h => ?_,
    fun s off d => ⟨rfl, rfl, rfl, rfl⟩⟩
  · have hb : hasByte s.profile (.region r) off.toNat = false := decide_eq_false (Nat.not_lt.2 h)
    have hread := bankRead_of_absent hb
    have hwrite := bankWrite_of_absent hb d
    exact ⟨⟨_, hread, hread, hread, rfl⟩, hwrite, hwrite⟩
  · have hb : hasByte s.profile (.dflt l) off.toNat = false := decide_eq_false (Nat.not_lt.2 h)
    exact ⟨⟨_, bankRead_of_absent hb, rfl⟩, bankWrite_of_absent hb d⟩
  · exact ⟨⟨_, exec_inpRd_of_absent l s h, rfl⟩, exec_inpWr l p0 off d s⟩

/-- An address is routed to the hard-wired flag bank only while the bank is present (R76). -/
theorem hardFlagsEn_of_route {p : Profile} {l : Lane} {a : Addr} (h : (route p l a).1 = .hardflag) :
    p.hardFlagsEn = true := by
  obtain ⟨-, hr⟩ | ⟨e, -, hclaim, hr⟩ := route_cases p l a <;> rw [hr] at h
  · exact nomatch h
  · exact ((claims_iff p e a.toNat).1 hclaim).1 h

/-- Settles O18: both accesses only answer, and an entry of the kind claims an address only while the bank is present. -/
theorem hardFlagsReadOnesWhenPresent : Obligations.HardFlagsReadOnesWhenPresent :=
  ⟨fun _ _ _ _ => ⟨rfl, rfl⟩, fun _ _ _ h => hardFlagsEn_of_route h⟩

/-- A listed answer of the source at the head is used up by a draw. -/
theorem answers_afterDraw_head {s : State} {src : DrawSource} {v : Byte} {rest : List (DrawSource × Byte)}
    (h : s.answers = (src, v) :: rest) : (afterDraw s src).answers = rest := by
  simp only [afterDraw, h, takeAnswer, if_true]

/-- Settles O19: a chip read is a draw from the chip's register with the event, and a chip write only answers. -/
theorem chipAccessesAreForwarded : Obligations.ChipAccessesAreForwarded :=
  ⟨fun _ _ _ _ => ⟨_, rfl, rfl, fun _ _ h => ⟨drawByte_head h, answers_afterDraw_head h⟩⟩, fun _ _ _ _ _ => rfl⟩

/-! ### What a routed read answers -/

/-- The byte that a read of a bank answers: the bank's, or a drawn one where it has none. -/
def bankByte (b : Bank) (off : Addr) (s : State) : Byte :=
  if hasByte s.profile b off.toNat then readBank s b off.toNat else drawByte s (.absentByte (b.cellAddr off.toNat))

/-- The byte that an input read answers. -/
def inputByte (l : Lane) (firstPort : RegionId) (off : Addr) (s : State) : Byte :=
  match portOf firstPort off with
  | some port => injectBusy l port (decodedInput s port).1 s
  | none => drawByte s (.absentPort (firstPort.toNat + off.toNat))

/-- The byte that a routed read answers, by its kind. -/
def readByte (r : Routed) (s : State) : Byte :=
  match r.kind with
  | .rom => bankByte (.region r.region) r.offset s
  | .ram => bankByte (.region r.region) r.offset s
  | .shared => bankByte (.region r.region) r.offset s
  | .dflt => bankByte (.dflt r.lane) r.offset s
  | .hardflag => 0xFF
  | .dbSelf => 0xFF
  | .dbPeer => 0xFF
  | .sndMbox => s.mailbox
  | .sndReg => srsByte s.srs
  | .inport => inputByte r.lane r.region r.offset s
  | .ext => drawByte s (.extRead r.region r.offset)

/-- The events that a routed read emits: a notify read's interrupt, and a chip read's forwarding. -/
def readEvents (r : Routed) (s : State) : List Event :=
  match r.kind with
  | .dbPeer =>
    match r.lane.main? with
    | some m => doorEvents m.peer (doorNotified (door s m.peer)).2
    | none => []
  | .ext => [.extRd r.region r.offset]
  | _ => []

theorem bankRead_answer (b : Bank) (off : Addr) (s : State) :
    ∃ u, bankRead b off s = .next (answerRead u (bankByte b off s) []) := by
  unfold bankRead bankByte
  split <;> exact ⟨_, rfl⟩

theorem execInpRd_answer (l : Lane) (firstPort : RegionId) (off : Addr) (s : State) :
    ∃ u, execInpRd l firstPort off s = .next (answerRead u (inputByte l firstPort off s) []) := by
  unfold execInpRd inputByte
  cases portOf firstPort off <;> exact ⟨_, rfl⟩

/-- A routed read answers `readByte` and `readEvents` (R49, R79). -/
theorem multiplex_rd {r : Routed} (hop : r.op = .rd) (s : State) :
    ∃ u, multiplex r s = .next (answerRead u (readByte r s) (readEvents r s)) := by
  obtain ⟨op, l, k, reg, off, d⟩ := r
  cases (hop : op = .rd)
  cases k with
  | rom => exact bankRead_answer _ off s
  | ram => exact bankRead_answer _ off s
  | shared => exact bankRead_answer _ off s
  | dflt => exact bankRead_answer _ off s
  | dbPeer => cases l <;> exact ⟨_, rfl⟩
  | inport => exact execInpRd_answer l reg off s
  | _ => exact ⟨_, rfl⟩

/-- A draw depends on the answers and the count of draws only. -/
theorem drawByte_congr {s s' : State} (ha : s'.answers = s.answers) (hn : s'.nDraws = s.nDraws) (src : DrawSource) :
    drawByte s' src = drawByte s src := by
  rw [drawByte, drawByte, ha, hn]

/-- The byte of an input read depends on the profile, SRS, the rotary decoders and the draws only (R115). -/
theorem inputByte_congr {s s' : State} (hp : s'.profile = s.profile) (hsrs : s'.srs = s.srs)
    (hrot : ∀ q, rotary s' q = rotary s q) (ha : s'.answers = s.answers) (hn : s'.nDraws = s.nDraws) (l : Lane)
    (firstPort : RegionId) (off : Addr) : inputByte l firstPort off s' = inputByte l firstPort off s := by
  have decoded : ∀ port, (decodedInput s' port).1 = (decodedInput s port).1 := by
    intro port
    have hraw : drawByte s' (inputSource s' port) = drawByte s (inputSource s port) := by
      rw [inputSource, hp]
      exact drawByte_congr ha hn _
    cases hmode : s.profile.rotaryMode.get port with
    | none => rw [decodedInput_none hmode, decodedInput_none (hp ▸ hmode), hraw]
    | way8 => rw [decodedInput_way8 hmode, decodedInput_way8 (hp ▸ hmode), hraw, hp]
    | way12 q => rw [decodedInput_way12 hmode, decodedInput_way12 (hp ▸ hmode), hraw, hp, hrot]
  unfold inputByte
  cases portOf firstPort off with
  | none => exact drawByte_congr ha hn _
  | some port => simp only [decoded, injectBusy, hp, hsrs]

/-- A read's answer depends on the memory only by the bytes of the bank it reads (R80 to R86). -/
theorem readByte_congr_mem {r : Routed} {s : State} {mem' : List Host.Cell}
    (h : ∀ b, bankOf r = some b → ∀ off, readBank { s with mem := mem' } b off = readBank s b off) :
    readByte r { s with mem := mem' } = readByte r s := by
  have bank_congr : ∀ b off, (∀ off, readBank { s with mem := mem' } b off = readBank s b off) →
      bankByte b off { s with mem := mem' } = bankByte b off s := by
    intro b off hb
    simp only [bankByte, hb]
    rfl
  obtain ⟨op, l, k, reg, off, d⟩ := r
  cases k with
  | rom => exact bank_congr _ off (h _ rfl)
  | ram => exact bank_congr _ off (h _ rfl)
  | shared => exact bank_congr _ off (h _ rfl)
  | dflt => exact bank_congr _ off (h _ rfl)
  | inport =>
    exact inputByte_congr (s := s) (s' := { s with mem := mem' }) rfl rfl (fun q => by cases q <;> rfl) rfl rfl l
      reg off
  | _ => rfl

/-- A read's events do not depend on the memory. -/
theorem readEvents_mem (r : Routed) (s : State) (mem' : List Host.Cell) :
    readEvents r { s with mem := mem' } = readEvents r s := by
  obtain ⟨op, l, k, reg, off, d⟩ := r
  cases k with
  | dbPeer => cases l <;> rfl
  | _ => rfl

/-! ### What a routed write stores -/

/-- A write of another bank leaves a byte alone. -/
theorem readBank_writeBank_other {s : State} {b b' : Bank} (h : b' ≠ b) (off : Nat) (d : Byte) (off' : Nat) :
    readBank (writeBank s b off d) b' off' = readBank s b' off' := by
  unfold writeBank
  split
  · exact readCell_writeCell_other fun he => h (cellAddr_injective he).1
  · rfl

/-- A routed write changes the memory only by a write to the bank that it names (R81, R83, R84). -/
theorem multiplex_wr_mem {r : Routed} (hop : r.op = .wr) {s t : State} (h : multiplex r s = .next t) :
    t.mem = s.mem ∨ ∃ b off d, bankOf r = some b ∧ t.mem = (writeBank s b off d).mem := by
  have bank_mem : ∀ {b off d}, bankWrite b off d s = .next t →
      t.mem = s.mem ∨ ∃ off d, t.mem = (writeBank s b off d).mem := by
    intro b off d h
    unfold bankWrite at h
    split at h <;> cases h
    · exact .inr ⟨_, _, rfl⟩
    · exact .inl rfl
  obtain ⟨op, l, k, reg, off, d⟩ := r
  cases (hop : op = .wr)
  cases k with
  | ram => exact (bank_mem h).imp_right fun ⟨o, v, hm⟩ => ⟨_, o, v, rfl, hm⟩
  | shared => exact (bank_mem h).imp_right fun ⟨o, v, hm⟩ => ⟨_, o, v, rfl, hm⟩
  | dflt => exact (bank_mem h).imp_right fun ⟨o, v, hm⟩ => ⟨_, o, v, rfl, hm⟩
  | dbSelf => cases l <;> cases h <;> exact .inl rfl
  | _ => cases h; exact .inl rfl

/-- A routed write leaves every byte of a bank that it does not name. -/
theorem readBank_of_multiplex_wr {r : Routed} (hop : r.op = .wr) {s t : State} (h : multiplex r s = .next t)
    {b : Bank} (hb : bankOf r ≠ some b) (off : Nat) : readBank t b off = readBank s b off := by
  obtain ⟨u, hu, hc⟩ := multiplex_change r s
  cases hu.symm.trans h
  obtain hm | ⟨b', off', d, hb', hm⟩ := multiplex_wr_mem hop h
  · exact readBank_congr hc.fixed.1 hm b off
  · have hne : b ≠ b' := fun he => hb (he ▸ hb')
    have hprofile : t.profile = (writeBank s b' off' d).profile := by rw [hc.fixed.1, writeBank_profile]
    rw [readBank_congr hprofile hm, readBank_writeBank_other hne]

/-! ### Transactions -/

/-- A write that a well-formed profile routes to a byte of a writable bank writes it: the kind is not ROM, for ROM entries
name ROM regions only (R87). -/
theorem exec_busWr_of_writable {s : State} {l : Lane} {a : Addr} {d : Byte} {bank : Bank}
    (hwf : wfProfile s.profile = true) (ha : a.toNat < 2 ^ s.profile.addrW)
    (hbank : bankOf (routeAccess s.profile .wr l a d) = some bank) (hw : writable s.profile bank = true) :
    exec (.busWr l a d) s =
      .next (answerDone (writeBank s bank (routeAccess s.profile .wr l a d).offset.toNat d) []) := by
  have hbyte := ((routeAccess_ok hwf .wr l ha d).2 bank hbank).1
  obtain hwrite | ⟨hrom, -⟩ := multiplex_bank_wr rfl hbank hbyte
  · exact hwrite
  · have hnot := rom_not_writable hwf hrom
    simp only [bankOf, hrom, Option.some.injEq] at hbank
    rw [hbank, hw] at hnot
    exact nomatch hnot

/-- A read that a well-formed profile routes to a bank answers the bank's byte (R88). -/
theorem exec_busRd_of_bank {s : State} {l : Lane} {a : Addr} {bank : Bank} (hwf : wfProfile s.profile = true)
    (ha : a.toNat < 2 ^ s.profile.addrW) (hbank : bankOf (routeAccess s.profile .rd l a 0) = some bank) :
    exec (.busRd l a) s =
      .next (answerRead s (readBank s bank (routeAccess s.profile .rd l a 0).offset.toNat) []) :=
  multiplex_bank_rd rfl hbank ((routeAccess_ok hwf .rd l ha 0).2 bank hbank).1

/-- Settles O54: the write stores the data in the bank and keeps the profile, which routes the read to the same byte. -/
theorem readReturnsTheLatestWrite : Obligations.ReadReturnsTheLatestWrite := by
  intro s l l' a a' d bank hwf hs ha ha' hwr hw hrd hoff
  have hwrite := exec_busWr_of_writable hwf ha hwr hw
  have hstored := readBank_writeBank (off := (routeAccess s.profile .wr l a d).offset.toNat) (d := d)
    (wf_rising hs.1) hw bank (routeAccess s.profile .wr l a d).offset.toNat
  have hread := exec_busRd_of_bank (l := l') (a := a') (bank := bank)
    (s := answerDone (writeBank s bank (routeAccess s.profile .wr l a d).offset.toNat d) [])
  rw [answerDone_profile, writeBank_profile] at hread
  refine ⟨_, _, hwrite, hread hwf ha' hrd, ?_⟩
  rw [answerRead_out, hoff, readBank_congr (answerDone_profile _ _) (answerDone_mem _ _), hstored, if_pos ⟨rfl, rfl⟩]

/-- Settles O55: an access names a bank that is visible to its lane; a read depends on the memory by that bank only, and a
write stores in no other. -/
theorem lanesReachOnlyVisibleBytes : Obligations.LanesReachOnlyVisibleBytes := by
  intro s l a d hwf ha _
  constructor
  · intro mem' hsame
    have hbyte : readByte (routeAccess s.profile .rd l a 0) { s with mem := mem' } =
        readByte (routeAccess s.profile .rd l a 0) s :=
      readByte_congr_mem fun b hb off => hsame b off ((routeAccess_ok hwf .rd l ha 0).2 b hb).2
    obtain ⟨u, hu⟩ := multiplex_rd (r := routeAccess s.profile .rd l a 0) rfl s
    obtain ⟨u', hu'⟩ := multiplex_rd (r := routeAccess s.profile .rd l a 0) rfl { s with mem := mem' }
    rw [hbyte, readEvents_mem] at hu'
    exact ⟨_, _, hu, hu', rfl⟩
  · obtain ⟨t, ht, -⟩ := exec_change (.busWr l a d) s
    refine ⟨t, ht, fun bank off hhidden => readBank_of_multiplex_wr rfl ht (fun hb => ?_) off⟩
    rw [((routeAccess_ok hwf .wr l ha d).2 bank hb).2] at hhidden
    exact nomatch hhidden

end Sys2Proof.Machine

/-! SUPPORT. Render state: the sizes and the coherence of the caches along a step, the ranges of decoded tiles, what a
FRAME reads and writes, and the toggle along a run. -/

namespace Sys2Proof.Machine

/-! ### Sizes and coherence -/

/-- The sizes and the coherence depend on the profile and the three surfaces only. -/
theorem renderState_congr {s t : State} (hp : t.profile = s.profile) (hdirty : t.dirty = s.dirty)
    (hscratch : t.scratch = s.scratch) (hframe : t.frame = s.frame) (hs : RenderShape s ∧ DirtyCoherent s) :
    RenderShape t ∧ DirtyCoherent t := by
  simpa only [RenderShape, DirtyCoherent, hp, hdirty, hscratch, hframe] using hs

/-- A FRAME keeps the sizes and the coherence: the walk keeps those of the caches, and the frame is painted anew. -/
theorem renderState_of_exec_frame {s t : State} (h : exec .frame s = .next t) (hs : RenderShape s ∧ DirtyCoherent s) :
    RenderShape t ∧ DirtyCoherent t := by
  obtain ⟨⟨hscratch, -, hdirty⟩, hcoherent⟩ := hs
  obtain ⟨hlen, hshape, hcoh, -⟩ := tileWalk_law (vramByte s) (st := (s.dirty, s.scratch)) hdirty hscratch hcoherent
  obtain ⟨u, hu, hud, hus, huf, hframe⟩ := exec_frame s
  cases hu.symm.trans h
  have hp : t.profile = s.profile := by rw [hframe]
  have hpaint : HasShape t.frame s.profile.visH s.profile.visW := by
    rw [huf]
    exact spritePasses_shape _ _ (scrolledCopy_shape _ _ _)
  rw [← hud, ← hp] at hlen
  rw [← hus, ← hp] at hshape
  rw [← hud, ← hus, ← hp] at hcoh
  rw [← hp] at hpaint
  exact ⟨⟨hshape, hpaint, hlen⟩, hcoh⟩

/-- An operation keeps the sizes and the coherence: only a FRAME touches the caches. -/
theorem Change.renderState {s t : State} (h : Change s t) (hs : RenderShape s ∧ DirtyCoherent s) :
    RenderShape t ∧ DirtyCoherent t := by
  obtain ⟨hdirty, hscratch, hframe⟩ | rfl := h.render
  · exact renderState_congr h.fixed.1 hdirty hscratch hframe hs
  · exact renderState_of_exec_frame rfl hs

/-- Settles O52: an idle or refused step leaves the surfaces, and an operation leaves them or renders a frame. -/
theorem renderStateStaysCoherent : Obligations.RenderStateStaysCoherent := by
  intro s t hshape hcoherent h
  obtain rfl | ⟨packet, rest, -, rfl | hc⟩ := step_change h
  · exact renderState_congr rfl rfl rfl rfl ⟨hshape, hcoherent⟩
  · exact renderState_congr rfl rfl rfl rfl ⟨hshape, hcoherent⟩
  · exact hc.renderState (renderState_congr rfl rfl rfl rfl ⟨hshape, hcoherent⟩)

/-! ### Ranges of decoded tiles -/

/-- The checks that a well-formed profile meets, as structures. -/
theorem checks_of_wfProfile {p : Profile} (h : wfProfile p = true) : InRanges p ∧ TilesOk p ∧ SpritesOk p := by
  obtain ⟨hranges, hf⟩ := (wfProfile_iff p).1 h
  obtain ⟨-, -, htiles, hsprites⟩ := (not_failsCheck_iff p).1 hf
  exact ⟨hranges, htiles, hsprites⟩

/-- A colour selector has four bits, the inversion mask of a well-formed profile included (R92). -/
theorem tileColour_lt {p : Profile} (h : TilesOk p) (c : Byte × Byte) : tileColour p c < 16 := by
  have hxor : p.colorXor < 2 ^ 4 := by have := h.format; omega
  obtain ⟨code, attr⟩ := c
  rw [tileColour_eq]
  exact Nat.xor_lt_two_pow (n := 4) (Nat.mod_lt _ (by decide)) hxor

/-- The tile index wraps into the bitmap table (R92). -/
theorem tileIndex_lt {p : Profile} (h : TilesOk p) (c : Byte × Byte) : tileIndex p c < p.tileCount :=
  Nat.mod_lt _ (by have := h.counts; omega)

/-- A tile's pixel is one of the 16 colours' pens (R93, R101). -/
theorem tilePixel_lt {p : Profile} (h : TilesOk p) (c : Byte × Byte) {py px : Nat} (hy : py < p.cell) (hx : px < p.cell) :
    tilePixel p c py px < 16 * p.tilePens :=
  block_lt (tileColour_lt h c) (Nat.not_le.1 (h.pens _ _ _ (tileIndex_lt h c) hy hx))

/-- Settles O49: indices wrap into their tables, whose pens the profile's checks bound, and colours are masked. -/
theorem decodedTilesStayInTheirTables : Obligations.DecodedTilesStayInTheirTables := by
  intro p hwf
  obtain ⟨⟨-, -, -, -, hlayers⟩, htiles, hsprites⟩ := checks_of_wfProfile hwf
  refine ⟨fun c py px hy hx => ⟨tileIndex_lt htiles c, tilePixel_lt htiles c hy hx⟩, fun L hL e py px hy hx => ?_⟩
  have htile : spriteTile L e < L.sprTiles := Nat.mod_lt _ (hlayers L hL).2.1
  refine ⟨htile, Nat.not_le.1 ((hsprites.layer L hL).pens _ _ _ htile hy hx), ?_⟩
  rw [spriteColour_eq]
  exact Nat.mod_lt _ (Nat.two_pow_pos _)

/-! ### What a FRAME reads and writes -/

/-- Settles O41: the frame of `exec_frame`. -/
theorem frameWritesOnlyRenderState : Obligations.FrameWritesOnlyRenderState := by
  intro s
  obtain ⟨t, ht, -, -, -, hframe⟩ := exec_frame s
  exact ⟨t, ht, hframe⟩

/-- Settles O50: the walk, the copy and the sprite passes read the profile, the caches, the toggle and VRAM's bytes. -/
theorem renderReadsNothingButVram : Obligations.RenderReadsNothingButVram := by
  intro s s' t t' hp hdirty hscratch hshadow hbytes ht ht'
  have hvram : vramByte s' = vramByte s := by
    funext off
    rw [vramByte, hp]
    exact hbytes off
  have hwalk : walked s' = walked s := by rw [walked, hp, hvram, hdirty, hscratch]
  obtain ⟨u, hu, hud, hus, huf, hframe⟩ := exec_frame s
  cases hu.symm.trans ht
  obtain ⟨u', hu', hud', hus', huf', hframe'⟩ := exec_frame s'
  cases hu'.symm.trans ht'
  refine ⟨?_, ?_, ?_, ?_, ?_⟩
  · rw [hud', hud, hwalk]
  · rw [hus', hus, hwalk]
  · rw [huf', huf, hwalk, hvram, hp, hshadow]
  · rw [hframe', hframe, hshadow]
  · rw [hframe', hframe]

end Sys2Proof.Machine

/-! SUPPORT. The toggle along a run, the doorbell bits along a step, the 12-way decode, and the invariants at power-on. -/

namespace Sys2Proof.Machine

/-! ### The toggle -/

/-- A step that takes a packet, no 40-bit word of no format, leaves the packets behind it and flips SHADOW if the packet
is a FRAME (R121, R123). -/
theorem step_of_packet {s : State} {packet : Packet} {rest : List Packet} (hin : s.inbox = packet :: rest)
    (hgood : ∀ w, packet = .r w → ¬NoRoutedWord w) :
    ∃ t, step s = .next t ∧ t.inbox = rest ∧ t.shadow = (s.shadow ^^ isFramePacket s.profile.addrW packet) := by
  cases hd : decode s.profile.addrW packet with
  | ok i =>
    obtain ⟨t, ht, hc⟩ := exec_change i (takePacket s rest)
    refine ⟨t, (step_of_decoded hin hd).trans ht, hc.fixed.2, ?_⟩
    rw [exec_shadow ht, isFramePacket, hd, takePacket_shadow]
  | error e =>
    cases e with
    | refused r => exact ⟨_, step_of_refused hin hd, rfl, by simp [isFramePacket, hd]⟩
    | notRouted =>
      obtain ⟨w, hw, hno⟩ := (decode_notRouted_iff _ packet).1 hd
      exact absurd hno (hgood w hw)

/-- One more FRAME in a list flips the parity of their number. -/
theorem odd_countP_cons {α : Type} (test : α → Bool) (x : α) (xs : List α) :
    decide ((x :: xs).countP test % 2 = 1) = (test x ^^ decide (xs.countP test % 2 = 1)) := by
  rw [List.countP_cons]
  cases test x with
  | false => simp
  | true =>
    rw [if_pos rfl, Bool.true_xor, ← decide_not, decide_eq_decide]
    omega

/-- A run that takes all packets of the inbox flips SHADOW once for each FRAME among them (R123). -/
theorem run_shadow {packets : List Packet} {s : State} (hin : s.inbox = packets)
    (hgood : ∀ w, .r w ∈ packets → ¬NoRoutedWord w) :
    ∃ t, run packets.length s = .next t ∧
      t.shadow = (s.shadow ^^ decide (packets.countP (isFramePacket s.profile.addrW) % 2 = 1)) := by
  induction packets generalizing s with
  | nil => exact ⟨s, rfl, by simp⟩
  | cons packet rest ih =>
    obtain ⟨u, hu, hrest, hshadow⟩ := step_of_packet hin fun w hw => hgood w (hw ▸ List.mem_cons_self)
    obtain ⟨t, ht, hend⟩ := ih hrest fun w hw => hgood w (List.mem_cons_of_mem _ hw)
    rw [step_profile hu, hshadow, Bool.xor_assoc, ← odd_countP_cons] at hend
    refine ⟨t, ?_, hend⟩
    rw [List.length_cons, run, hu]
    exact ht

/-- Settles O51, by induction on the packets. -/
theorem togglePhaseCountsFrames : Obligations.TogglePhaseCountsFrames :=
  fun p packets hgood => run_shadow (s := present (State.powerOn p) packets) rfl hgood

/-! ### The doorbell bits -/

/-- A read's byte does not depend on the doorbell bits: only its events do (R16, R58). -/
theorem readByte_door (r : Routed) (s : State) (doorA' doorB' : Doorbell) :
    readByte r { s with doorA := doorA', doorB := doorB' } = readByte r s := by
  obtain ⟨op, l, k, reg, off, d⟩ := r
  cases k with
  | inport =>
    exact inputByte_congr (s := s) (s' := { s with doorA := doorA', doorB := doorB' }) rfl rfl
      (fun q => by cases q <;> rfl) rfl rfl l reg off
  | _ => rfl

/-- Settles O24: of the operations that a step performs only three have a lane's bits in them, and a read's byte is
`readByte`. -/
theorem doorbellBitsChangeOnlyByDoorbellsAndAreNeverRead :
    Obligations.DoorbellBitsChangeOnlyByDoorbellsAndAreNeverRead := by
  constructor
  · intro s t m h hchanged
    refine Classical.byContradiction fun hnone => hchanged ?_
    simp only [not_or, Bool.not_eq_true] at hnone
    obtain ⟨harms, hrequests, hreset⟩ := hnone
    rw [(step_door_of_not_arms h harms hreset).1, hrequests]
    rfl
  · intro s l a doorA' doorB'
    obtain ⟨u, hu⟩ := multiplex_rd (r := routeAccess s.profile .rd l a 0) rfl s
    obtain ⟨u', hu'⟩ := multiplex_rd (r := routeAccess s.profile .rd l a 0) rfl
      { s with doorA := doorA', doorB := doorB' }
    rw [readByte_door] at hu'
    exact ⟨_, _, hu, hu', rfl⟩

/-! ### The 12-way decode -/

/-- The step between two dial positions is their difference modulo 16, in [-8, 8) (R119). -/
theorem dialDelta_law (cur prev : Nibble) :
    -8 ≤ dialDelta cur prev ∧ dialDelta cur prev < 8 ∧
      (dialDelta cur prev - ((cur.toNat : Int) - prev.toNat)) % 16 = 0 := by
  have := cur.isLt
  have := prev.isLt
  unfold dialDelta
  simp only
  split
  · omega
  · split <;> omega

/-- The counter moves by the step between the dial positions, modulo 12 (R119). -/
theorem cnt_rotaryStep (r : Rotary) (cur : Nibble) :
    ((rotaryStep r cur).cnt.val : Int) = ((r.cnt.val : Int) + dialDelta cur r.prev) % 12 := by
  simp only [rotaryStep, Fin.val_ofNat]
  omega

/-- Settles O38: the step is `dialDelta`, with the dial as the upper nibble of the raw byte. -/
theorem twelveWayDecode : Obligations.TwelveWayDecode := by
  intro p r raw
  obtain ⟨hlow, hhigh, hmod⟩ := dialDelta_law (dial raw) r.prev
  rw [dial_toNat] at hmod
  exact ⟨dialDelta (dial raw) r.prev, hlow, hhigh, hmod, dial_toNat raw, cnt_rotaryStep r (dial raw),
    withCode_toNat _ raw⟩

/-! ### Power-on -/

/-- The memory at power-on lists nothing. -/
theorem memoryOk_powerOn (p : Profile) : MemoryOk (State.powerOn p) :=
  ⟨rfl, fun _ hc => nomatch hc⟩

/-- The surfaces at power-on are blank, in the profile's sizes. -/
theorem renderShape_powerOn (p : Profile) : RenderShape (State.powerOn p) :=
  ⟨blankSurface_shape _ _, blankSurface_shape _ _, List.length_replicate⟩

/-- Every DIRTY slot is INVALID at power-on. -/
theorem dirtyCoherent_powerOn (p : Profile) : DirtyCoherent (State.powerOn p) := by
  intro i hi c hslot
  have hdirty : (State.powerOn p).dirty[i]? = some none := List.getElem?_replicate_of_lt hi
  rw [List.getD_eq_getElem?_getD, hdirty] at hslot
  exact nomatch hslot

/-- Without the mark at power-on the profile is well-formed. -/
theorem unrefusedWellFormed_powerOn (p : Profile) : UnrefusedWellFormed (State.powerOn p) := by
  intro hclear
  rw [refused_powerOn, Bool.not_eq_false'] at hclear
  exact hclear

/-- EX meets every check of R87, R101 and R114. -/
theorem wfProfile_exProfile : wfProfile exProfile = true := by decide +kernel

/-- Settles O58: each invariant holds of the power-on state, and EX meets the checks of a profile. -/
theorem powerOnMeetsTheInvariants : Obligations.PowerOnMeetsTheInvariants := by
  refine ⟨fun p => ⟨doorbellExclusive_powerOn p, memoryOk_powerOn p, renderShape_powerOn p, dirtyCoherent_powerOn p,
    unrefusedWellFormed_powerOn p⟩, rfl, ?_⟩
  rw [State.reset, refused_powerOn, wfProfile_exProfile]
  rfl

end Sys2Proof.Machine
